-- ==== Sys2Proof/Word.lean ====
section
/-! DEFINITION. The widths of the core's values (00_scope.md R6, R9): bit vectors numbered LSB 0 (R7).
`a ++ b` of two bit vectors has `a` as its most-significant part (R8); `+` and `-` wrap modulo 2^32 (R9). -/

namespace Sys2Proof

/-- A register, an address, the PC, an ALU operand, an instruction word: XLEN = 32 bits (R6). -/
abbrev Word := BitVec 32

/-- The unit both memories are addressed by (20_memory.md R57). -/
abbrev Byte := BitVec 8

/-- A general register's number, 0 to 31, as the 5-bit field that selects it (10_state.md R21, R22). -/
abbrev RegIdx := BitVec 5

end Sys2Proof
end

