-- ==== Sys2Proof/Machine/Flags.lean ====
section
/-! DEFINITION. The core has no architectural flags (10_state.md R32): a comparison is a value of its own tick. Here are the
comparisons the instruction rules make, and the ALU's `zero` output, which only JumpControl reads (40_datapath.md R141). -/

namespace Sys2Proof.Machine

/-- `s(a) < s(b)`, two's complement (00_scope.md R9). -/
def lessSigned (a b : Word) : Bool := decide (a.toInt < b.toInt)

/-- `u(a) < u(b)` (R9). -/
def lessUnsigned (a b : Word) : Bool := decide (a.toNat < b.toNat)

/-- A comparison's outcome as a register value: 1 or 0 (40_datapath.md R138). -/
def boolWord (c : Bool) : Word := if c then 1#32 else 0#32

/-- `zero = (result == 0x00000000)` (R141). -/
def zeroOf (result : Word) : Bool := decide (result = 0#32)

end Sys2Proof.Machine
end

