-- ==== Sys2Proof/Machine/Alu.lean ====
section
/-! DEFINITION. The ALU's eleven operations and their codes (40_datapath.md R138 to R140; 90_conflicts.md C2). -/

namespace Sys2Proof.Machine

/-- The operations "add, sub, and, or, xor, slt, sltu, sll, srl, sra, lui-pass-through" (R138). -/
inductive AluOp where
  | add
  | sub
  | sll
  | slt
  | sltu
  | xor
  | srl
  | sra
  | or
  | and
  | lui
  deriving DecidableEq, Repr

/-- The aluControl code of an operation (R138). -/
def aluCode : AluOp → BitVec 4
  | .add => 0b0000
  | .sub => 0b0001
  | .sll => 0b0010
  | .slt => 0b0011
  | .sltu => 0b0100
  | .xor => 0b0101
  | .srl => 0b0110
  | .sra => 0b0111
  | .or => 0b1000
  | .and => 0b1001
  | .lui => 0b1010

/-- A shift amount: the low five bits of the second operand (R139, D17). -/
def shiftAmount (in2 : Word) : Nat := (in2.extractLsb' 0 5).toNat

/-- An operation's result (R138, R140). ADD and SUB wrap and signal nothing (R139). -/
def aluResult (op : AluOp) (in1 in2 : Word) : Word :=
  match op with
  | .add => in1 + in2
  | .sub => in1 - in2
  | .sll => in1 <<< shiftAmount in2
  | .slt => boolWord (lessSigned in1 in2)
  | .sltu => boolWord (lessUnsigned in1 in2)
  | .xor => in1 ^^^ in2
  | .srl => in1 >>> shiftAmount in2
  | .sra => in1.sshiftRight (shiftAmount in2)
  | .or => in1 ||| in2
  | .and => in1 &&& in2
  | .lui => in2

end Sys2Proof.Machine
end

