-- ==== Sys2Proof/Config.lean ====
section
/-! DEFINITION. What is fixed for one core: the parameters of 00_scope.md R6, and the one value the spec leaves open
while the machine goes on (a free value: no body, so nothing can evaluate it). -/

namespace Sys2Proof.Config

/-- Bytes in the instruction memory's address space (R6, 20_memory.md R50, D1). -/
abbrev imemSize : Nat := 2 ^ 32

/-- Bytes in the data memory's address space (R6, 20_memory.md R50, D1). -/
abbrev dmemSize : Nat := 2 ^ 32

/-- "Unset addresses read as zero" (20_memory.md R50). -/
abbrev unsetByte : Byte := 0#8

/-- The byte address of code word 0 (R6, D3). -/
abbrev codeBase : Nat := 0

/-- The PC after reset, equal to CODE_BASE (10_state.md R31, D3). -/
abbrev resetPc : Word := 0#32

/-- SP_INIT. The spec leaves it OPEN and suggests this value (R6, D4).
DESIGN CHOICE (log entry 2), unsafe: a proof may lean on the number. `Simulator.construct` takes SP_INIT as an argument. -/
abbrev spInit : Word := 0x7FFFFFF0

/-- GP_INIT. The spec leaves it OPEN and suggests this value (R6, D4).
DESIGN CHOICE (log entry 2), unsafe: a proof may lean on the number. `Simulator.construct` takes GP_INIT as an argument. -/
abbrev gpInit : Word := 0x10000000

/-- The default CODE, a single NOP, as the machine words `setCode` takes (R6, 70_reset_and_hazards.md R300). -/
abbrev defaultCode : List Nat := [0x00000013]

/-- FREE VALUE: the DataMemory's output `readData` in a tick whose `memWrite` is 1. 20_memory.md R55 assigns `readData` when
`memRead` is 1 and when both are 0, and nothing when `memWrite` is 1; the store completes and no rule reads the value.
A function of the component's contents and declared inputs (R12): contents, address, write data, size, signed.
DESIGN CHOICE (log entry 5), safe: nothing constrains it. -/
opaque storeReadData : List Host.Cell → Word → Word → BitVec 2 → Bool → Word

end Sys2Proof.Config
end

