-- ==== Sys2Proof/WellFormed.lean ====
section
/-! DEFINITION. Which terms of `Instr` stand for an instruction word. Register numbers, 12-bit and 20-bit immediates and shift
amounts fit their fields by their types; an SB or UJ displacement must be even, since its bit 0 has no place in the word
(30_encoding.md R86, R88, R103: "An odd SB or UJ displacement is refused"). -/

namespace Sys2Proof

/-- R103: a branch displacement is a multiple of 2. -/
def evenBranchOffset (offset : BitVec 13) : Bool := !offset.getLsbD 0

/-- R103: a JAL displacement is a multiple of 2. -/
def evenJumpOffset (offset : BitVec 21) : Bool := !offset.getLsbD 0

def wellFormed : Instr → Bool
  | .add _ _ _ | .sub _ _ _ | .sll _ _ _ | .slt _ _ _ | .sltu _ _ _ => true
  | .xor _ _ _ | .srl _ _ _ | .sra _ _ _ | .or _ _ _ | .and _ _ _ => true
  | .addi _ _ _ | .slti _ _ _ | .sltiu _ _ _ | .xori _ _ _ | .ori _ _ _ | .andi _ _ _ => true
  | .slli _ _ _ | .srli _ _ _ | .srai _ _ _ => true
  | .lui _ _ | .auipc _ _ => true
  | .lb _ _ _ | .lh _ _ _ | .lw _ _ _ | .lbu _ _ _ | .lhu _ _ _ => true
  | .sb _ _ _ | .sh _ _ _ | .sw _ _ _ => true
  | .beq _ _ offset | .bne _ _ offset | .blt _ _ offset => evenBranchOffset offset
  | .bge _ _ offset | .bltu _ _ offset | .bgeu _ _ offset => evenBranchOffset offset
  | .jal _ offset => evenJumpOffset offset
  | .jalr _ _ _ => true
  | .ecall _ _ | .ebreak _ _ => true

end Sys2Proof
end

