-- ==== Sys2Proof/Decode.lean ====
section
/-! DEFINITION. Decoding: total on every word and on any bytes, each rejection naming the truth table that finds no row
(30_encoding.md R92, R93); then the encoder, from the formats of R81 and R82 and the values of R90 and R91. -/

namespace Sys2Proof

/-! ## The splitter and the immediate fields -/

/-- The six outputs of the InstructionSplitter (R80). -/
structure Fields where
  opcode : BitVec 7
  rd : BitVec 5
  funct3 : BitVec 3
  rs1 : BitVec 5
  rs2 : BitVec 5
  funct7 : BitVec 7
  deriving DecidableEq, Repr

/-- R80: "pure bit slicing per fixed field offsets". -/
def splitFields (w : Word) : Fields where
  opcode := w.extractLsb' 0 7
  rd := w.extractLsb' 7 5
  funct3 := w.extractLsb' 12 3
  rs1 := w.extractLsb' 15 5
  rs2 := w.extractLsb' 20 5
  funct7 := w.extractLsb' 25 7

/-- inst[31:20], the I-format immediate field (R81, R84). -/
def immFieldI (w : Word) : BitVec 12 := w.extractLsb' 20 12

/-- inst[31:25] ++ inst[11:7] (R85). -/
def immFieldS (w : Word) : BitVec 12 := w.extractLsb' 25 7 ++ w.extractLsb' 7 5

/-- inst[31] ++ inst[7] ++ inst[30:25] ++ inst[11:8] ++ 0 (R86). -/
def immFieldSB (w : Word) : BitVec 13 :=
  w.extractLsb' 31 1 ++ w.extractLsb' 7 1 ++ w.extractLsb' 25 6 ++ w.extractLsb' 8 4 ++ 0#1

/-- inst[31:12] (R87). -/
def immFieldU (w : Word) : BitVec 20 := w.extractLsb' 12 20

/-- inst[31] ++ inst[19:12] ++ inst[20] ++ inst[30:21] ++ 0 (R88). -/
def immFieldUJ (w : Word) : BitVec 21 :=
  w.extractLsb' 31 1 ++ w.extractLsb' 12 8 ++ w.extractLsb' 20 1 ++ w.extractLsb' 21 10 ++ 0#1

/-! ## Decoding -/

/-- A truth table that found no row, with the inputs it was asked for (00_scope.md R11; 30_encoding.md R92). `immGen`,
`controlMem` and `aluOp` have a row for every input the other tables let through, so no word is rejected by one of them. -/
inductive NoMatch where
  | controlMain (opcode : BitVec 7)
  | controlJump (opcode : BitVec 7) (funct3 : BitVec 3)
  | controlMem (funct3 : BitVec 3)
  | controlEcall (opcode : BitVec 7) (imm : BitVec 12)
  | aluControl (aluOp : BitVec 3) (funct7 : BitVec 7) (funct3 : BitVec 3)
  | immGen (opcode : BitVec 7)
  | aluOp (aluControl : BitVec 4)
  deriving DecidableEq, Repr

/-- OP (R91): every (funct7, funct3) outside the ten fails ALUCONTROL, whose aluOp input is 010 (R93). -/
def decodeOp (f : Fields) : Except NoMatch Instr :=
  match f.funct7, f.funct3 with
  | 0b0000000, 0b000 => .ok (.add f.rd f.rs1 f.rs2)
  | 0b0100000, 0b000 => .ok (.sub f.rd f.rs1 f.rs2)
  | 0b0000000, 0b001 => .ok (.sll f.rd f.rs1 f.rs2)
  | 0b0000000, 0b010 => .ok (.slt f.rd f.rs1 f.rs2)
  | 0b0000000, 0b011 => .ok (.sltu f.rd f.rs1 f.rs2)
  | 0b0000000, 0b100 => .ok (.xor f.rd f.rs1 f.rs2)
  | 0b0000000, 0b101 => .ok (.srl f.rd f.rs1 f.rs2)
  | 0b0100000, 0b101 => .ok (.sra f.rd f.rs1 f.rs2)
  | 0b0000000, 0b110 => .ok (.or f.rd f.rs1 f.rs2)
  | 0b0000000, 0b111 => .ok (.and f.rd f.rs1 f.rs2)
  | _, _ => .error (.aluControl 0b010 f.funct7 f.funct3)

/-- OP-IMM (R91): only the shifts look at funct7, the others have immediate bits there (R93, 42_alu_immediate.md R185). -/
def decodeOpImm (f : Fields) (imm : BitVec 12) : Except NoMatch Instr :=
  match f.funct3 with
  | 0b000 => .ok (.addi f.rd f.rs1 imm)
  | 0b010 => .ok (.slti f.rd f.rs1 imm)
  | 0b011 => .ok (.sltiu f.rd f.rs1 imm)
  | 0b100 => .ok (.xori f.rd f.rs1 imm)
  | 0b110 => .ok (.ori f.rd f.rs1 imm)
  | 0b111 => .ok (.andi f.rd f.rs1 imm)
  | 0b001 =>
    match f.funct7 with
    | 0b0000000 => .ok (.slli f.rd f.rs1 f.rs2)
    | _ => .error (.aluControl 0b011 f.funct7 f.funct3)
  | _ =>
    match f.funct7 with
    | 0b0000000 => .ok (.srli f.rd f.rs1 f.rs2)
    | 0b0100000 => .ok (.srai f.rd f.rs1 f.rs2)
    | _ => .error (.aluControl 0b011 f.funct7 f.funct3)

/-- LOAD (R91); funct3 011, 110 and 111 fail CONTROL_JUMP (R93). -/
def decodeLoad (f : Fields) (imm : BitVec 12) : Except NoMatch Instr :=
  match f.funct3 with
  | 0b000 => .ok (.lb f.rd f.rs1 imm)
  | 0b001 => .ok (.lh f.rd f.rs1 imm)
  | 0b010 => .ok (.lw f.rd f.rs1 imm)
  | 0b100 => .ok (.lbu f.rd f.rs1 imm)
  | 0b101 => .ok (.lhu f.rd f.rs1 imm)
  | _ => .error (.controlJump f.opcode f.funct3)

/-- STORE (R91); funct3 011 to 111 fail CONTROL_JUMP (R93). -/
def decodeStore (f : Fields) (imm : BitVec 12) : Except NoMatch Instr :=
  match f.funct3 with
  | 0b000 => .ok (.sb f.rs2 f.rs1 imm)
  | 0b001 => .ok (.sh f.rs2 f.rs1 imm)
  | 0b010 => .ok (.sw f.rs2 f.rs1 imm)
  | _ => .error (.controlJump f.opcode f.funct3)

/-- BRANCH (R91); funct3 010 and 011 fail CONTROL_JUMP (R93). -/
def decodeBranch (f : Fields) (offset : BitVec 13) : Except NoMatch Instr :=
  match f.funct3 with
  | 0b000 => .ok (.beq f.rs1 f.rs2 offset)
  | 0b001 => .ok (.bne f.rs1 f.rs2 offset)
  | 0b100 => .ok (.blt f.rs1 f.rs2 offset)
  | 0b101 => .ok (.bge f.rs1 f.rs2 offset)
  | 0b110 => .ok (.bltu f.rs1 f.rs2 offset)
  | 0b111 => .ok (.bgeu f.rs1 f.rs2 offset)
  | _ => .error (.controlJump f.opcode f.funct3)

/-- JALR (R91); funct3 other than 000 fails CONTROL_JUMP (R93). -/
def decodeJalr (f : Fields) (imm : BitVec 12) : Except NoMatch Instr :=
  match f.funct3 with
  | 0b000 => .ok (.jalr f.rd f.rs1 imm)
  | _ => .error (.controlJump f.opcode f.funct3)

/-- SYSTEM (R91): funct3 other than 000 fails CONTROL_JUMP, then an immediate other than 0 and 1 fails CONTROL_ECALL (R93,
47_system.md R248). -/
def decodeSystem (f : Fields) (imm : BitVec 12) : Except NoMatch Instr :=
  match f.funct3 with
  | 0b000 =>
    match imm with
    | 0x000 => .ok (.ecall f.rd f.rs1)
    | 0x001 => .ok (.ebreak f.rd f.rs1)
    | _ => .error (.controlEcall f.opcode imm)
  | _ => .error (.controlJump f.opcode f.funct3)

/-- The instruction a word stands for, or the first table that rejects it (R90 to R93). -/
def decode (w : Word) : Except NoMatch Instr :=
  let f := splitFields w
  match f.opcode with
  | 0b0110011 => decodeOp f
  | 0b0010011 => decodeOpImm f (immFieldI w)
  | 0b0000011 => decodeLoad f (immFieldI w)
  | 0b0100011 => decodeStore f (immFieldS w)
  | 0b1100011 => decodeBranch f (immFieldSB w)
  | 0b1101111 => .ok (.jal f.rd (immFieldUJ w))
  | 0b1100111 => decodeJalr f (immFieldI w)
  | 0b0110111 => .ok (.lui f.rd (immFieldU w))
  | 0b0010111 => .ok (.auipc f.rd (immFieldU w))
  | 0b1110011 => decodeSystem f (immFieldI w)
  | _ => .error (.controlMain f.opcode)

/-- Why bytes are no instruction: fewer than the 4 bytes of a word (R96: "The decoder always reads 4 bytes"), or a word
that a table rejects. -/
inductive DecodeError where
  | truncated
  | noMatch (table : NoMatch)
  deriving DecidableEq, Repr

/-- The word whose byte at the lowest address is `b0` (20_memory.md R58: little-endian). -/
def wordOfBytes (b0 b1 b2 b3 : Byte) : Word := b3 ++ b2 ++ b1 ++ b0

/-- The instruction at the head of a list of bytes, with the bytes after it. -/
def decodeBytes : List Byte → Except DecodeError (Instr × List Byte)
  | b0 :: b1 :: b2 :: b3 :: rest =>
    match decode (wordOfBytes b0 b1 b2 b3) with
    | .ok i => .ok (i, rest)
    | .error m => .error (.noMatch m)
  | _ => .error .truncated

/-! ## Encoding -/

/-- funct7 | rs2 | rs1 | funct3 | rd | opcode (R81; with shamt in rs2's place, R82). -/
def encodeR (funct7 : BitVec 7) (rs2 rs1 : BitVec 5) (funct3 : BitVec 3) (rd : BitVec 5) (opcode : BitVec 7) : Word :=
  funct7 ++ rs2 ++ rs1 ++ funct3 ++ rd ++ opcode

/-- imm[11:0] | rs1 | funct3 | rd | opcode (R81). -/
def encodeI (imm : BitVec 12) (rs1 : BitVec 5) (funct3 : BitVec 3) (rd : BitVec 5) (opcode : BitVec 7) : Word :=
  imm ++ rs1 ++ funct3 ++ rd ++ opcode

/-- imm[11:5] | rs2 | rs1 | funct3 | imm[4:0] | opcode (R81). -/
def encodeS (imm : BitVec 12) (rs2 rs1 : BitVec 5) (funct3 : BitVec 3) (opcode : BitVec 7) : Word :=
  imm.extractLsb' 5 7 ++ rs2 ++ rs1 ++ funct3 ++ imm.extractLsb' 0 5 ++ opcode

/-- imm[12] | imm[10:5] | rs2 | rs1 | funct3 | imm[4:1] | imm[11] | opcode (R81). -/
def encodeSB (imm : BitVec 13) (rs2 rs1 : BitVec 5) (funct3 : BitVec 3) (opcode : BitVec 7) : Word :=
  imm.extractLsb' 12 1 ++ imm.extractLsb' 5 6 ++ rs2 ++ rs1 ++ funct3 ++ imm.extractLsb' 1 4 ++ imm.extractLsb' 11 1
    ++ opcode

/-- imm[31:12] | rd | opcode (R81). -/
def encodeU (imm : BitVec 20) (rd : BitVec 5) (opcode : BitVec 7) : Word :=
  imm ++ rd ++ opcode

/-- imm[20] | imm[10:1] | imm[11] | imm[19:12] | rd | opcode (R81). -/
def encodeUJ (imm : BitVec 21) (rd : BitVec 5) (opcode : BitVec 7) : Word :=
  imm.extractLsb' 20 1 ++ imm.extractLsb' 1 10 ++ imm.extractLsb' 11 1 ++ imm.extractLsb' 12 8 ++ rd ++ opcode

/-- The word of an instruction (R104): its format's layout (R81, R82) with the opcode, funct3 and funct7 of R90 and R91. -/
def encode : Instr → Word
  | .add rd rs1 rs2 => encodeR 0b0000000 rs2 rs1 0b000 rd 0b0110011
  | .sub rd rs1 rs2 => encodeR 0b0100000 rs2 rs1 0b000 rd 0b0110011
  | .sll rd rs1 rs2 => encodeR 0b0000000 rs2 rs1 0b001 rd 0b0110011
  | .slt rd rs1 rs2 => encodeR 0b0000000 rs2 rs1 0b010 rd 0b0110011
  | .sltu rd rs1 rs2 => encodeR 0b0000000 rs2 rs1 0b011 rd 0b0110011
  | .xor rd rs1 rs2 => encodeR 0b0000000 rs2 rs1 0b100 rd 0b0110011
  | .srl rd rs1 rs2 => encodeR 0b0000000 rs2 rs1 0b101 rd 0b0110011
  | .sra rd rs1 rs2 => encodeR 0b0100000 rs2 rs1 0b101 rd 0b0110011
  | .or rd rs1 rs2 => encodeR 0b0000000 rs2 rs1 0b110 rd 0b0110011
  | .and rd rs1 rs2 => encodeR 0b0000000 rs2 rs1 0b111 rd 0b0110011
  | .addi rd rs1 imm => encodeI imm rs1 0b000 rd 0b0010011
  | .slti rd rs1 imm => encodeI imm rs1 0b010 rd 0b0010011
  | .sltiu rd rs1 imm => encodeI imm rs1 0b011 rd 0b0010011
  | .xori rd rs1 imm => encodeI imm rs1 0b100 rd 0b0010011
  | .ori rd rs1 imm => encodeI imm rs1 0b110 rd 0b0010011
  | .andi rd rs1 imm => encodeI imm rs1 0b111 rd 0b0010011
  | .slli rd rs1 shamt => encodeR 0b0000000 shamt rs1 0b001 rd 0b0010011
  | .srli rd rs1 shamt => encodeR 0b0000000 shamt rs1 0b101 rd 0b0010011
  | .srai rd rs1 shamt => encodeR 0b0100000 shamt rs1 0b101 rd 0b0010011
  | .lui rd imm => encodeU imm rd 0b0110111
  | .auipc rd imm => encodeU imm rd 0b0010111
  | .lb rd rs1 imm => encodeI imm rs1 0b000 rd 0b0000011
  | .lh rd rs1 imm => encodeI imm rs1 0b001 rd 0b0000011
  | .lw rd rs1 imm => encodeI imm rs1 0b010 rd 0b0000011
  | .lbu rd rs1 imm => encodeI imm rs1 0b100 rd 0b0000011
  | .lhu rd rs1 imm => encodeI imm rs1 0b101 rd 0b0000011
  | .sb rs2 rs1 imm => encodeS imm rs2 rs1 0b000 0b0100011
  | .sh rs2 rs1 imm => encodeS imm rs2 rs1 0b001 0b0100011
  | .sw rs2 rs1 imm => encodeS imm rs2 rs1 0b010 0b0100011
  | .beq rs1 rs2 offset => encodeSB offset rs2 rs1 0b000 0b1100011
  | .bne rs1 rs2 offset => encodeSB offset rs2 rs1 0b001 0b1100011
  | .blt rs1 rs2 offset => encodeSB offset rs2 rs1 0b100 0b1100011
  | .bge rs1 rs2 offset => encodeSB offset rs2 rs1 0b101 0b1100011
  | .bltu rs1 rs2 offset => encodeSB offset rs2 rs1 0b110 0b1100011
  | .bgeu rs1 rs2 offset => encodeSB offset rs2 rs1 0b111 0b1100011
  | .jal rd offset => encodeUJ offset rd 0b1101111
  | .jalr rd rs1 imm => encodeI imm rs1 0b000 rd 0b1100111
  | .ecall rd rs1 => encodeI 0x000 rs1 0b000 rd 0b1110011
  | .ebreak rd rs1 => encodeI 0x001 rs1 0b000 rd 0b1110011

/-- The four bytes of an instruction as memory holds them, the lowest address first (20_memory.md R58). -/
def encodeBytes (i : Instr) : List Byte :=
  let w := encode i
  [w.extractLsb' 0 8, w.extractLsb' 8 8, w.extractLsb' 16 8, w.extractLsb' 24 8]

/-! ## The host's decoding of a row of the opcode table -/

/-- The instruction of a table row's word: its low `nbits` bits are those of `w` and every bit above is 0, laid out as four
little-endian bytes. -/
def decodeTableWord (nbits w : Nat) : Option Instr :=
  let word : Word := BitVec.ofNat 32 (w % 2 ^ nbits)
  match decodeBytes [word.extractLsb' 0 8, word.extractLsb' 8 8, word.extractLsb' 16 8, word.extractLsb' 24 8] with
  | .ok (i, _) => some i
  | .error _ => none

end Sys2Proof
end

