-- ==== Sys2Proof/Machine/State.lean ====
section
/-! DEFINITION. The state of the core (10_state.md R20), the fatal conditions a tick can raise (60_exceptions.md R260), and
the state right after reset (R39). -/

namespace Sys2Proof.Machine

/-! ## Memory as data -/

/-- A memory: the bytes that differ from `Config.unsetByte`, by strictly rising address; every address not listed reads as
`Config.unsetByte` (20_memory.md R50). The operations are in Machine/Ops.lean; each keeps `Memory.wf`. -/
abbrev Memory := List Host.Cell

/-- The list's addresses rise strictly. -/
def Memory.rising : Memory → Bool
  | [] => true
  | [_] => true
  | a :: b :: rest => decide (a.1 < b.1) && Memory.rising (b :: rest)

/-- The canonical form: strictly rising addresses, no entry equal to what an unlisted address reads as. -/
def Memory.wf (m : Memory) : Bool :=
  Memory.rising m && m.all fun c => c.2 != Config.unsetByte

/-- Every listed address lies in an address space of `size` bytes (R50). -/
def Memory.within (size : Nat) (m : Memory) : Bool :=
  m.all fun c => decide (c.1 < size)

/-- Which of the two memories (R57). -/
inductive MemoryId where
  | instruction
  | data
  deriving DecidableEq, Repr

/-! ## Fatal conditions -/

/-- The muxes of the datapath, named in a `muxSelect` record (40_datapath.md R132, R143, R144, R146, R147). -/
inductive MuxId where
  | aluSrc
  | branchSrc
  | nextPc
  | writeSrc
  deriving DecidableEq, Repr

/-- The fatal conditions and the values each records (60_exceptions.md R260). All are safe: the spec itself ends the run. -/
inductive Fatal where
  /-- Code 1: a truth table finds no row; raised by `step` on every word `decode` rejects. Safe. -/
  | decodeNoMatch (table : NoMatch) (pc : Word) (inst : Word)
  /-- Code 2: `address + width` exceeds the memory's size; raised by the fetch, the loads and the stores, and by the host's
  `setCode` and array accesses. Safe. -/
  | memoryRange (memory : MemoryId) (address width : Nat) (pc : Word)
  /-- Code 3: a stored value does not fit its width; raised only by the host's `setCode` and `storeArray`, since the
  DataMemory wrapper truncates (R262). Safe. -/
  | memoryValue (value width : Nat)
  /-- Code 4: `memRead` and `memWrite` both 1; raised by the memory wrapper, by no row of CONTROL_MAIN (R262). Safe. -/
  | memReadWrite (address : Word)
  /-- Code 5: an access with size code 11; raised by the memory wrapper, for no accepted instruction (R262). Safe. -/
  | memSizeInvalid (size : BitVec 2)
  /-- Code 6: a mux select beyond its inputs; raised by the mux component, by no mux of the core (R132). Safe. -/
  | muxSelect (mux : MuxId) (select : Nat)
  deriving DecidableEq, Repr

/-- The code 60_exceptions.md R260 gives each kind. -/
def Fatal.code : Fatal → Nat
  | .decodeNoMatch .. => 1
  | .memoryRange .. => 2
  | .memoryValue .. => 3
  | .memReadWrite .. => 4
  | .memSizeInvalid .. => 5
  | .muxSelect .. => 6

/-- Why a step answers no next state. -/
inductive Fault where
  /-- The tick raises a fatal condition: it writes no register, no memory byte and no PC, and the core is `faulted` from then
  on (60_exceptions.md R261; `Simulator.tick` records it, log entry 1). Raised by `step` and by the loads and stores. Safe. -/
  | fatal (f : Fatal)
  /-- The core is already `faulted` and takes no further tick (10_state.md R37; 93 U5: stuck). Raised by `step`. Safe. -/
  | faultedCore (f : Fatal)
  deriving DecidableEq, Repr

/-- Why a step gives an instruction no meaning. -/
inductive Refusal where
  /-- An arm of `exec` whose instruction has no meaning yet; raised by no arm of this model. Safe. -/
  | notModelled (mnemonic : String)
  deriving DecidableEq, Repr

/-! ## Retained signals and status -/

/-- CONTROL_MAIN's outputs (40_datapath.md R133). -/
structure MainControl where
  aluSrc : Bool
  writeSrc : BitVec 2
  regWrite : Bool
  memRead : Bool
  memWrite : Bool
  aluOp : BitVec 3
  deriving DecidableEq, Repr

/-- CONTROL_JUMP's outputs (R134). -/
structure BranchControl where
  branchZero : Bool
  branchNotZero : Bool
  jump : Bool
  jalr : Bool
  deriving DecidableEq, Repr

/-- CONTROL_MEM's outputs (R135). -/
structure MemControl where
  memSize : BitVec 2
  memSigned : Bool
  deriving DecidableEq, Repr

/-- The Control unit's outputs, those of its four tables (R133 to R136; 90_conflicts.md C10). -/
structure Control where
  main : MainControl
  branch : BranchControl
  mem : MemControl
  /-- 00 none, 01 ECALL, 10 EBREAK (R136). -/
  ecall : BitVec 2
  deriving DecidableEq, Repr

/-- The value of every signal of one tick (40_datapath.md R130: "sig <- every value named above"). -/
structure Signals where
  pcCur : Word
  inst : Word
  fields : Fields
  control : Control
  aluControl : BitVec 4
  imm : Word
  readData1 : Word
  readData2 : Word
  aluIn2 : Word
  result : Word
  zero : Bool
  memData : Word
  pcPlus4 : Word
  branchIn1 : Word
  branchTarget : Word
  auipcValue : Word
  takeBranch : Bool
  nextPC : Word
  writeData : Word
  deriving DecidableEq, Repr

/-- The signals before the first tick. `ecall` is 00 (10_state.md R39); the others are unspecified and no rule reads them (R35,
93 U7). DESIGN CHOICE (log entry 3), unsafe: zero for each of them. -/
def Signals.beforeFirstTick : Signals where
  pcCur := 0
  inst := 0
  fields := ⟨0, 0, 0, 0, 0, 0⟩
  control := ⟨⟨false, 0, false, false, false, 0⟩, ⟨false, false, false, false⟩, ⟨0, false⟩, 0b00⟩
  aluControl := 0
  imm := 0
  readData1 := 0
  readData2 := 0
  aluIn2 := 0
  result := 0
  zero := false
  memData := 0
  pcPlus4 := 0
  branchIn1 := 0
  branchTarget := 0
  auipcValue := 0
  takeBranch := false
  nextPC := 0
  writeData := 0

/-- The simulator status (10_state.md R36), with the terminal `faulted` and its record (R37). -/
inductive Status where
  | constructed
  | running
  | done
  | faulted (f : Fatal)
  deriving DecidableEq, Repr

/-! ## The state -/

/-- The state vector `(pc, x[0..31], imem, dmem, sig, status)` (R20), and N (70_reset_and_hazards.md R301). -/
structure State where
  /-- The PC register (R26). -/
  pc : Word
  /-- The register file (R21). Slot 0 stands behind x0 and is neither read nor written: `State.reg`, `State.setReg`. -/
  regs : Vector Word 32
  /-- The instruction memory (20_memory.md R57). -/
  imem : Memory
  /-- The data memory (20_memory.md R57). -/
  dmem : Memory
  /-- N, the number of loaded code words, recorded by `setCode` for `isDone` (R301, R305). -/
  codeLen : Nat
  /-- The signal values of the most recent tick; no tick reads them (R35). -/
  sig : Signals
  /-- The simulator status (R36, R37); a tick reads only whether it is `faulted`. -/
  status : Status
  deriving DecidableEq, Repr

/-- The core with empty memories, no code and every general register at its reset value for the given SP_INIT and GP_INIT
(R25). -/
def State.blank (spInit gpInit : Word) : State where
  pc := Config.resetPc
  regs := ((Vector.replicate 32 0).set 2 spInit).set 3 gpInit
  imem := []
  dmem := []
  codeLen := 0
  sig := Signals.beforeFirstTick
  status := .constructed

/-- The state after reset (R39) with the default launch arguments (70_reset_and_hazards.md R300): the default CODE, one NOP
word 0x00000013, whose only byte that is not 0 is byte 0; REGMAP empty; DMEM_INIT all zero. `Simulator.construct` gives
the state for any other launch arguments. -/
def State.reset : State :=
  { State.blank Config.spInit Config.gpInit with imem := [(0, 0x13)], codeLen := 1 }

end Sys2Proof.Machine
end

