-- ==== Sys2Proof/Machine/Ops.lean ====
section
/-! DEFINITION. The named operations over memories (20_memory.md section 1), the register file and the PC (10_state.md), and
the one operation that takes a fatal condition (60_exceptions.md R261). -/

namespace Sys2Proof.Machine

/-- What a step of the core answers. -/
abbrev StepOutcome := Host.Outcome State Fault Refusal

/-! ## One byte of a memory -/

/-- The byte at an address; an address not listed reads as `Config.unsetByte` (R50). -/
def Memory.read : Memory → Nat → Byte
  | [], _ => Config.unsetByte
  | (a, b) :: rest, addr => if a = addr then b else Memory.read rest addr

/-- The memory without an entry for an address. -/
def Memory.erase : Memory → Nat → Memory
  | [], _ => []
  | (a, b) :: rest, addr => if a = addr then Memory.erase rest addr else (a, b) :: Memory.erase rest addr

/-- The memory with one more entry, put before the first entry of a higher address. -/
def Memory.insert : Memory → Nat → Byte → Memory
  | [], addr, v => [(addr, v)]
  | (a, b) :: rest, addr, v =>
    if addr < a then (addr, v) :: (a, b) :: rest else (a, b) :: Memory.insert rest addr v

/-- The memory after one byte is written: writing what an unlisted address reads as leaves the address unlisted. -/
def Memory.write (m : Memory) (addr : Nat) (v : Byte) : Memory :=
  if v = Config.unsetByte then m.erase addr else (m.erase addr).insert addr v

/-! ## Loads and stores of several bytes, little-endian (R51, R52, R58) -/

/-- The sum of `byte[addr + k] * 2^(8k)` for k = 0 .. w-1 (R51). -/
def Memory.readNat (m : Memory) (addr : Nat) : Nat → Nat
  | 0 => 0
  | w + 1 => (m.read addr).toNat + 256 * m.readNat (addr + 1) w

/-- `byte[addr + k] <- (value >> 8k) mod 256` for k = 0 .. w-1 (R52). -/
def Memory.writeNat (m : Memory) (addr : Nat) : Nat → Nat → Memory
  | 0, _ => m
  | w + 1, value => (m.write addr (BitVec.ofNat 8 value)).writeNat (addr + 1) w (value / 256)

/-- The bytes in a memory's address space (00_scope.md R6, D1). -/
def memorySize : MemoryId → Nat
  | .instruction => Config.imemSize
  | .data => Config.dmemSize

/-- `Memory.load(addr, w)` (R51): the range is checked before anything is read. The PC only goes into the record. R51 defines a load
for w >= 1; a width of 0 answers the empty value where the range allows it (DESIGN CHOICE, log entry 19). -/
def loadBytes (id : MemoryId) (pc : Word) (m : Memory) (addr w : Nat) : Except Fatal (BitVec (8 * w)) :=
  if addr + w > memorySize id then .error (.memoryRange id addr w pc)
  else .ok (BitVec.ofNat (8 * w) (m.readNat addr w))

/-- `Memory.store(addr, w, value)` (R52): the range, then the value, are checked before any byte is written. -/
def storeBytes (id : MemoryId) (pc : Word) (m : Memory) (addr w value : Nat) : Except Fatal Memory :=
  if addr + w > memorySize id then .error (.memoryRange id addr w pc)
  else if value ≥ 2 ^ (8 * w) then .error (.memoryValue value w)
  else .ok (m.writeNat addr w value)

/-- `Memory.loadArray(addr, w, m)` (R53): `count` elements of `w` bytes each. R53 gives no order for a failing one. DESIGN CHOICE (log
entry 11): it answers the condition of the failing element of the lowest index, and no values. -/
def loadArray (id : MemoryId) (pc : Word) (m : Memory) (addr w : Nat) : Nat → Except Fatal (List (BitVec (8 * w)))
  | 0 => .ok []
  | count + 1 =>
    match loadBytes id pc m addr w with
    | .error f => .error f
    | .ok v =>
      match loadArray id pc m (addr + w) w count with
      | .error f => .error f
      | .ok vs => .ok (v :: vs)

/-- `Memory.storeArray(addr, w, [v0..])` (R53). The order in which a failing one stops is unspecified (R53, 93 U6). DESIGN CHOICE (log
entry 11): it answers the condition of the failing element of the lowest index, and no memory. -/
def storeArray (id : MemoryId) (pc : Word) (m : Memory) (addr w : Nat) : List Nat → Except Fatal Memory
  | [] => .ok m
  | v :: vs =>
    match storeBytes id pc m addr w v with
    | .error f => .error f
    | .ok m' => storeArray id pc m' (addr + w) w vs

/-! ## The instruction rules' accesses -/

/-- `IMemRead(pc, 4)`: the instruction word at the PC (R54). -/
def State.fetch (s : State) : Except Fatal Word :=
  loadBytes .instruction s.pc s.imem s.pc.toNat 4

/-- `MemRead(addr, n)` (R56). -/
def State.memRead (s : State) (addr : Word) (n : Nat) : Except Fatal (BitVec (8 * n)) :=
  loadBytes .data s.pc s.dmem addr.toNat n

/-- `MemWrite(addr, n, v)` (R56): the data memory after the store. -/
def State.memWrite (s : State) (addr : Word) (n : Nat) (v : BitVec (8 * n)) : Except Fatal Memory :=
  storeBytes .data s.pc s.dmem addr.toNat n v.toNat

/-! ## Registers -/

/-- `x[r]`: register 0 reads as 0 (10_state.md R21). -/
def State.reg (s : State) (r : RegIdx) : Word :=
  if r = 0#5 then 0#32 else s.regs[r.toNat]'r.isLt

/-- `x[r] <- v`: a write to register 0 is dropped (R21, R22). -/
def State.setReg (s : State) (r : RegIdx) (v : Word) : State :=
  if r = 0#5 then s else { s with regs := s.regs.set r.toNat v r.isLt }

/-! ## The end of a tick -/

/-- `isDone()` for a PC and a count N of code words: `u(pc) >= CODE_BASE + 4N` (70_reset_and_hazards.md R305). -/
def isDoneAt (pc : Word) (n : Nat) : Bool :=
  decide (Config.codeBase + 4 * n ≤ pc.toNat)

/-- The last step of a tick: the PC takes the next PC (R27), the signals stay readable (R35), and the status is `done` if
`isDone()` holds and `running` otherwise (R36). -/
def State.retire (s : State) (nextPC : Word) (sig : Signals) : State :=
  { s with
    pc := nextPC
    sig := sig
    status := if isDoneAt nextPC s.codeLen then .done else .running }

/-- Taking a fatal condition: no register, memory byte or PC is written, and the status records the condition
(60_exceptions.md R261, 10_state.md R37). There is nothing to return from it with (60_exceptions.md R267). -/
def State.enterFaulted (s : State) (f : Fatal) : State :=
  { s with status := .faulted f }

end Sys2Proof.Machine
end

