-- ==== Sys2Proof/Machine/Operands.lean ====
section
/-! DEFINITION. The operand forms: the five immediates (30_encoding.md R84 to R88), the one addressing mode (44_loads_stores.md
R205), and the addresses the PC logic computes (40_datapath.md R142, R143, R145). -/

namespace Sys2Proof.Machine

/-- immI and immS: the 12-bit field sign-extended (R84, R85). -/
def imm12 (field : BitVec 12) : Word := field.signExtend 32

/-- The I immediate of a shift: funct7 ++ shamt, sign-extended; its low five bits are the shift amount (R82, R84,
42_alu_immediate.md R194). -/
def immShift (funct7 : BitVec 7) (shamt : BitVec 5) : Word := imm12 (funct7 ++ shamt)

/-- immSB: the 13-bit displacement sign-extended (R86). -/
def immBranch (offset : BitVec 13) : Word := offset.signExtend 32

/-- immU: the 20-bit field shifted left by 12 (R87). -/
def immUpper (field : BitVec 20) : Word := field ++ 0#12

/-- immUJ: the 21-bit displacement sign-extended (R88). -/
def immJump (offset : BitVec 21) : Word := offset.signExtend 32

/-- `EA = x[rs1] +32 imm`, modulo 2^32 (44_loads_stores.md R205, 20_memory.md R64). -/
def effectiveAddress (s : State) (rs1 : RegIdx) (imm : BitVec 12) : Word := s.reg rs1 + imm12 imm

/-- The PC+4 adder, modulo 2^32 (R142). -/
def pcPlus4 (pc : Word) : Word := pc + 4#32

/-- The BranchAdder: the sum truncated to 32 bits with bit 0 forced to 0, bit 1 kept (R143, 90_conflicts.md C4). -/
def branchAdder (in1 in2 : Word) : Word := (in1 + in2) &&& 0xFFFFFFFE#32

/-- The AuipcAdder (R145). -/
def auipcAdder (pc imm : Word) : Word := pc + imm

/-- The immediate the ImmGen makes of an instruction's word (R83, R89). -/
def immediateOf : Instr → Word
  | .add _ _ _ | .sub _ _ _ | .sll _ _ _ | .slt _ _ _ | .sltu _ _ _ => 0#32
  | .xor _ _ _ | .srl _ _ _ | .sra _ _ _ | .or _ _ _ | .and _ _ _ => 0#32
  | .addi _ _ imm | .slti _ _ imm | .sltiu _ _ imm => imm12 imm
  | .xori _ _ imm | .ori _ _ imm | .andi _ _ imm => imm12 imm
  | .slli _ _ shamt | .srli _ _ shamt => immShift 0b0000000 shamt
  | .srai _ _ shamt => immShift 0b0100000 shamt
  | .lui _ imm | .auipc _ imm => immUpper imm
  | .lb _ _ imm | .lh _ _ imm | .lw _ _ imm | .lbu _ _ imm | .lhu _ _ imm => imm12 imm
  | .sb _ _ imm | .sh _ _ imm | .sw _ _ imm => imm12 imm
  | .beq _ _ offset | .bne _ _ offset | .blt _ _ offset => immBranch offset
  | .bge _ _ offset | .bltu _ _ offset | .bgeu _ _ offset => immBranch offset
  | .jal _ offset => immJump offset
  | .jalr _ _ imm => imm12 imm
  | .ecall _ _ => imm12 0x000
  | .ebreak _ _ => imm12 0x001

end Sys2Proof.Machine
end

