-- ==== Sys2Proof/Machine/TruthTable.lean ====
section
/-! DEFINITION. Truth tables with wildcards (00_scope.md R11), the form of every control decision of the core. -/

namespace Sys2Proof.Machine

/-- A pattern over `w` bits: a bit with `care` 1 must equal the bit of `value`; a bit with `care` 0 is `-`, don't care. -/
structure Pattern (w : Nat) where
  care : BitVec w
  value : BitVec w
  deriving DecidableEq, Repr

/-- The pattern with no wildcard. -/
def exactly {w : Nat} (v : BitVec w) : Pattern w := ⟨BitVec.allOnes w, v⟩

/-- The pattern `-...-`. -/
def anyBits (w : Nat) : Pattern w := ⟨0, 0⟩

/-- "every pattern bit equals the input bit or is `-`". -/
def patternMatches {w : Nat} (p : Pattern w) (input : BitVec w) : Bool :=
  decide ((input ^^^ p.value) &&& p.care = 0)

/-- A table of one input: the rows in order, each a pattern and the row's output. -/
abbrev Table1 (u : Nat) (β : Type) := List (Pattern u × β)

/-- A table of two inputs: each row's pattern tuple has one pattern per input. -/
abbrev Table2 (u v : Nat) (β : Type) := List (Pattern u × Pattern v × β)

/-- A table of three inputs. -/
abbrev Table3 (u v w : Nat) (β : Type) := List (Pattern u × Pattern v × Pattern w × β)

/-- The output of the first row, in list order, whose pattern matches; none where no row does. -/
def tableMatch1 {u : Nat} {β : Type} : Table1 u β → BitVec u → Option β
  | [], _ => none
  | (p, out) :: rest, a => if patternMatches p a then some out else tableMatch1 rest a

/-- The same for two inputs: every pattern of the row's tuple matches its input. -/
def tableMatch2 {u v : Nat} {β : Type} : Table2 u v β → BitVec u → BitVec v → Option β
  | [], _, _ => none
  | (p, q, out) :: rest, a, b =>
    if patternMatches p a && patternMatches q b then some out else tableMatch2 rest a b

/-- The same for three inputs. -/
def tableMatch3 {u v w : Nat} {β : Type} : Table3 u v w β → BitVec u → BitVec v → BitVec w → Option β
  | [], _, _, _ => none
  | (p, q, r, out) :: rest, a, b, c =>
    if patternMatches p a && patternMatches q b && patternMatches r c then some out else tableMatch3 rest a b c

end Sys2Proof.Machine
end

