-- ==== Sys2Proof/Machine/ControlUnit.lean ====
section
/-! DEFINITION. The decode tables of the datapath, row by row in the spec's order: Control's four tables (40_datapath.md R133 to
R136), ALUControl (R137), the ALU's operation table (R138) and the ImmGen (30_encoding.md R83). No table has a catch-all
row. A signal written 1 in the spec is `true` here. -/

namespace Sys2Proof.Machine

/-- CONTROL_MAIN (R133): aluSrc, writeSrc, regWrite, memRead, memWrite, aluOp by opcode. -/
def controlMainTable : Table1 7 MainControl :=
  [ (exactly 0b0110011, ⟨false, 0b00, true, false, false, 0b010⟩),  -- OP
    (exactly 0b0010011, ⟨true, 0b00, true, false, false, 0b011⟩),   -- OP-IMM
    (exactly 0b0000011, ⟨true, 0b01, true, true, false, 0b000⟩),    -- LOAD
    (exactly 0b0100011, ⟨true, 0b00, false, false, true, 0b000⟩),   -- STORE
    (exactly 0b1100011, ⟨false, 0b00, false, false, false, 0b001⟩), -- BRANCH
    (exactly 0b1101111, ⟨false, 0b10, true, false, false, 0b000⟩),  -- JAL
    (exactly 0b1100111, ⟨true, 0b10, true, false, false, 0b000⟩),   -- JALR
    (exactly 0b0110111, ⟨true, 0b00, true, false, false, 0b100⟩),   -- LUI
    (exactly 0b0010111, ⟨true, 0b11, true, false, false, 0b000⟩),   -- AUIPC
    (exactly 0b1110011, ⟨false, 0b00, false, false, false, 0b000⟩) ] -- SYSTEM

/-- No branch and no jump. -/
def noBranch : BranchControl := ⟨false, false, false, false⟩

/-- Take on zero = 1. -/
def takeOnZero : BranchControl := ⟨true, false, false, false⟩

/-- Take on zero = 0. -/
def takeOnNotZero : BranchControl := ⟨false, true, false, false⟩

/-- CONTROL_JUMP (R134): branchZero, branchNotZero, jump, jalr by opcode and funct3. -/
def controlJumpTable : Table2 7 3 BranchControl :=
  [ (exactly 0b1100011, exactly 0b000, takeOnZero),    -- BEQ
    (exactly 0b1100011, exactly 0b001, takeOnNotZero), -- BNE
    (exactly 0b1100011, exactly 0b100, takeOnNotZero), -- BLT
    (exactly 0b1100011, exactly 0b101, takeOnZero),    -- BGE
    (exactly 0b1100011, exactly 0b110, takeOnNotZero), -- BLTU
    (exactly 0b1100011, exactly 0b111, takeOnZero),    -- BGEU
    (exactly 0b1101111, anyBits 3, ⟨false, false, true, false⟩),    -- JAL
    (exactly 0b1100111, exactly 0b000, ⟨false, false, true, true⟩), -- JALR
    (exactly 0b0000011, exactly 0b000, noBranch), -- LB
    (exactly 0b0000011, exactly 0b001, noBranch), -- LH
    (exactly 0b0000011, exactly 0b010, noBranch), -- LW
    (exactly 0b0000011, exactly 0b100, noBranch), -- LBU
    (exactly 0b0000011, exactly 0b101, noBranch), -- LHU
    (exactly 0b0100011, exactly 0b000, noBranch), -- SB
    (exactly 0b0100011, exactly 0b001, noBranch), -- SH
    (exactly 0b0100011, exactly 0b010, noBranch), -- SW
    (exactly 0b0110011, anyBits 3, noBranch),     -- OP
    (exactly 0b0010011, anyBits 3, noBranch),     -- OP-IMM
    (exactly 0b0110111, anyBits 3, noBranch),     -- LUI
    (exactly 0b0010111, anyBits 3, noBranch),     -- AUIPC
    (exactly 0b1110011, exactly 0b000, noBranch) ] -- ECALL, EBREAK

/-- CONTROL_MEM (R135): memSize, memSigned by funct3; total. -/
def controlMemTable : Table1 3 MemControl :=
  [ (exactly 0b000, ⟨0b00, true⟩),
    (exactly 0b001, ⟨0b01, true⟩),
    (exactly 0b010, ⟨0b10, true⟩),
    (exactly 0b011, ⟨0b11, true⟩),
    (exactly 0b100, ⟨0b00, false⟩),
    (exactly 0b101, ⟨0b01, false⟩),
    (exactly 0b110, ⟨0b10, false⟩),
    (exactly 0b111, ⟨0b11, false⟩) ]

/-- CONTROL_ECALL (R136): ecall by opcode and inst[31:20]. Rows 3 to 11 are the nine other opcodes of R133. -/
def controlEcallTable : Table2 7 12 (BitVec 2) :=
  [ (exactly 0b1110011, exactly 0x000, 0b01),
    (exactly 0b1110011, exactly 0x001, 0b10),
    (exactly 0b0110011, anyBits 12, 0b00),
    (exactly 0b0010011, anyBits 12, 0b00),
    (exactly 0b0000011, anyBits 12, 0b00),
    (exactly 0b0100011, anyBits 12, 0b00),
    (exactly 0b1100011, anyBits 12, 0b00),
    (exactly 0b1101111, anyBits 12, 0b00),
    (exactly 0b1100111, anyBits 12, 0b00),
    (exactly 0b0110111, anyBits 12, 0b00),
    (exactly 0b0010111, anyBits 12, 0b00) ]

/-- ALUCONTROL (R137; 90_conflicts.md C3): aluControl by aluOp, funct7, funct3. -/
def aluControlTable : Table3 3 7 3 (BitVec 4) :=
  [ (exactly 0b000, anyBits 7, anyBits 3, aluCode .add),   -- loads, stores, JAL, JALR, AUIPC, SYSTEM
    (exactly 0b100, anyBits 7, anyBits 3, aluCode .lui),   -- LUI
    (exactly 0b001, anyBits 7, exactly 0b000, aluCode .sub),  -- BEQ
    (exactly 0b001, anyBits 7, exactly 0b001, aluCode .sub),  -- BNE
    (exactly 0b001, anyBits 7, exactly 0b100, aluCode .slt),  -- BLT
    (exactly 0b001, anyBits 7, exactly 0b101, aluCode .slt),  -- BGE
    (exactly 0b001, anyBits 7, exactly 0b110, aluCode .sltu), -- BLTU
    (exactly 0b001, anyBits 7, exactly 0b111, aluCode .sltu), -- BGEU
    (exactly 0b010, exactly 0b0000000, exactly 0b000, aluCode .add),  -- ADD
    (exactly 0b010, exactly 0b0100000, exactly 0b000, aluCode .sub),  -- SUB
    (exactly 0b010, exactly 0b0000000, exactly 0b001, aluCode .sll),  -- SLL
    (exactly 0b010, exactly 0b0000000, exactly 0b010, aluCode .slt),  -- SLT
    (exactly 0b010, exactly 0b0000000, exactly 0b011, aluCode .sltu), -- SLTU
    (exactly 0b010, exactly 0b0000000, exactly 0b100, aluCode .xor),  -- XOR
    (exactly 0b010, exactly 0b0000000, exactly 0b101, aluCode .srl),  -- SRL
    (exactly 0b010, exactly 0b0100000, exactly 0b101, aluCode .sra),  -- SRA
    (exactly 0b010, exactly 0b0000000, exactly 0b110, aluCode .or),   -- OR
    (exactly 0b010, exactly 0b0000000, exactly 0b111, aluCode .and),  -- AND
    (exactly 0b011, anyBits 7, exactly 0b000, aluCode .add),          -- ADDI
    (exactly 0b011, exactly 0b0000000, exactly 0b001, aluCode .sll),  -- SLLI
    (exactly 0b011, anyBits 7, exactly 0b010, aluCode .slt),          -- SLTI
    (exactly 0b011, anyBits 7, exactly 0b011, aluCode .sltu),         -- SLTIU
    (exactly 0b011, anyBits 7, exactly 0b100, aluCode .xor),          -- XORI
    (exactly 0b011, exactly 0b0000000, exactly 0b101, aluCode .srl),  -- SRLI
    (exactly 0b011, exactly 0b0100000, exactly 0b101, aluCode .sra),  -- SRAI
    (exactly 0b011, anyBits 7, exactly 0b110, aluCode .or),           -- ORI
    (exactly 0b011, anyBits 7, exactly 0b111, aluCode .and) ]         -- ANDI

/-- The ALU's operation table (R138): codes 1011 to 1111 have no row. -/
def aluOpTable : Table1 4 AluOp :=
  [ (exactly 0b0000, .add),
    (exactly 0b0001, .sub),
    (exactly 0b0010, .sll),
    (exactly 0b0011, .slt),
    (exactly 0b0100, .sltu),
    (exactly 0b0101, .xor),
    (exactly 0b0110, .srl),
    (exactly 0b0111, .sra),
    (exactly 0b1000, .or),
    (exactly 0b1001, .and),
    (exactly 0b1010, .lui) ]

/-- The field-extraction functions the ImmGen chooses among (30_encoding.md R83). -/
inductive ImmFormat where
  | r
  | i
  | s
  | sb
  | u
  | uj
  deriving DecidableEq, Repr

/-- The immediate of a word in a format (R84 to R89). -/
def extractImm (format : ImmFormat) (inst : Word) : Word :=
  match format with
  | .r => 0#32
  | .i => imm12 (immFieldI inst)
  | .s => imm12 (immFieldS inst)
  | .sb => immBranch (immFieldSB inst)
  | .u => immUpper (immFieldU inst)
  | .uj => immJump (immFieldUJ inst)

/-- IMMGEN (R83): the format by opcode. -/
def immGenTable : Table1 7 ImmFormat :=
  [ (exactly 0b0110011, .r),
    (exactly 0b0010011, .i),
    (exactly 0b0000011, .i),
    (exactly 0b1100111, .i),
    (exactly 0b1110011, .i),
    (exactly 0b0100011, .s),
    (exactly 0b1100011, .sb),
    (exactly 0b0110111, .u),
    (exactly 0b0010111, .u),
    (exactly 0b1101111, .uj) ]

end Sys2Proof.Machine
end

