-- ==== Sys2Proof/Machine/Signals.lean ====
section
/-! DEFINITION. The signals of the tick of an accepted instruction, in closed form, and the operation that ends such a tick.
Machine/Datapath.lean computes the same signals through the components and their tables. -/

namespace Sys2Proof.Machine

/-- The control signals an instruction's own row gives (40_datapath.md R148). memSize and memSigned are not among them: they
are funct3's in every tick (R135). -/
structure ControlRow where
  main : MainControl
  branch : BranchControl
  ecall : BitVec 2
  op : AluOp
  deriving DecidableEq, Repr

/-- OP (R133 row 1). -/
def rowOp (op : AluOp) : ControlRow := ⟨⟨false, 0b00, true, false, false, 0b010⟩, noBranch, 0b00, op⟩

/-- OP-IMM (R133 row 2). -/
def rowOpImm (op : AluOp) : ControlRow := ⟨⟨true, 0b00, true, false, false, 0b011⟩, noBranch, 0b00, op⟩

/-- LOAD (R133 row 3). -/
def rowLoad : ControlRow := ⟨⟨true, 0b01, true, true, false, 0b000⟩, noBranch, 0b00, .add⟩

/-- STORE (R133 row 4). -/
def rowStore : ControlRow := ⟨⟨true, 0b00, false, false, true, 0b000⟩, noBranch, 0b00, .add⟩

/-- BRANCH (R133 row 5). -/
def rowBranch (branch : BranchControl) (op : AluOp) : ControlRow :=
  ⟨⟨false, 0b00, false, false, false, 0b001⟩, branch, 0b00, op⟩

/-- SYSTEM (R133 row 10). -/
def rowSystem (ecall : BitVec 2) : ControlRow := ⟨⟨false, 0b00, false, false, false, 0b000⟩, noBranch, ecall, .add⟩

/-- The rows of R148. -/
def controlRow : Instr → ControlRow
  | .add _ _ _ => rowOp .add
  | .sub _ _ _ => rowOp .sub
  | .sll _ _ _ => rowOp .sll
  | .slt _ _ _ => rowOp .slt
  | .sltu _ _ _ => rowOp .sltu
  | .xor _ _ _ => rowOp .xor
  | .srl _ _ _ => rowOp .srl
  | .sra _ _ _ => rowOp .sra
  | .or _ _ _ => rowOp .or
  | .and _ _ _ => rowOp .and
  | .addi _ _ _ => rowOpImm .add
  | .slti _ _ _ => rowOpImm .slt
  | .sltiu _ _ _ => rowOpImm .sltu
  | .xori _ _ _ => rowOpImm .xor
  | .ori _ _ _ => rowOpImm .or
  | .andi _ _ _ => rowOpImm .and
  | .slli _ _ _ => rowOpImm .sll
  | .srli _ _ _ => rowOpImm .srl
  | .srai _ _ _ => rowOpImm .sra
  | .lui _ _ => ⟨⟨true, 0b00, true, false, false, 0b100⟩, noBranch, 0b00, .lui⟩
  | .auipc _ _ => ⟨⟨true, 0b11, true, false, false, 0b000⟩, noBranch, 0b00, .add⟩
  | .lb _ _ _ | .lh _ _ _ | .lw _ _ _ | .lbu _ _ _ | .lhu _ _ _ => rowLoad
  | .sb _ _ _ | .sh _ _ _ | .sw _ _ _ => rowStore
  | .beq _ _ _ => rowBranch takeOnZero .sub
  | .bne _ _ _ => rowBranch takeOnNotZero .sub
  | .blt _ _ _ => rowBranch takeOnNotZero .slt
  | .bge _ _ _ => rowBranch takeOnZero .slt
  | .bltu _ _ _ => rowBranch takeOnNotZero .sltu
  | .bgeu _ _ _ => rowBranch takeOnZero .sltu
  | .jal _ _ => ⟨⟨false, 0b10, true, false, false, 0b000⟩, ⟨false, false, true, false⟩, 0b00, .add⟩
  | .jalr _ _ _ => ⟨⟨true, 0b10, true, false, false, 0b000⟩, ⟨false, false, true, true⟩, 0b00, .add⟩
  | .ecall _ _ => rowSystem 0b01
  | .ebreak _ _ => rowSystem 0b10

/-- CONTROL_MEM in closed form: memSize = funct3[1:0], memSigned = NOT funct3[2] (R135). -/
def memControlOf (funct3 : BitVec 3) : MemControl := ⟨funct3.extractLsb' 0 2, !funct3.getLsbD 2⟩

/-- JumpControl (R144). -/
def jumpControl (c : BranchControl) (zero : Bool) : Bool :=
  c.jump || (c.branchZero && zero) || (c.branchNotZero && !zero)

/-- The write-back source in closed form (R146). -/
def writeBackValue (writeSrc : BitVec 2) (result memData link auipc : Word) : Word :=
  if writeSrc = 0b00 then result
  else if writeSrc = 0b01 then memData
  else if writeSrc = 0b10 then link
  else auipc

/-- Every signal of the tick that executes `i` from `s` (R130), given the DataMemory's output. -/
def signalsOf (i : Instr) (memData : Word) (s : State) : Signals :=
  let row := controlRow i
  let inst := encode i
  let fields := splitFields inst
  let imm := immediateOf i
  let readData1 := s.reg fields.rs1
  let readData2 := s.reg fields.rs2
  let aluIn2 := if row.main.aluSrc then imm else readData2
  let result := aluResult row.op readData1 aluIn2
  let zero := zeroOf result
  let link := pcPlus4 s.pc
  let branchIn1 := if row.branch.jalr then readData1 else s.pc
  let branchTarget := branchAdder branchIn1 imm
  let auipcValue := auipcAdder s.pc imm
  let takeBranch := jumpControl row.branch zero
  { pcCur := s.pc
    inst := inst
    fields := fields
    control := ⟨row.main, row.branch, memControlOf fields.funct3, row.ecall⟩
    aluControl := aluCode row.op
    imm := imm
    readData1 := readData1
    readData2 := readData2
    aluIn2 := aluIn2
    result := result
    zero := zero
    memData := memData
    pcPlus4 := link
    branchIn1 := branchIn1
    branchTarget := branchTarget
    auipcValue := auipcValue
    takeBranch := takeBranch
    nextPC := if takeBranch then branchTarget else link
    writeData := writeBackValue row.main.writeSrc result memData link auipcValue }

/-- The DataMemory's output in a tick with `memRead` and `memWrite` both 0 (20_memory.md R55). -/
def idleMemData : Word := 0#32

/-- The end of the tick of `i` (R130 step 11): `after` is the state `before` with the register or memory write of `i` made;
the signals are those computed from `before`. -/
def complete (i : Instr) (memData : Word) (before after : State) (nextPC : Word) : StepOutcome :=
  .next (after.retire nextPC (signalsOf i memData before))

end Sys2Proof.Machine
end

