-- ==== Sys2Proof/Machine/AluImmediate.lean ====
section
/-! DEFINITION. The nine OP-IMM instructions (42_alu_immediate.md). -/

namespace Sys2Proof.Machine

/-- R185: read x[rs1] and the I immediate, write the ALU result to x[rd], dropped for x0; pc + 4. -/
def aluImmediate (op : AluOp) (i : Instr) (rd rs1 : RegIdx) (imm : Word) (s : State) : StepOutcome :=
  complete i idleMemData s (s.setReg rd (aluResult op (s.reg rs1) imm)) (pcPlus4 s.pc)

/-- R186: `x[rd] <- x[rs1] +32 immI`. -/
def execAddi (rd rs1 : RegIdx) (imm : BitVec 12) (s : State) : StepOutcome :=
  aluImmediate .add (.addi rd rs1 imm) rd rs1 (imm12 imm) s

/-- R187: `x[rd] <- (s(x[rs1]) < s(immI)) ? 1 : 0`. -/
def execSlti (rd rs1 : RegIdx) (imm : BitVec 12) (s : State) : StepOutcome :=
  aluImmediate .slt (.slti rd rs1 imm) rd rs1 (imm12 imm) s

/-- R188: `x[rd] <- (u(x[rs1]) < u(immI)) ? 1 : 0`. The immediate is sign-extended first, then compared unsigned. -/
def execSltiu (rd rs1 : RegIdx) (imm : BitVec 12) (s : State) : StepOutcome :=
  aluImmediate .sltu (.sltiu rd rs1 imm) rd rs1 (imm12 imm) s

/-- R189: `x[rd] <- x[rs1] XOR immI`. -/
def execXori (rd rs1 : RegIdx) (imm : BitVec 12) (s : State) : StepOutcome :=
  aluImmediate .xor (.xori rd rs1 imm) rd rs1 (imm12 imm) s

/-- R190: `x[rd] <- x[rs1] OR immI`. -/
def execOri (rd rs1 : RegIdx) (imm : BitVec 12) (s : State) : StepOutcome :=
  aluImmediate .or (.ori rd rs1 imm) rd rs1 (imm12 imm) s

/-- R191: `x[rd] <- x[rs1] AND immI`. -/
def execAndi (rd rs1 : RegIdx) (imm : BitVec 12) (s : State) : StepOutcome :=
  aluImmediate .and (.andi rd rs1 imm) rd rs1 (imm12 imm) s

/-- R192: x[rs1] shifted left, by immI[4:0] = shamt. -/
def execSlli (rd rs1 : RegIdx) (shamt : BitVec 5) (s : State) : StepOutcome :=
  aluImmediate .sll (.slli rd rs1 shamt) rd rs1 (immShift 0b0000000 shamt) s

/-- R193: x[rs1] shifted right, zeros entering, by immI[4:0] = shamt. -/
def execSrli (rd rs1 : RegIdx) (shamt : BitVec 5) (s : State) : StepOutcome :=
  aluImmediate .srl (.srli rd rs1 shamt) rd rs1 (immShift 0b0000000 shamt) s

/-- R194: x[rs1] shifted right, copies of bit 31 entering, by immI[4:0] = shamt. -/
def execSrai (rd rs1 : RegIdx) (shamt : BitVec 5) (s : State) : StepOutcome :=
  aluImmediate .sra (.srai rd rs1 shamt) rd rs1 (immShift 0b0100000 shamt) s

end Sys2Proof.Machine
end

