-- ==== Sys2Proof/Machine/AluRegister.lean ====
section
/-! DEFINITION. The ten OP instructions (41_alu_register.md). -/

namespace Sys2Proof.Machine

/-- R170: read x[rs1] and x[rs2] before anything is written, write the ALU result to x[rd], dropped for x0; pc + 4. -/
def aluRegister (op : AluOp) (i : Instr) (rd rs1 rs2 : RegIdx) (s : State) : StepOutcome :=
  complete i idleMemData s (s.setReg rd (aluResult op (s.reg rs1) (s.reg rs2))) (pcPlus4 s.pc)

/-- R171: `x[rd] <- x[rs1] +32 x[rs2]`. -/
def execAdd (rd rs1 rs2 : RegIdx) (s : State) : StepOutcome :=
  aluRegister .add (.add rd rs1 rs2) rd rs1 rs2 s

/-- R172: `x[rd] <- x[rs1] -32 x[rs2]`. -/
def execSub (rd rs1 rs2 : RegIdx) (s : State) : StepOutcome :=
  aluRegister .sub (.sub rd rs1 rs2) rd rs1 rs2 s

/-- R173: `x[rd] <- x[rs1] shifted left by u(x[rs2][4:0])`. -/
def execSll (rd rs1 rs2 : RegIdx) (s : State) : StepOutcome :=
  aluRegister .sll (.sll rd rs1 rs2) rd rs1 rs2 s

/-- R174: `x[rd] <- (s(x[rs1]) < s(x[rs2])) ? 1 : 0`. -/
def execSlt (rd rs1 rs2 : RegIdx) (s : State) : StepOutcome :=
  aluRegister .slt (.slt rd rs1 rs2) rd rs1 rs2 s

/-- R175: `x[rd] <- (u(x[rs1]) < u(x[rs2])) ? 1 : 0`. -/
def execSltu (rd rs1 rs2 : RegIdx) (s : State) : StepOutcome :=
  aluRegister .sltu (.sltu rd rs1 rs2) rd rs1 rs2 s

/-- R176: `x[rd] <- x[rs1] XOR x[rs2]`. -/
def execXor (rd rs1 rs2 : RegIdx) (s : State) : StepOutcome :=
  aluRegister .xor (.xor rd rs1 rs2) rd rs1 rs2 s

/-- R177: `x[rd] <- x[rs1] shifted right by u(x[rs2][4:0]), zeros entering`. -/
def execSrl (rd rs1 rs2 : RegIdx) (s : State) : StepOutcome :=
  aluRegister .srl (.srl rd rs1 rs2) rd rs1 rs2 s

/-- R178: `x[rd] <- x[rs1] shifted right by u(x[rs2][4:0]), copies of bit 31 entering`. -/
def execSra (rd rs1 rs2 : RegIdx) (s : State) : StepOutcome :=
  aluRegister .sra (.sra rd rs1 rs2) rd rs1 rs2 s

/-- R179: `x[rd] <- x[rs1] OR x[rs2]`. -/
def execOr (rd rs1 rs2 : RegIdx) (s : State) : StepOutcome :=
  aluRegister .or (.or rd rs1 rs2) rd rs1 rs2 s

/-- R180: `x[rd] <- x[rs1] AND x[rs2]`. -/
def execAnd (rd rs1 rs2 : RegIdx) (s : State) : StepOutcome :=
  aluRegister .and (.and rd rs1 rs2) rd rs1 rs2 s

end Sys2Proof.Machine
end

