-- ==== Sys2Proof/Machine/Branch.lean ====
section
/-! DEFINITION. The six conditional branches (45_branches.md). -/

namespace Sys2Proof.Machine

/-- R220: taken, the pc becomes `(pc +32 immSB) AND 0xFFFFFFFE`, otherwise pc + 4; no register is written. -/
def branchIf (taken : Bool) (i : Instr) (offset : BitVec 13) (s : State) : StepOutcome :=
  complete i idleMemData s s (if taken then branchAdder s.pc (immBranch offset) else pcPlus4 s.pc)

/-- R221: taken if `x[rs1] == x[rs2]`. -/
def execBeq (rs1 rs2 : RegIdx) (offset : BitVec 13) (s : State) : StepOutcome :=
  branchIf (decide (s.reg rs1 = s.reg rs2)) (.beq rs1 rs2 offset) offset s

/-- R222: taken if `x[rs1] != x[rs2]`. -/
def execBne (rs1 rs2 : RegIdx) (offset : BitVec 13) (s : State) : StepOutcome :=
  branchIf (decide (s.reg rs1 ≠ s.reg rs2)) (.bne rs1 rs2 offset) offset s

/-- R223: taken if `s(x[rs1]) < s(x[rs2])`. -/
def execBlt (rs1 rs2 : RegIdx) (offset : BitVec 13) (s : State) : StepOutcome :=
  branchIf (lessSigned (s.reg rs1) (s.reg rs2)) (.blt rs1 rs2 offset) offset s

/-- R224: taken if `s(x[rs1]) >= s(x[rs2])`. -/
def execBge (rs1 rs2 : RegIdx) (offset : BitVec 13) (s : State) : StepOutcome :=
  branchIf (!lessSigned (s.reg rs1) (s.reg rs2)) (.bge rs1 rs2 offset) offset s

/-- R225: taken if `u(x[rs1]) < u(x[rs2])`. -/
def execBltu (rs1 rs2 : RegIdx) (offset : BitVec 13) (s : State) : StepOutcome :=
  branchIf (lessUnsigned (s.reg rs1) (s.reg rs2)) (.bltu rs1 rs2 offset) offset s

/-- R226: taken if `u(x[rs1]) >= u(x[rs2])`. -/
def execBgeu (rs1 rs2 : RegIdx) (offset : BitVec 13) (s : State) : StepOutcome :=
  branchIf (!lessUnsigned (s.reg rs1) (s.reg rs2)) (.bgeu rs1 rs2 offset) offset s

end Sys2Proof.Machine
end

