-- ==== Sys2Proof/Machine/Jump.lean ====
section
/-! DEFINITION. JAL and JALR (46_jumps.md). -/

namespace Sys2Proof.Machine

/-- R235: x[rd] takes the link `pc +32 4`, dropped for x0, and the pc the target, computed from the registers before the
write. -/
def jumpTo (i : Instr) (rd : RegIdx) (target : Word) (s : State) : StepOutcome :=
  complete i idleMemData s (s.setReg rd (pcPlus4 s.pc)) target

/-- R236: the target is `(pc +32 immUJ) AND 0xFFFFFFFE`. -/
def execJal (rd : RegIdx) (offset : BitVec 21) (s : State) : StepOutcome :=
  jumpTo (.jal rd offset) rd (branchAdder s.pc (immJump offset)) s

/-- R237: the target is `(x[rs1] +32 immI) AND 0xFFFFFFFE`, with the old x[rs1] where rd = rs1. -/
def execJalr (rd rs1 : RegIdx) (imm : BitVec 12) (s : State) : StepOutcome :=
  jumpTo (.jalr rd rs1 imm) rd (branchAdder (s.reg rs1) (imm12 imm)) s

end Sys2Proof.Machine
end

