-- ==== Sys2Proof/Machine/LoadStore.lean ====
section
/-! DEFINITION. The five loads and the three stores (44_loads_stores.md). -/

namespace Sys2Proof.Machine

/-- A loaded value extended to 32 bits: with the sign for `signed`, with zeros otherwise (20_memory.md R55). -/
def extendLoaded (signed : Bool) {w : Nat} (v : BitVec w) : Word :=
  if signed then v.signExtend 32 else v.zeroExtend 32

/-- R206: read n bytes at EA, also for rd = x0; write the extended value to x[rd]; pc + 4. Out of range is fatal. -/
def loadTo (i : Instr) (n : Nat) (signed : Bool) (rd rs1 : RegIdx) (imm : BitVec 12) (s : State) : StepOutcome :=
  match s.memRead (effectiveAddress s rs1 imm) n with
  | .error f => .fault (.fatal f)
  | .ok v => complete i (extendLoaded signed v) s (s.setReg rd (extendLoaded signed v)) (pcPlus4 s.pc)

/-- R212: write the low 8n bits of x[rs2] at EA; no register is written; pc + 4. Out of range is fatal and writes no byte. The
DataMemory's unassigned output `readData` is the free value `Config.storeReadData` (log entry 5); `size` is the width's
code, and memSigned is 1 for all three stores (40_datapath.md R135). -/
def storeFrom (i : Instr) (n : Nat) (size : BitVec 2) (rs2 rs1 : RegIdx) (imm : BitVec 12) (s : State) : StepOutcome :=
  let address := effectiveAddress s rs1 imm
  match s.memWrite address n ((s.reg rs2).setWidth (8 * n)) with
  | .error f => .fault (.fatal f)
  | .ok m =>
    complete i (Config.storeReadData s.dmem address (s.reg rs2) size true) s { s with dmem := m } (pcPlus4 s.pc)

/-- R207: `x[rd] <- sext_32(MemRead(EA, 1))`. -/
def execLb (rd rs1 : RegIdx) (imm : BitVec 12) (s : State) : StepOutcome :=
  loadTo (.lb rd rs1 imm) 1 true rd rs1 imm s

/-- R208: `x[rd] <- sext_32(MemRead(EA, 2))`. -/
def execLh (rd rs1 : RegIdx) (imm : BitVec 12) (s : State) : StepOutcome :=
  loadTo (.lh rd rs1 imm) 2 true rd rs1 imm s

/-- R209: `x[rd] <- MemRead(EA, 4)`. -/
def execLw (rd rs1 : RegIdx) (imm : BitVec 12) (s : State) : StepOutcome :=
  loadTo (.lw rd rs1 imm) 4 true rd rs1 imm s

/-- R210: `x[rd] <- zext_32(MemRead(EA, 1))`. -/
def execLbu (rd rs1 : RegIdx) (imm : BitVec 12) (s : State) : StepOutcome :=
  loadTo (.lbu rd rs1 imm) 1 false rd rs1 imm s

/-- R211: `x[rd] <- zext_32(MemRead(EA, 2))`. -/
def execLhu (rd rs1 : RegIdx) (imm : BitVec 12) (s : State) : StepOutcome :=
  loadTo (.lhu rd rs1 imm) 2 false rd rs1 imm s

/-- R213: `MemWrite(EA, 1, x[rs2][7:0])`. -/
def execSb (rs2 rs1 : RegIdx) (imm : BitVec 12) (s : State) : StepOutcome :=
  storeFrom (.sb rs2 rs1 imm) 1 0b00 rs2 rs1 imm s

/-- R214: `MemWrite(EA, 2, x[rs2][15:0])`. -/
def execSh (rs2 rs1 : RegIdx) (imm : BitVec 12) (s : State) : StepOutcome :=
  storeFrom (.sh rs2 rs1 imm) 2 0b01 rs2 rs1 imm s

/-- R215: `MemWrite(EA, 4, x[rs2])`. -/
def execSw (rs2 rs1 : RegIdx) (imm : BitVec 12) (s : State) : StepOutcome :=
  storeFrom (.sw rs2 rs1 imm) 4 0b10 rs2 rs1 imm s

end Sys2Proof.Machine
end

