-- ==== Sys2Proof/Machine/System.lean ====
section
/-! DEFINITION. ECALL and EBREAK (47_system.md). -/

namespace Sys2Proof.Machine

/-- R245: no register and no memory is written; pc + 4. The instruction's only effect in the datapath is the `ecall` signal of
its control row (`controlRow`: 01 for ECALL, 10 for EBREAK), which stays readable as `sig`. -/
def signalHost (i : Instr) (s : State) : StepOutcome :=
  complete i idleMemData s s (pcPlus4 s.pc)

/-- R246: `sig.ecall <- 0b01; pc <- pc +32 4`, whatever the rd and rs1 fields hold (30_encoding.md R94). -/
def execEcall (rd rs1 : RegIdx) (s : State) : StepOutcome :=
  signalHost (.ecall rd rs1) s

/-- R247: `sig.ecall <- 0b10; pc <- pc +32 4`, whatever the rd and rs1 fields hold (30_encoding.md R94). -/
def execEbreak (rd rs1 : RegIdx) (s : State) : StepOutcome :=
  signalHost (.ebreak rd rs1) s

end Sys2Proof.Machine
end

