-- ==== Sys2Proof/Machine/UpperImmediate.lean ====
section
/-! DEFINITION. LUI and AUIPC (43_upper_immediate.md). -/

namespace Sys2Proof.Machine

/-- R201: `x[rd] <- immU`; pc + 4. -/
def execLui (rd : RegIdx) (imm : BitVec 20) (s : State) : StepOutcome :=
  complete (.lui rd imm) idleMemData s (s.setReg rd (immUpper imm)) (pcPlus4 s.pc)

/-- R202: `x[rd] <- pc +32 immU` with the pc of this instruction; pc + 4. -/
def execAuipc (rd : RegIdx) (imm : BitVec 20) (s : State) : StepOutcome :=
  complete (.auipc rd imm) idleMemData s (s.setReg rd (auipcAdder s.pc (immUpper imm))) (pcPlus4 s.pc)

end Sys2Proof.Machine
end

