-- ==== Sys2Proof/Machine/Step.lean ====
section
/-! DEFINITION. One tick of the core (40_datapath.md R130, 70_reset_and_hazards.md R304): fetch, decode, execute. -/

namespace Sys2Proof.Machine

/-- A faulted core takes no step (10_state.md R37). Otherwise the word at the PC is fetched (20_memory.md R54), decoded
(30_encoding.md R92) and executed; a fetch out of range and a word no table row admits are fatal (60_exceptions.md R262,
R264). The status is read for nothing else: a tick while `isDone()` holds is allowed (R304, D25). -/
def step (s : State) : Host.Outcome State Fault Refusal :=
  match s.status with
  | .faulted f => .fault (.faultedCore f)
  | _ =>
    match s.fetch with
    | .error f => .fault (.fatal f)
    | .ok inst =>
      match decode inst with
      | .error table => .fault (.fatal (.decodeNoMatch table s.pc inst))
      | .ok i => exec i s

/-- The state with an instruction placed where `step` fetches next: its low `nbits` bits are those of `w`, every bit above is
0, as four little-endian bytes of the instruction memory from the PC (20_memory.md R58; log entry 7). -/
def State.withFetchWord (s : State) (nbits w : Nat) : State :=
  { s with imem := s.imem.writeNat s.pc.toNat 4 (w % 2 ^ nbits) }

end Sys2Proof.Machine
end

