-- ==== Sys2Proof/Machine/Assembler.lean ====
section
/-! DEFINITION. The assembler: from source text to the code words of a launch (30_encoding.md section 5, R97 to R106; the ABI
register names of 10_state.md R24). It is toolchain, in scope by 00_scope.md R4. Text is a list of characters. -/

namespace Sys2Proof.Machine

/-! ## Errors (R106) -/

/-- The categories of R106 and of 92_eei_decisions.md D26; each is fatal for the whole program. -/
inductive AsmErrorKind where
  /-- A character or a token where none of its kind may stand. -/
  | syntaxError
  /-- A line that ends where an operand or a closing parenthesis is due. -/
  | unexpectedEnd
  /-- "should be unreachable" (R106): raised by nothing here. -/
  | ambiguousGrammar
  /-- "unknown instruction or incorrect args" (R100). -/
  | unmatchedShape
  /-- R98. -/
  | unknownRegister
  /-- R101. -/
  | unknownLabel
  /-- R101, D26(e). -/
  | duplicateLabel
  /-- An immediate that does not fit its field, with the field's width in bits (R103). -/
  | outOfRange (bits : Nat)
  /-- An odd SB or UJ displacement (R103). -/
  | oddDisplacement
  deriving DecidableEq, Repr

/-- An error with the 1-indexed line it stands on (R106). -/
structure AsmError where
  kind : AsmErrorKind
  line : Nat
  deriving DecidableEq, Repr

/-! ## Tokens of one line (R97, R99) -/

inductive Token where
  | ident (name : List Char)
  | number (value : Int)
  | comma
  | colon
  | lparen
  | rparen
  deriving DecidableEq, Repr

def isBlank (c : Char) : Bool := c == ' ' || c == '\t' || c == '\r'

def isDecimalDigit (c : Char) : Bool := decide (48 ≤ c.toNat ∧ c.toNat ≤ 57)

def isUpperLetter (c : Char) : Bool := decide (65 ≤ c.toNat ∧ c.toNat ≤ 90)

def isLetter (c : Char) : Bool := isUpperLetter c || decide (97 ≤ c.toNat ∧ c.toNat ≤ 122)

/-- What a label, mnemonic or register name may hold after its first character, which is no digit (log entry 15). -/
def isNameChar (c : Char) : Bool := isLetter c || isDecimalDigit c || c == '_' || c == '.'

/-- "case-insensitive mnemonics/registers" (R97). -/
def lowerCase (c : Char) : Char := if isUpperLetter c then Char.ofNat (c.toNat + 32) else c

/-- The value of a digit in a base up to 16. -/
def digitValue (base : Nat) (c : Char) : Option Nat :=
  let n := c.toNat
  let v :=
    if 48 ≤ n ∧ n ≤ 57 then n - 48
    else if 97 ≤ n ∧ n ≤ 102 then n - 87
    else if 65 ≤ n ∧ n ≤ 70 then n - 55
    else base
  if v < base then some v else none

/-- The digits left to read, after those whose value is `acc`. -/
def digitsValue (base : Nat) : List Char → Nat → Option Nat
  | [], acc => some acc
  | c :: cs, acc =>
    match digitValue base c with
    | some v => digitsValue base cs (acc * base + v)
    | none => none

/-- One or more digits. -/
def naturalOf (base : Nat) (cs : List Char) : Option Nat :=
  match cs with
  | [] => none
  | _ => digitsValue base cs 0

/-- A numeric literal: `0x`/`0X` hexadecimal, `0b`/`0B` binary, or decimal, which alone may have a sign (R99, D26(c)). -/
def numberOf (cs : List Char) : Option Int :=
  match cs with
  | '0' :: 'x' :: ds => (naturalOf 16 ds).map Int.ofNat
  | '0' :: 'X' :: ds => (naturalOf 16 ds).map Int.ofNat
  | '0' :: 'b' :: ds => (naturalOf 2 ds).map Int.ofNat
  | '0' :: 'B' :: ds => (naturalOf 2 ds).map Int.ofNat
  | '-' :: ds => (naturalOf 10 ds).map fun n => -Int.ofNat n
  | ds => (naturalOf 10 ds).map Int.ofNat

/-- A run of characters between blanks and punctuation, as a token. -/
def wordToken (cs : List Char) : Option Token :=
  match cs with
  | [] => none
  | c :: _ =>
    if c == '-' || isDecimalDigit c then (numberOf cs).map Token.number
    else if cs.all isNameChar then some (.ident cs)
    else none

/-- The punctuation of the syntax (R97). -/
def punctuation (c : Char) : Option Token :=
  if c == ',' then some .comma
  else if c == ':' then some .colon
  else if c == '(' then some .lparen
  else if c == ')' then some .rparen
  else none

/-- The tokens of a line, `word` being the run read so far, last character first; a comment runs from `#` to the end of the
line (R97, D26(a)). None where a run of characters is no token. -/
def tokenize : List Char → List Char → Option (List Token)
  | [], [] => some []
  | [], word => (wordToken word.reverse).map fun t => [t]
  | c :: cs, word =>
    let rest : Option (List Token) :=
      if c == '#' then some []
      else if isBlank c then tokenize cs []
      else match punctuation c with
        | some p => (tokenize cs []).map fun ts => p :: ts
        | none => tokenize cs (c :: word)
    if c == '#' || isBlank c || (punctuation c).isSome then
      match word with
      | [] => rest
      | _ =>
        match wordToken word.reverse with
        | some t => rest.map fun ts => t :: ts
        | none => none
    else rest

/-! ## Statements (R97, R100) -/

/-- An operand: a name, a number, or the displacement form `imm(rs1)`. -/
inductive Operand where
  | name (cs : List Char)
  | number (value : Int)
  | displaced (value : Int) (base : List Char)
  deriving DecidableEq, Repr

/-- Operands separated by commas; with `due` an operand must come next, without it a comma or the end. -/
def parseOperands : Bool → List Token → Except AsmErrorKind (List Operand)
  | true, [] => .error .unexpectedEnd
  | false, [] => .ok []
  | false, .comma :: rest => parseOperands true rest
  | false, _ :: _ => .error .syntaxError
  | true, .number n :: .lparen :: .ident r :: .rparen :: rest =>
    match parseOperands false rest with
    | .ok ops => .ok (.displaced n r :: ops)
    | .error e => .error e
  | true, .number _ :: .lparen :: [] => .error .unexpectedEnd
  | true, .number _ :: .lparen :: .ident _ :: [] => .error .unexpectedEnd
  | true, .number _ :: .lparen :: _ => .error .syntaxError
  | true, .number n :: rest =>
    match parseOperands false rest with
    | .ok ops => .ok (.number n :: ops)
    | .error e => .error e
  | true, .ident r :: rest =>
    match parseOperands false rest with
    | .ok ops => .ok (.name r :: ops)
    | .error e => .error e
  | true, _ :: _ => .error .syntaxError

/-- An instruction line: its source line, its mnemonic in lower case, its operands. -/
structure AsmLine where
  line : Nat
  mnemonic : List Char
  operands : List Operand
  deriving DecidableEq, Repr

/-- The instruction of a line's tokens after its label, if there is one. -/
def parseInstruction (line : Nat) : List Token → Except AsmErrorKind (Option AsmLine)
  | [] => .ok none
  | .ident m :: [] => .ok (some ⟨line, m.map lowerCase, []⟩)
  | .ident m :: rest =>
    match parseOperands true rest with
    | .ok ops => .ok (some ⟨line, m.map lowerCase, ops⟩)
    | .error e => .error e
  | _ => .error .syntaxError

/-- A line: a label declaration, an instruction, both, or neither (R97, D26(b)). -/
def parseLine (line : Nat) (cs : List Char) : Except AsmErrorKind (Option (List Char) × Option AsmLine) :=
  match tokenize cs [] with
  | none => .error .syntaxError
  | some (.ident l :: .colon :: rest) =>
    match parseInstruction line rest with
    | .ok i => .ok (some l, i)
    | .error e => .error e
  | some tokens =>
    match parseInstruction line tokens with
    | .ok i => .ok (none, i)
    | .error e => .error e

/-- The lines of a text; `current` is the line read so far, last character first. -/
def splitLines : List Char → List Char → List (List Char)
  | [], current => [current.reverse]
  | c :: cs, current => if c == '\n' then current.reverse :: splitLines cs [] else splitLines cs (c :: current)

/-! ## Pass 1: labels and pseudo-instructions (R101, R105) -/

/-- The pseudo-instructions lowered to the real ones: `j`, one-argument `jal`, `mv`, `li` (R105, D26(i)). -/
def lowerPseudo (s : AsmLine) : AsmLine :=
  match String.ofList s.mnemonic, s.operands with
  | "j", [t] => ⟨s.line, "jal".toList, [.name "zero".toList, t]⟩
  | "jal", [.name l] => ⟨s.line, "jal".toList, [.name "ra".toList, .name l]⟩
  | "mv", [.name rd, .name rs] => ⟨s.line, "addi".toList, [.name rd, .name rs, .number 0]⟩
  | "li", [.name rd, .number n] => ⟨s.line, "addi".toList, [.name rd, .name "zero".toList, .number n]⟩
  | _, _ => s

/-- A label and the index of the next instruction (R101). -/
abbrev Labels := List (List Char × Nat)

def labelIndex (labels : Labels) (name : List Char) : Option Nat :=
  match labels with
  | [] => none
  | (l, n) :: rest => if l = name then some n else labelIndex rest name

/-- Pass 1 over the lines from number `line` on, `count` instructions being before them. A line that is malformed and also declares
a label again is the syntax category (DESIGN CHOICE, log entry 16). -/
def passOne : List (List Char) → Nat → Nat → Labels → Except AsmError (List AsmLine × Labels)
  | [], _, _, labels => .ok ([], labels)
  | cs :: rest, line, count, labels =>
    match parseLine line cs with
    | .error e => .error ⟨e, line⟩
    | .ok (label, stmt) =>
      let declared : Except AsmError Labels :=
        match label with
        | none => .ok labels
        | some l => if (labelIndex labels l).isSome then .error ⟨.duplicateLabel, line⟩ else .ok ((l, count) :: labels)
      match declared with
      | .error e => .error e
      | .ok labels' =>
        match stmt with
        | none => passOne rest (line + 1) count labels'
        | some s =>
          match passOne rest (line + 1) (count + 1) labels' with
          | .error e => .error e
          | .ok (stmts, final) => .ok (lowerPseudo s :: stmts, final)

/-! ## Operand values (R98, R101 to R103) -/

/-- The ABI names beside `x0` to `x31` (10_state.md R24); `fp` is not one of them (D26(j)). -/
def abiNames : List (String × RegIdx) :=
  [("zero", 0), ("ra", 1), ("sp", 2), ("gp", 3), ("tp", 4), ("t0", 5), ("t1", 6), ("t2", 7), ("s0", 8), ("s1", 9)]
  ++ [("a0", 10), ("a1", 11), ("a2", 12), ("a3", 13), ("a4", 14), ("a5", 15), ("a6", 16), ("a7", 17)]
  ++ [("s2", 18), ("s3", 19), ("s4", 20), ("s5", 21), ("s6", 22), ("s7", 23), ("s8", 24), ("s9", 25), ("s10", 26)]
  ++ [("s11", 27), ("t3", 28), ("t4", 29), ("t5", 30), ("t6", 31)]

def findName (name : String) : List (String × RegIdx) → Option RegIdx
  | [] => none
  | (n, r) :: rest => if n = name then some r else findName name rest

/-- A register name's number: `x` and a decimal number up to 31 with no leading zero, or an ABI name (R98). -/
def registerNumber (cs : List Char) : Except AsmErrorKind RegIdx :=
  let lower := cs.map lowerCase
  let numbered : Option RegIdx :=
    match lower with
    | ['x', d] => (digitValue 10 d).map fun n => BitVec.ofNat 5 n
    | ['x', d, e] =>
      match digitValue 10 d, digitValue 10 e with
      | some m, some n => if 1 ≤ m ∧ 10 * m + n ≤ 31 then some (BitVec.ofNat 5 (10 * m + n)) else none
      | _, _ => none
    | _ => none
  match numbered with
  | some r => .ok r
  | none =>
    match findName (String.ofList lower) abiNames with
    | some r => .ok r
    | none => .error .unknownRegister

/-- A signed immediate of `bits` bits (R103). -/
def signedField (bits : Nat) (n : Int) : Except AsmErrorKind (BitVec bits) :=
  if -(2 ^ (bits - 1) : Nat) ≤ n ∧ n < (2 ^ (bits - 1) : Nat) then .ok (BitVec.ofInt bits n) else .error (.outOfRange bits)

/-- An unsigned immediate of `bits` bits (R103). -/
def unsignedField (bits : Nat) (n : Int) : Except AsmErrorKind (BitVec bits) :=
  if 0 ≤ n ∧ n < (2 ^ bits : Nat) then .ok (BitVec.ofInt bits n) else .error (.outOfRange bits)

/-- A displacement of `bits` bits, even (R103). One that is both out of range and odd is `outOfRange` (DESIGN CHOICE, log entry
16). -/
def displacementField (bits : Nat) (n : Int) : Except AsmErrorKind (BitVec bits) :=
  match signedField bits n with
  | .error e => .error e
  | .ok v => if n % 2 = 0 then .ok v else .error .oddDisplacement

/-- A branch or jump target at instruction index `index`: a label is the byte displacement `(L - c) * 4` (R101), a number is the
displacement itself (R102). -/
def targetField (bits : Nat) (labels : Labels) (index : Nat) (t : Operand) : Except AsmErrorKind (BitVec bits) :=
  match t with
  | .number n => displacementField bits n
  | .name l =>
    match labelIndex labels l with
    | some target => displacementField bits (((target : Int) - index) * 4)
    | none => .error .unknownLabel
  | .displaced _ _ => .error .unmatchedShape

/-! ## Pass 2: the shapes of R100

Each looks at the shape first, then at the registers from left to right, then at the immediate or label (DESIGN CHOICE, log entry
16: R106 does not order the errors of one line). -/

/-- `rd, rs1, rs2`. -/
def shapeR (make : RegIdx → RegIdx → RegIdx → Instr) : List Operand → Except AsmErrorKind Instr
  | [.name a, .name b, .name c] => do return make (← registerNumber a) (← registerNumber b) (← registerNumber c)
  | _ => .error .unmatchedShape

/-- `rd, rs1, imm`. -/
def shapeI (make : RegIdx → RegIdx → BitVec 12 → Instr) : List Operand → Except AsmErrorKind Instr
  | [.name a, .name b, .number n] => do return make (← registerNumber a) (← registerNumber b) (← signedField 12 n)
  | _ => .error .unmatchedShape

/-- `rd, rs1, shamt`. -/
def shapeIS (make : RegIdx → RegIdx → BitVec 5 → Instr) : List Operand → Except AsmErrorKind Instr
  | [.name a, .name b, .number n] => do return make (← registerNumber a) (← registerNumber b) (← unsignedField 5 n)
  | _ => .error .unmatchedShape

/-- `rd, imm(rs1)`, and for a store `rs2, imm(rs1)`. -/
def shapeDisplaced (make : RegIdx → RegIdx → BitVec 12 → Instr) : List Operand → Except AsmErrorKind Instr
  | [.name a, .displaced n b] => do return make (← registerNumber a) (← registerNumber b) (← signedField 12 n)
  | _ => .error .unmatchedShape

/-- `rs1, rs2, label` or `rs1, rs2, imm`. The shape comes before the registers' names (DESIGN CHOICE, log entry 16). -/
def shapeSB (make : RegIdx → RegIdx → BitVec 13 → Instr) (labels : Labels) (index : Nat) :
    List Operand → Except AsmErrorKind Instr
  | [.name a, .name b, .number n] => do
    return make (← registerNumber a) (← registerNumber b) (← targetField 13 labels index (.number n))
  | [.name a, .name b, .name l] => do
    return make (← registerNumber a) (← registerNumber b) (← targetField 13 labels index (.name l))
  | _ => .error .unmatchedShape

/-- `rd, imm`. -/
def shapeU (make : RegIdx → BitVec 20 → Instr) : List Operand → Except AsmErrorKind Instr
  | [.name a, .number n] => do return make (← registerNumber a) (← unsignedField 20 n)
  | _ => .error .unmatchedShape

/-- `rd, label` or `rd, imm`. -/
def shapeUJ (labels : Labels) (index : Nat) : List Operand → Except AsmErrorKind Instr
  | [.name a, .number n] => do return .jal (← registerNumber a) (← displacementField 21 n)
  | [.name a, .name l] => do return .jal (← registerNumber a) (← targetField 21 labels index (.name l))
  | _ => .error .unmatchedShape

/-- `rd, imm(rs1)` or `rd, rs1, imm`. -/
def shapeJalr : List Operand → Except AsmErrorKind Instr
  | [.name a, .displaced n b] => shapeDisplaced .jalr [.name a, .displaced n b]
  | ops => shapeI .jalr ops

/-- No operands; rd and rs1 are 0 (R104). -/
def shapeNone (i : Instr) : List Operand → Except AsmErrorKind Instr
  | [] => .ok i
  | _ => .error .unmatchedShape

/-- The instruction of a lowered statement at an instruction index (R100). -/
def statementInstr (labels : Labels) (index : Nat) (s : AsmLine) : Except AsmErrorKind Instr :=
  match String.ofList s.mnemonic with
  | "add" => shapeR .add s.operands
  | "sub" => shapeR .sub s.operands
  | "sll" => shapeR .sll s.operands
  | "slt" => shapeR .slt s.operands
  | "sltu" => shapeR .sltu s.operands
  | "xor" => shapeR .xor s.operands
  | "srl" => shapeR .srl s.operands
  | "sra" => shapeR .sra s.operands
  | "or" => shapeR .or s.operands
  | "and" => shapeR .and s.operands
  | "addi" => shapeI .addi s.operands
  | "slti" => shapeI .slti s.operands
  | "sltiu" => shapeI .sltiu s.operands
  | "xori" => shapeI .xori s.operands
  | "ori" => shapeI .ori s.operands
  | "andi" => shapeI .andi s.operands
  | "slli" => shapeIS .slli s.operands
  | "srli" => shapeIS .srli s.operands
  | "srai" => shapeIS .srai s.operands
  | "lui" => shapeU .lui s.operands
  | "auipc" => shapeU .auipc s.operands
  | "lb" => shapeDisplaced .lb s.operands
  | "lh" => shapeDisplaced .lh s.operands
  | "lw" => shapeDisplaced .lw s.operands
  | "lbu" => shapeDisplaced .lbu s.operands
  | "lhu" => shapeDisplaced .lhu s.operands
  | "sb" => shapeDisplaced .sb s.operands
  | "sh" => shapeDisplaced .sh s.operands
  | "sw" => shapeDisplaced .sw s.operands
  | "beq" => shapeSB .beq labels index s.operands
  | "bne" => shapeSB .bne labels index s.operands
  | "blt" => shapeSB .blt labels index s.operands
  | "bge" => shapeSB .bge labels index s.operands
  | "bltu" => shapeSB .bltu labels index s.operands
  | "bgeu" => shapeSB .bgeu labels index s.operands
  | "jal" => shapeUJ labels index s.operands
  | "jalr" => shapeJalr s.operands
  | "ecall" => shapeNone (.ecall 0 0) s.operands
  | "ebreak" => shapeNone (.ebreak 0 0) s.operands
  | _ => .error .unmatchedShape

/-- Pass 2 from instruction index `index` on: each instruction with its source line. -/
def passTwo (labels : Labels) : List AsmLine → Nat → Except AsmError (List (Nat × Instr))
  | [], _ => .ok []
  | s :: rest, index =>
    match statementInstr labels index s with
    | .error e => .error ⟨e, s.line⟩
    | .ok i =>
      match passTwo labels rest (index + 1) with
      | .error e => .error e
      | .ok more => .ok ((s.line, i) :: more)

/-- The instructions of a text with their 1-indexed source lines, or the first error of pass 1, else of pass 2: "no
partial/degraded output" (R106). -/
def assembleInstrs (text : List Char) : Except AsmError (List (Nat × Instr)) :=
  match passOne (splitLines text []) 1 0 [] with
  | .error e => .error e
  | .ok (stmts, labels) => passTwo labels stmts 0

/-- The assembler's output: (1-indexed source line, machine word) in order (R104). -/
def assemble (text : List Char) : Except AsmError (List (Nat × Word)) :=
  match assembleInstrs text with
  | .error e => .error e
  | .ok is => .ok (is.map fun p => (p.1, encode p.2))

/-- The machine words alone, as `setCode` takes them (70_reset_and_hazards.md R301). -/
def codeWords (output : List (Nat × Word)) : List Nat := output.map fun p => p.2.toNat

end Sys2Proof.Machine
end

