-- ==== Sys2Proof/Machine/Datapath.lean ====
section
/-! DEFINITION. The tick as the spec writes it (40_datapath.md R130): the components, each a function of its declared inputs
(00_scope.md R12), wired in the fixed dataflow order, with every table looked up by its first matching row and every
component able to raise its own fatal condition. `step` answers through `decode` and the instructions' own meanings; that
the two agree is an obligation. -/

namespace Sys2Proof.Machine

/-! ## Components -/

/-- A table's output, or DecodeNoMatch with the table's name and inputs (R11, 60_exceptions.md R260). -/
def rowOrFatal {β : Type} (found : Option β) (name : NoMatch) (pc inst : Word) : Except Fatal β :=
  match found with
  | some out => .ok out
  | none => .error (.decodeNoMatch name pc inst)

/-- A Mux: `out = in[select]`; a select beyond the inputs is fatal, "never silently clamped" (R132). -/
def mux (name : MuxId) (inputs : List Word) (select : Nat) : Except Fatal Word :=
  match inputs[select]? with
  | some v => .ok v
  | none => .error (.muxSelect name select)

/-- A one-bit signal as a mux select. -/
def selectOf (b : Bool) : Nat := if b then 1 else 0

/-- The inputs of a memory wrapper besides its memory (20_memory.md R55). -/
structure MemoryPort where
  address : Word
  memRead : Bool
  memWrite : Bool
  writeData : Word
  size : BitVec 2
  signed : Bool
  deriving DecidableEq, Repr

/-- The width in bytes of a size code; 11 has none (R55). -/
def widthOfSize (size : BitVec 2) : Option Nat :=
  match size with
  | 0b00 => some 1
  | 0b01 => some 2
  | 0b10 => some 4
  | _ => none

/-- The DataMemory and InstructionMemory wrapper (R54, R55): its output `readData` and its memory's contents after the tick.
With `memWrite` the output is assigned nothing: `Config.storeReadData` (log entry 5). -/
def memoryWrapper (id : MemoryId) (pc : Word) (m : Memory) (p : MemoryPort) : Except Fatal (Word × Memory) :=
  if p.memRead && p.memWrite then .error (.memReadWrite p.address)
  else if !p.memRead && !p.memWrite then .ok (idleMemData, m)
  else
    match widthOfSize p.size with
    | none => .error (.memSizeInvalid p.size)
    | some n =>
      if p.memRead then
        match loadBytes id pc m p.address.toNat n with
        | .error f => .error f
        | .ok v => .ok (extendLoaded p.signed v, m)
      else
        match storeBytes id pc m p.address.toNat n (p.writeData.setWidth (8 * n)).toNat with
        | .error f => .error f
        | .ok m' => .ok (Config.storeReadData m p.address p.writeData p.size p.signed, m')

/-- The InstructionMemory as every tick drives it: a word read at the PC (R54, D30). -/
def instructionMemory (pc : Word) (imem : Memory) : Except Fatal Word :=
  match memoryWrapper .instruction pc imem ⟨pc, true, false, 0#32, 0b10#2, false⟩ with
  | .error f => .error f
  | .ok (inst, _) => .ok inst

/-- The ALU: the operation of the code, its result and the zero output (R138, R139, R141). -/
def alu (aluControl : BitVec 4) (in1 in2 pc inst : Word) : Except Fatal (Word × Bool) :=
  match rowOrFatal (tableMatch1 aluOpTable aluControl) (.aluOp aluControl) pc inst with
  | .error f => .error f
  | .ok op => .ok (aluResult op in1 in2, zeroOf (aluResult op in1 in2))

/-- The register file's write port (10_state.md R22). -/
def registerWrite (regWrite : Bool) (rd : RegIdx) (data : Word) (s : State) : State :=
  if regWrite then s.setReg rd data else s

/-! ## The tick -/

/-- Steps 4 to 6 of R130 in the order of 30_encoding.md R92: the control signals, the ALU code and the immediate format. -/
def decodeTables (pc inst : Word) : Except Fatal (Control × BitVec 4 × ImmFormat) := do
  let f := splitFields inst
  let imm := immFieldI inst
  let main ← rowOrFatal (tableMatch1 controlMainTable f.opcode) (.controlMain f.opcode) pc inst
  let branch ← rowOrFatal (tableMatch2 controlJumpTable f.opcode f.funct3) (.controlJump f.opcode f.funct3) pc inst
  let mem ← rowOrFatal (tableMatch1 controlMemTable f.funct3) (.controlMem f.funct3) pc inst
  let ecall ← rowOrFatal (tableMatch2 controlEcallTable f.opcode imm) (.controlEcall f.opcode imm) pc inst
  let code ← rowOrFatal (tableMatch3 aluControlTable main.aluOp f.funct7 f.funct3)
    (.aluControl main.aluOp f.funct7 f.funct3) pc inst
  let format ← rowOrFatal (tableMatch1 immGenTable f.opcode) (.immGen f.opcode) pc inst
  return (⟨main, branch, mem, ecall⟩, code, format)

/-- One tick of a core that is not faulted (R130, steps 1 to 11): the state after it, or the first fatal condition in the
order of 60_exceptions.md R264. -/
def datapathCycle (s : State) : Except Fatal State := do
  -- 1 to 3
  let pcCur := s.pc
  let inst ← instructionMemory pcCur s.imem
  let f := splitFields inst
  -- 4 to 6
  let (c, code, format) ← decodeTables pcCur inst
  let imm := extractImm format inst
  -- 7
  let readData1 := s.reg f.rs1
  let readData2 := s.reg f.rs2
  -- 8
  let aluIn2 ← mux .aluSrc [readData2, imm] (selectOf c.main.aluSrc)
  let (result, zero) ← alu code readData1 aluIn2 pcCur inst
  -- 9
  let (memData, dmem) ← memoryWrapper .data pcCur s.dmem
    ⟨result, c.main.memRead, c.main.memWrite, readData2, c.mem.memSize, c.mem.memSigned⟩
  -- 10
  let link := pcPlus4 pcCur
  let branchIn1 ← mux .branchSrc [pcCur, readData1] (selectOf c.branch.jalr)
  let branchTarget := branchAdder branchIn1 imm
  let auipcValue := auipcAdder pcCur imm
  let takeBranch := jumpControl c.branch zero
  let nextPC ← mux .nextPc [link, branchTarget] (selectOf takeBranch)
  let writeData ← mux .writeSrc [result, memData, link, auipcValue] c.main.writeSrc.toNat
  -- 11
  let written := registerWrite c.main.regWrite f.rd writeData { s with dmem := dmem }
  return written.retire nextPC
    { pcCur := pcCur
      inst := inst
      fields := f
      control := c
      aluControl := code
      imm := imm
      readData1 := readData1
      readData2 := readData2
      aluIn2 := aluIn2
      result := result
      zero := zero
      memData := memData
      pcPlus4 := link
      branchIn1 := branchIn1
      branchTarget := branchTarget
      auipcValue := auipcValue
      takeBranch := takeBranch
      nextPC := nextPC
      writeData := writeData }

/-- The datapath's tick with the answers of a step. -/
def datapathStep (s : State) : StepOutcome :=
  match s.status with
  | .faulted f => .fault (.faultedCore f)
  | _ =>
    match datapathCycle s with
    | .error f => .fault (.fatal f)
    | .ok s' => .next s'

end Sys2Proof.Machine
end

