-- ==== Sys2Proof/Machine/Simulator.lean ====
section
/-! DEFINITION. The Simulator around the datapath (70_reset_and_hazards.md): construction and reset, the host's moves before a
run, `tick()`, `run()`, and what the host may read between ticks. -/

namespace Sys2Proof.Machine

/-! ## Construction and reset (R300 to R303) -/

/-- The launch arguments (R300; 00_scope.md R6): the OPEN parameters SP_INIT and GP_INIT, CODE as unsigned numbers, REGMAP as
(register, value) entries, DMEM_INIT as (address, byte) entries. The defaults are the spec's; those of SP_INIT and GP_INIT
are log entry 2's. -/
structure Launch where
  spInit : Word := Config.spInit
  gpInit : Word := Config.gpInit
  code : List Nat := Config.defaultCode
  regMap : List (RegIdx × Word) := []
  dmemInit : List Host.Cell := []
  deriving DecidableEq, Repr

/-- `x[r] <- v` for each entry of a register map, an entry for x0 dropped (R303). Of two entries for one register the later holds
(DESIGN CHOICE, log entry 14). -/
def writeRegisters (s : State) : List (RegIdx × Word) → State
  | [] => s
  | (r, v) :: rest => writeRegisters (s.setReg r v) rest

/-- A fresh, all-zero instruction memory with word i stored at 4i, N recorded, the pc at 0 and the status `constructed` (R301,
D29). A number that is no 32-bit value is `Fatal(MemoryValue)` at its store; a MemoryRange record carries RESET_PC as its pc
(DESIGN CHOICE, log entry 10). -/
def loadCode (s : State) (words : List Nat) : Except Fatal State :=
  match storeArray .instruction Config.resetPc [] Config.codeBase 4 words with
  | .error f => .error f
  | .ok m => .ok { s with imem := m, codeLen := words.length, pc := Config.resetPc, status := .constructed }

/-- DMEM_INIT's bytes stored one by one (R302). A MemoryRange record carries RESET_PC as its pc (DESIGN CHOICE, log entry 10). -/
def storeInitBytes (m : Memory) : List Host.Cell → Except Fatal Memory
  | [] => .ok m
  | (addr, b) :: rest =>
    match storeBytes .data Config.resetPc m addr 1 b.toNat with
    | .error f => .error f
    | .ok m' => storeInitBytes m' rest

/-- Construction, which is what reset is (R300, D29): the state of 10_state.md R39 for the launch arguments. Nothing of an
earlier run survives. A failing code word is answered before a failing byte of DMEM_INIT (DESIGN CHOICE, log entry 11). -/
def construct (l : Launch) : Except Fatal State :=
  match loadCode (writeRegisters (State.blank l.spInit l.gpInit) l.regMap) l.code with
  | .error f => .error f
  | .ok s =>
    match storeInitBytes s.dmem l.dmemInit with
    | .error f => .error f
    | .ok m => .ok { s with dmem := m }

/-! ## The host's other moves and readings (R308, R309) -/

/-- Why a move of the host is turned away. -/
inductive HostError where
  /-- The access itself is fatal (20_memory.md R52, R53). -/
  | fatal (f : Fatal)
  /-- The host writes registers and memories only before the first tick; the model has no move that writes in the middle of a
  run (R303, R309, D32; log entry 12). -/
  | midRun
  deriving DecidableEq, Repr

/-- The state after a move that writes, which the host makes only before the first tick (R309, D32). One that comes too late and
would also fail is `midRun` (DESIGN CHOICE, log entry 12). -/
def beforeFirstTick (s : State) (written : Except Fatal State) : Except HostError State :=
  match s.status with
  | .constructed =>
    match written with
    | .error f => .error (.fatal f)
    | .ok t => .ok t
  | .running => .error .midRun
  | .done => .error .midRun
  | .faulted _ => .error .midRun

/-- `setCode(words)`, "construction-time/reset-time" (R301). -/
def setCode (s : State) (words : List Nat) : Except HostError State :=
  beforeFirstTick s (loadCode s words)

/-- `setRegisters(map)`, "construction/reset-time only" (R303). -/
def setRegisters (s : State) (regMap : List (RegIdx × Word)) : Except HostError State :=
  beforeFirstTick s (.ok (writeRegisters s regMap))

/-- An array of w-byte elements stored in data memory (20_memory.md R53). A MemoryRange record carries the current pc (DESIGN
CHOICE, log entry 10). -/
def writeArray (s : State) (addr w : Nat) (values : List Nat) : Except Fatal State :=
  match storeArray .data s.pc s.dmem addr w values with
  | .error f => .error f
  | .ok m => .ok { s with dmem := m }

/-- Preloading an array into data memory before the first tick (R302, R309). -/
def preload (s : State) (addr w : Nat) (values : List Nat) : Except HostError State :=
  beforeFirstTick s (writeArray s addr w values)

/-- Reading back an array of data memory (R308, 20_memory.md R53). A MemoryRange record carries the current pc (DESIGN CHOICE, log
entry 10). -/
def readArray (s : State) (addr w count : Nat) : Except Fatal (List (BitVec (8 * w))) :=
  loadArray .data s.pc s.dmem addr w count

/-- `isDone()` (R305). -/
def isDone (s : State) : Bool := isDoneAt s.pc s.codeLen

/-- `isSyscall()`: the `ecall` output of the most recent tick was ECALL's (10_state.md R35). -/
def isSyscall (s : State) : Bool := decide (s.sig.control.ecall = 0b01)

/-- `isBreak()`: the `ecall` output of the most recent tick was EBREAK's (10_state.md R35). -/
def isBreak (s : State) : Bool := decide (s.sig.control.ecall = 0b10)

/-! ## Running (R304, R307) -/

/-- `tick()` as a change of state: the step's next state; on a fatal condition the same state with status `faulted` and the
record (60_exceptions.md R261); a faulted core stays as it is (10_state.md R37). -/
def tick (s : State) : State :=
  match step s with
  | .next s' => s'
  | .fault (.fatal f) => s.enterFaulted f
  | .fault (.faultedCore _) => s
  | .refused _ => s

/-- How a run under fuel ends (R307): done, faulted, or without a result, since the core has no protection against a run that
never ends (93 U11). -/
inductive RunResult where
  | done (s : State)
  | faulted (s : State) (f : Fatal)
  | outOfFuel (s : State)
  deriving DecidableEq, Repr

/-- `run()`: tick while not `isDone()` (R304). It stops for ECALL and EBREAK no more than for any other instruction (D23). -/
def run (s : State) : Nat → RunResult
  | 0 =>
    match s.status with
    | .faulted f => .faulted s f
    | _ => if isDone s then .done s else .outOfFuel s
  | fuel + 1 =>
    match s.status with
    | .faulted f => .faulted s f
    | _ => if isDone s then .done s else run (tick s) fuel

end Sys2Proof.Machine
end

