-- ==== Sys2Proof/OpcodeTable.lean ====
section
/-! DEFINITION. spec/opcode_table.json as data: the mnemonic, match and mask of each of its 39 rows, in its order (00_scope.md R2,
30_encoding.md R93). -/

namespace Sys2Proof

/-- A row: a word `w` is one of its words when `w AND mask = bits`. -/
structure OpcodeRow where
  mnemonic : String
  bits : Word
  mask : Word
  deriving DecidableEq, Repr

/-- The row an instruction belongs to. -/
def opcodeRow : Instr → OpcodeRow
  | .add _ _ _ => ⟨"add", 0x00000033#32, 0xFE00707F#32⟩
  | .sub _ _ _ => ⟨"sub", 0x40000033#32, 0xFE00707F#32⟩
  | .sll _ _ _ => ⟨"sll", 0x00001033#32, 0xFE00707F#32⟩
  | .slt _ _ _ => ⟨"slt", 0x00002033#32, 0xFE00707F#32⟩
  | .sltu _ _ _ => ⟨"sltu", 0x00003033#32, 0xFE00707F#32⟩
  | .xor _ _ _ => ⟨"xor", 0x00004033#32, 0xFE00707F#32⟩
  | .srl _ _ _ => ⟨"srl", 0x00005033#32, 0xFE00707F#32⟩
  | .sra _ _ _ => ⟨"sra", 0x40005033#32, 0xFE00707F#32⟩
  | .or _ _ _ => ⟨"or", 0x00006033#32, 0xFE00707F#32⟩
  | .and _ _ _ => ⟨"and", 0x00007033#32, 0xFE00707F#32⟩
  | .addi _ _ _ => ⟨"addi", 0x00000013#32, 0x0000707F#32⟩
  | .slti _ _ _ => ⟨"slti", 0x00002013#32, 0x0000707F#32⟩
  | .sltiu _ _ _ => ⟨"sltiu", 0x00003013#32, 0x0000707F#32⟩
  | .xori _ _ _ => ⟨"xori", 0x00004013#32, 0x0000707F#32⟩
  | .ori _ _ _ => ⟨"ori", 0x00006013#32, 0x0000707F#32⟩
  | .andi _ _ _ => ⟨"andi", 0x00007013#32, 0x0000707F#32⟩
  | .slli _ _ _ => ⟨"slli", 0x00001013#32, 0xFE00707F#32⟩
  | .srli _ _ _ => ⟨"srli", 0x00005013#32, 0xFE00707F#32⟩
  | .srai _ _ _ => ⟨"srai", 0x40005013#32, 0xFE00707F#32⟩
  | .lui _ _ => ⟨"lui", 0x00000037#32, 0x0000007F#32⟩
  | .auipc _ _ => ⟨"auipc", 0x00000017#32, 0x0000007F#32⟩
  | .lb _ _ _ => ⟨"lb", 0x00000003#32, 0x0000707F#32⟩
  | .lh _ _ _ => ⟨"lh", 0x00001003#32, 0x0000707F#32⟩
  | .lw _ _ _ => ⟨"lw", 0x00002003#32, 0x0000707F#32⟩
  | .lbu _ _ _ => ⟨"lbu", 0x00004003#32, 0x0000707F#32⟩
  | .lhu _ _ _ => ⟨"lhu", 0x00005003#32, 0x0000707F#32⟩
  | .sb _ _ _ => ⟨"sb", 0x00000023#32, 0x0000707F#32⟩
  | .sh _ _ _ => ⟨"sh", 0x00001023#32, 0x0000707F#32⟩
  | .sw _ _ _ => ⟨"sw", 0x00002023#32, 0x0000707F#32⟩
  | .beq _ _ _ => ⟨"beq", 0x00000063#32, 0x0000707F#32⟩
  | .bne _ _ _ => ⟨"bne", 0x00001063#32, 0x0000707F#32⟩
  | .blt _ _ _ => ⟨"blt", 0x00004063#32, 0x0000707F#32⟩
  | .bge _ _ _ => ⟨"bge", 0x00005063#32, 0x0000707F#32⟩
  | .bltu _ _ _ => ⟨"bltu", 0x00006063#32, 0x0000707F#32⟩
  | .bgeu _ _ _ => ⟨"bgeu", 0x00007063#32, 0x0000707F#32⟩
  | .jal _ _ => ⟨"jal", 0x0000006F#32, 0x0000007F#32⟩
  | .jalr _ _ _ => ⟨"jalr", 0x00000067#32, 0x0000707F#32⟩
  | .ecall _ _ => ⟨"ecall", 0x00000073#32, 0xFFF0707F#32⟩
  | .ebreak _ _ => ⟨"ebreak", 0x00100073#32, 0xFFF0707F#32⟩

/-- The table: one row per constructor of `Instr`, whatever its operands. -/
def opcodeTable : List OpcodeRow :=
  [ opcodeRow (.add 0 0 0), opcodeRow (.sub 0 0 0), opcodeRow (.sll 0 0 0),
    opcodeRow (.slt 0 0 0), opcodeRow (.sltu 0 0 0), opcodeRow (.xor 0 0 0),
    opcodeRow (.srl 0 0 0), opcodeRow (.sra 0 0 0), opcodeRow (.or 0 0 0),
    opcodeRow (.and 0 0 0), opcodeRow (.addi 0 0 0), opcodeRow (.slti 0 0 0),
    opcodeRow (.sltiu 0 0 0), opcodeRow (.xori 0 0 0), opcodeRow (.ori 0 0 0),
    opcodeRow (.andi 0 0 0), opcodeRow (.slli 0 0 0), opcodeRow (.srli 0 0 0),
    opcodeRow (.srai 0 0 0), opcodeRow (.lui 0 0), opcodeRow (.auipc 0 0),
    opcodeRow (.lb 0 0 0), opcodeRow (.lh 0 0 0), opcodeRow (.lw 0 0 0),
    opcodeRow (.lbu 0 0 0), opcodeRow (.lhu 0 0 0), opcodeRow (.sb 0 0 0),
    opcodeRow (.sh 0 0 0), opcodeRow (.sw 0 0 0), opcodeRow (.beq 0 0 0),
    opcodeRow (.bne 0 0 0), opcodeRow (.blt 0 0 0), opcodeRow (.bge 0 0 0),
    opcodeRow (.bltu 0 0 0), opcodeRow (.bgeu 0 0 0), opcodeRow (.jal 0 0),
    opcodeRow (.jalr 0 0 0), opcodeRow (.ecall 0 0), opcodeRow (.ebreak 0 0) ]

/-- The word is one of the row's words. -/
def OpcodeRow.admits (row : OpcodeRow) (w : Word) : Bool := decide (w &&& row.mask = row.bits)

end Sys2Proof
end

