-- ==== Sys2Proof/Safety.lean ====
section
/-! DEFINITION. What claims call a well-formed state and a safe tick: the invariants every step keeps. -/

namespace Sys2Proof.Machine

/-- Both memories are in canonical form and list only addresses of their address spaces (20_memory.md R50). -/
def State.memoryWf (s : State) : Bool :=
  s.imem.wf && s.dmem.wf && s.imem.within Config.imemSize && s.dmem.within Config.dmemSize

/-- The status agrees with `isDone()`: `done` only where it holds, `running` only where it does not (10_state.md R36). -/
def State.statusWf (s : State) : Bool :=
  match s.status with
  | .done => isDone s
  | .running => !isDone s
  | .constructed => true
  | .faulted _ => true

/-- After a tick the PC holds the next PC the datapath computed (10_state.md R27). -/
def State.signalsWf (s : State) : Bool :=
  match s.status with
  | .done => decide (s.pc = s.sig.nextPC)
  | .running => decide (s.pc = s.sig.nextPC)
  | .constructed => true
  | .faulted _ => true

/-- A tick from this state raises no fatal condition. -/
def State.ticksSafely (s : State) : Prop := ∃ s', step s = .next s'

end Sys2Proof.Machine
end

