-- ==== Sys2Proof/Certificates/Slice0/Obligations.lean ====
section
/-! DEFINITION. The statements for the provers. Values are written in the spec's own arithmetic (00_scope.md R9: `u`, `s`, `bits_32`,
`sext_32`), not with the model's operations. -/

namespace Sys2Proof.Claims

open Sys2Proof.Machine

/-! ## The vocabulary of the statements -/

/-- `bits_32(n)` of a natural number. -/
def bits32 (n : Nat) : Word := BitVec.ofNat 32 n

/-- `bits_32(n)` of an integer. -/
def bits32i (n : Int) : Word := BitVec.ofInt 32 n

/-- `sext_32(v)`: the 32-bit vector with the signed value of `v`. -/
def sext32 {w : Nat} (v : BitVec w) : Word := BitVec.ofInt 32 v.toInt

/-- `u(x[4:0])`, a shift amount. -/
def low5 (x : Word) : Nat := x.toNat % 32

/-- `t AND 0xFFFFFFFE`: bit 0 cleared. -/
def evenTarget (n : Int) : Word := bits32i (n - n % 2)

/-- The bytes of the data memory from an address on, little-endian, as a number. -/
def dataBytes (s : State) (addr : Nat) : Nat → Nat
  | 0 => 0
  | n + 1 => (s.dmem.read addr).toNat + 256 * dataBytes s (addr + 1) n

/-- What every completed tick does besides its register or memory write (R130 step 11): the PC takes the next PC, the instruction
memory and N stay, and the status follows `isDone()`. -/
def Ticked (s t : State) (nextPC : Word) : Prop :=
  t.pc = nextPC ∧ (∀ a, t.imem.read a = s.imem.read a) ∧ t.codeLen = s.codeLen ∧
    t.status = (if 4 * s.codeLen ≤ nextPC.toNat then .done else .running)

/-- No system signal stands after the tick. -/
def NoSignal (t : State) : Prop := isSyscall t = false ∧ isBreak t = false

/-- Every register as before, but x[rd], which takes `v` unless it is x0. -/
def WritesOnly (s t : State) (rd : RegIdx) (v : Word) : Prop :=
  ∀ r, t.reg r = if r = rd ∧ r ≠ 0 then v else s.reg r

/-- Every register as before. -/
def KeepsRegisters (s t : State) : Prop := ∀ r, t.reg r = s.reg r

/-- Every byte of data memory as before. -/
def KeepsData (s t : State) : Prop := ∀ a, t.dmem.read a = s.dmem.read a

/-- `i` completes from `s`: it writes `v` to x[rd] and nothing else but what every tick does. -/
def RegisterResult (i : Instr) (s : State) (rd : RegIdx) (v nextPC : Word) : Prop :=
  ∃ t, exec i s = .next t ∧ WritesOnly s t rd v ∧ KeepsData s t ∧ Ticked s t nextPC ∧ NoSignal t

/-- `i` completes from `s` with no register and no memory byte written. -/
def ControlResult (i : Instr) (s : State) (nextPC : Word) : Prop :=
  ∃ t, exec i s = .next t ∧ KeepsRegisters s t ∧ KeepsData s t ∧ Ticked s t nextPC ∧ NoSignal t

/-- `i` completes from `s`: the n bytes from `addr` on take the low n bytes of `value`, little-endian, and every other byte of
data memory and every register stays. -/
def StoreResult (i : Instr) (s : State) (addr : Word) (n : Nat) (value : Word) : Prop :=
  ∃ t, exec i s = .next t ∧ KeepsRegisters s t ∧
    (∀ a, t.dmem.read a =
      if addr.toNat ≤ a ∧ a < addr.toNat + n then BitVec.ofNat 8 (value.toNat / 256 ^ (a - addr.toNat))
      else s.dmem.read a) ∧
    Ticked s t (bits32 (s.pc.toNat + 4)) ∧ NoSignal t

/-- The address and width of the data access an instruction makes (44_loads_stores.md R205 to R215). -/
def accessOf (i : Instr) (s : State) : Option (Word × Nat) :=
  match i with
  | .lb _ rs1 imm | .lbu _ rs1 imm | .sb _ rs1 imm => some (effectiveAddress s rs1 imm, 1)
  | .lh _ rs1 imm | .lhu _ rs1 imm | .sh _ rs1 imm => some (effectiveAddress s rs1 imm, 2)
  | .lw _ rs1 imm | .sw _ rs1 imm => some (effectiveAddress s rs1 imm, 4)
  | _ => none

/-- The stores. -/
def isStore : Instr → Bool
  | .sb _ _ _ | .sh _ _ _ | .sw _ _ _ => true
  | _ => false

/-- The instructions that write no register: stores, branches, ECALL and EBREAK (10_state.md R23). -/
def writesNoRegister : Instr → Bool
  | .sb _ _ _ | .sh _ _ _ | .sw _ _ _ => true
  | .beq _ _ _ | .bne _ _ _ | .blt _ _ _ | .bge _ _ _ | .bltu _ _ _ | .bgeu _ _ _ => true
  | .ecall _ _ | .ebreak _ _ => true
  | _ => false

/-- The core is not faulted, so that it takes a tick. -/
def NotFaulted (s : State) : Prop := ∀ f, s.status ≠ .faulted f

/-- The fields the instruction names and the immediate it carries, as the splitter and the ImmGen read them off its word. -/
def ReadsBack (i : Instr) : Prop :=
  let f := splitFields (encode i)
  match i with
  | .add rd rs1 rs2 | .sub rd rs1 rs2 | .sll rd rs1 rs2 | .slt rd rs1 rs2 | .sltu rd rs1 rs2
  | .xor rd rs1 rs2 | .srl rd rs1 rs2 | .sra rd rs1 rs2 | .or rd rs1 rs2 | .and rd rs1 rs2 =>
    f.rd = rd ∧ f.rs1 = rs1 ∧ f.rs2 = rs2 ∧ extractImm .r (encode i) = 0
  | .addi rd rs1 imm | .slti rd rs1 imm | .sltiu rd rs1 imm | .xori rd rs1 imm | .ori rd rs1 imm | .andi rd rs1 imm
  | .lb rd rs1 imm | .lh rd rs1 imm | .lw rd rs1 imm | .lbu rd rs1 imm | .lhu rd rs1 imm | .jalr rd rs1 imm =>
    f.rd = rd ∧ f.rs1 = rs1 ∧ extractImm .i (encode i) = sext32 imm
  | .slli rd rs1 shamt | .srli rd rs1 shamt | .srai rd rs1 shamt =>
    f.rd = rd ∧ f.rs1 = rs1 ∧ low5 (extractImm .i (encode i)) = shamt.toNat
  | .lui rd imm | .auipc rd imm => f.rd = rd ∧ extractImm .u (encode i) = bits32 (imm.toNat * 4096)
  | .sb rs2 rs1 imm | .sh rs2 rs1 imm | .sw rs2 rs1 imm =>
    f.rs1 = rs1 ∧ f.rs2 = rs2 ∧ extractImm .s (encode i) = sext32 imm
  | .beq rs1 rs2 offset | .bne rs1 rs2 offset | .blt rs1 rs2 offset | .bge rs1 rs2 offset | .bltu rs1 rs2 offset
  | .bgeu rs1 rs2 offset => f.rs1 = rs1 ∧ f.rs2 = rs2 ∧ extractImm .sb (encode i) = sext32 offset
  | .jal rd offset => f.rd = rd ∧ extractImm .uj (encode i) = sext32 offset
  | .ecall rd rs1 => f.rd = rd ∧ f.rs1 = rs1 ∧ extractImm .i (encode i) = 0
  | .ebreak rd rs1 => f.rd = rd ∧ f.rs1 = rs1 ∧ extractImm .i (encode i) = 1

/-- The format the ImmGen chooses for an instruction (30_encoding.md R83). -/
def formatOf : Instr → ImmFormat
  | .add _ _ _ | .sub _ _ _ | .sll _ _ _ | .slt _ _ _ | .sltu _ _ _ => .r
  | .xor _ _ _ | .srl _ _ _ | .sra _ _ _ | .or _ _ _ | .and _ _ _ => .r
  | .sb _ _ _ | .sh _ _ _ | .sw _ _ _ => .s
  | .beq _ _ _ | .bne _ _ _ | .blt _ _ _ | .bge _ _ _ | .bltu _ _ _ | .bgeu _ _ _ => .sb
  | .lui _ _ | .auipc _ _ => .u
  | .jal _ _ => .uj
  | _ => .i

/-- A register's number as the assembler writes it, `x0` to `x31`. -/
def registerText (r : RegIdx) : List Char := 'x' :: Nat.toDigits 10 r.toNat

/-- The canonical source form of an instruction: its mnemonic and its operands in the shape of 30_encoding.md R100, each register by
number, each immediate as the number its field stands for, each displacement as the number of bytes (R102). -/
def canonicalOperands : Instr → List Operand
  | .add rd rs1 rs2 | .sub rd rs1 rs2 | .sll rd rs1 rs2 | .slt rd rs1 rs2 | .sltu rd rs1 rs2
  | .xor rd rs1 rs2 | .srl rd rs1 rs2 | .sra rd rs1 rs2 | .or rd rs1 rs2 | .and rd rs1 rs2 =>
    [.name (registerText rd), .name (registerText rs1), .name (registerText rs2)]
  | .addi rd rs1 imm | .slti rd rs1 imm | .sltiu rd rs1 imm | .xori rd rs1 imm | .ori rd rs1 imm | .andi rd rs1 imm =>
    [.name (registerText rd), .name (registerText rs1), .number imm.toInt]
  | .slli rd rs1 shamt | .srli rd rs1 shamt | .srai rd rs1 shamt =>
    [.name (registerText rd), .name (registerText rs1), .number shamt.toNat]
  | .lui rd imm | .auipc rd imm => [.name (registerText rd), .number imm.toNat]
  | .lb rd rs1 imm | .lh rd rs1 imm | .lw rd rs1 imm | .lbu rd rs1 imm | .lhu rd rs1 imm | .jalr rd rs1 imm =>
    [.name (registerText rd), .displaced imm.toInt (registerText rs1)]
  | .sb rs2 rs1 imm | .sh rs2 rs1 imm | .sw rs2 rs1 imm =>
    [.name (registerText rs2), .displaced imm.toInt (registerText rs1)]
  | .beq rs1 rs2 offset | .bne rs1 rs2 offset | .blt rs1 rs2 offset | .bge rs1 rs2 offset | .bltu rs1 rs2 offset
  | .bgeu rs1 rs2 offset => [.name (registerText rs1), .name (registerText rs2), .number offset.toInt]
  | .jal rd offset => [.name (registerText rd), .number offset.toInt]
  | .ecall _ _ | .ebreak _ _ => []

/-- The instruction has a source form: ECALL and EBREAK only with rd = rs1 = 0 (30_encoding.md R104). -/
def hasSourceForm : Instr → Bool
  | .ecall rd rs1 | .ebreak rd rs1 => decide (rd = 0 ∧ rs1 = 0)
  | i => wellFormed i

/-- Every pattern bit that is not a don't-care equals the input bit (00_scope.md R11). -/
def AgreesWith {w : Nat} (p : Pattern w) (x : BitVec w) : Prop :=
  ∀ i, i < w → p.care.getLsbD i = true → x.getLsbD i = p.value.getLsbD i

/-- The answer of a lookup is the output of the table's first row that matches, and none exactly where no row matches (00_scope.md
R11). -/
def AnswersFirst {α β : Type} (table : List α) (rowMatches : α → Prop) (output : α → β) (answer : Option β) : Prop :=
  (∀ out, answer = some out ↔
    ∃ before row after, table = before ++ row :: after ∧ output row = out ∧ rowMatches row ∧ ∀ q ∈ before, ¬ rowMatches q) ∧
  (answer = none ↔ ∀ q ∈ table, ¬ rowMatches q)

end Sys2Proof.Claims

open Sys2Proof Sys2Proof.Machine Sys2Proof.Claims

/-! ## Decoding and encoding -/

/-- Words written out from the spec's encodings, one of each family (95_test_vectors.md sections 1, 2 and 2.1). -/
def Obligations.SpecWordsDecode : Prop :=
  decode 0x00208033 = .ok (.add 0 1 2) ∧ decode 0xFFF08193 = .ok (.addi 3 1 0xFFF) ∧
  decode 0x4040D193 = .ok (.srai 3 1 4) ∧ decode 0xABCDE1B7 = .ok (.lui 3 0xABCDE) ∧
  decode 0x0010A183 = .ok (.lw 3 1 1) ∧ decode 0xFE20AFA3 = .ok (.sw 2 1 0xFFF) ∧
  decode 0x00C58263 = .ok (.beq 11 12 4) ∧ decode 0xFF9FF06F = .ok (.jal 0 0x1FFFF8) ∧
  decode 0x005100E7 = .ok (.jalr 1 2 5) ∧ decode 0x00000F73 = .ok (.ecall 30 0) ∧
  decode 0x00100073 = .ok (.ebreak 0 0) ∧ decode 0x0000000F = .error (.controlMain 0b0001111) ∧
  decode 0x30200073 = .error (.controlEcall 0b1110011 0x302)

/-- Decoding the word of any well-formed instruction gives the instruction back. -/
def Obligations.DecodeOfEncodeIsTheInstruction : Prop :=
  ∀ i, wellFormed i = true → decode (encode i) = .ok i

/-- A word that decodes is the word of the instruction it decodes to, which is well formed: no bit of an accepted word is lost. -/
def Obligations.EncodeOfDecodeIsTheWord : Prop :=
  ∀ (w : Word) (i : Instr), decode w = .ok i → encode i = w ∧ wellFormed i = true

/-- The splitter and the ImmGen reproduce the operands of an encoded instruction. -/
def Obligations.SplitterAndImmGenReadTheOperandsBack : Prop :=
  ∀ i, wellFormed i = true → ReadsBack i

/-- No word belongs to two rows of the opcode table. -/
def Obligations.OpcodeRowsDoNotOverlap : Prop :=
  ∀ (w : Word) (a b : OpcodeRow), a ∈ opcodeTable → b ∈ opcodeTable → a.admits w = true → b.admits w = true → a = b

/-- A word that decodes is one of the words of its instruction's own row. -/
def Obligations.DecodedWordBelongsToItsRow : Prop :=
  ∀ (w : Word) (i : Instr), decode w = .ok i → opcodeRow i ∈ opcodeTable ∧ (opcodeRow i).admits w = true

/-- R93: the illegal words are exactly those no row of the opcode table matches, and each class of them is rejected at the table
R93 names. -/
def Obligations.IllegalWordsAreThoseOutsideTheTable : Prop :=
  ∀ w : Word,
    let f := splitFields w
    let imm := immFieldI w
    ((∃ m, decode w = .error m) ↔ ∀ row ∈ opcodeTable, row.admits w = false) ∧
    (f.opcode ∉ [0b0110111, 0b0010111, 0b1101111, 0b1100111, 0b1100011, 0b0000011, 0b0100011, 0b0010011, 0b0110011,
      0b1110011] → decode w = .error (.controlMain f.opcode)) ∧
    (f.opcode = 0b1100011 → f.funct3 ∈ [0b010, 0b011] → decode w = .error (.controlJump f.opcode f.funct3)) ∧
    (f.opcode = 0b1100111 → f.funct3 ≠ 0b000 → decode w = .error (.controlJump f.opcode f.funct3)) ∧
    (f.opcode = 0b0000011 → f.funct3 ∈ [0b011, 0b110, 0b111] → decode w = .error (.controlJump f.opcode f.funct3)) ∧
    (f.opcode = 0b0100011 → f.funct3 ∈ [0b011, 0b100, 0b101, 0b110, 0b111] →
      decode w = .error (.controlJump f.opcode f.funct3)) ∧
    (f.opcode = 0b1110011 → f.funct3 ≠ 0b000 → decode w = .error (.controlJump f.opcode f.funct3)) ∧
    (f.opcode = 0b1110011 → f.funct3 = 0b000 → imm ≠ 0x000 → imm ≠ 0x001 →
      decode w = .error (.controlEcall f.opcode imm)) ∧
    (f.opcode = 0b0110011 →
      ¬(f.funct7 = 0b0000000 ∨ (f.funct7 = 0b0100000 ∧ (f.funct3 = 0b000 ∨ f.funct3 = 0b101))) →
      decode w = .error (.aluControl 0b010 f.funct7 f.funct3)) ∧
    (f.opcode = 0b0010011 → f.funct3 = 0b001 → f.funct7 ≠ 0b0000000 →
      decode w = .error (.aluControl 0b011 f.funct7 f.funct3)) ∧
    (f.opcode = 0b0010011 → f.funct3 = 0b101 → f.funct7 ≠ 0b0000000 → f.funct7 ≠ 0b0100000 →
      decode w = .error (.aluControl 0b011 f.funct7 f.funct3))

/-! ## The truth tables and the datapath -/

/-- A table of one, two or three inputs answers the output of the first row, in list order, whose every pattern bit equals the
input bit or is a don't-care; it answers nothing exactly where no row matches. -/
def Obligations.TableAnswersTheFirstMatchingRow : Prop :=
  (∀ (u : Nat) (β : Type) (table : Table1 u β) (a : BitVec u),
    AnswersFirst table (fun row => AgreesWith row.1 a) (fun row => row.2) (tableMatch1 table a)) ∧
  (∀ (u v : Nat) (β : Type) (table : Table2 u v β) (a : BitVec u) (b : BitVec v),
    AnswersFirst table (fun row => AgreesWith row.1 a ∧ AgreesWith row.2.1 b) (fun row => row.2.2) (tableMatch2 table a b)) ∧
  (∀ (u v w : Nat) (β : Type) (table : Table3 u v w β) (a : BitVec u) (b : BitVec v) (c : BitVec w),
    AnswersFirst table (fun row => AgreesWith row.1 a ∧ AgreesWith row.2.1 b ∧ AgreesWith row.2.2.1 c)
      (fun row => row.2.2.2) (tableMatch3 table a b c))

/-- The decode tables give every instruction its row of R148, its ALU operation's code and its immediate format. -/
def Obligations.DecodeTablesGiveTheInstructionsRow : Prop :=
  ∀ (pc : Word) (i : Instr),
    decodeTables pc (encode i) =
      .ok (⟨(controlRow i).main, (controlRow i).branch, memControlOf (splitFields (encode i)).funct3, (controlRow i).ecall⟩,
        aluCode (controlRow i).op, formatOf i)

/-- A word the decoder rejects is rejected by the decode tables, evaluated in the order of R92, at the same table with the same
inputs. -/
def Obligations.DecodeTablesRejectTheSameWords : Prop :=
  ∀ (pc w : Word) (m : NoMatch), decode w = .error m → decodeTables pc w = .error (.decodeNoMatch m pc w)

/-- The step, which runs the decoded instruction's own meaning, is the tick of R130 through the components, their tables, muxes and
adders, for every state: the same next state with the same signals, or the same fatal condition. -/
def Obligations.StepIsTheDatapathTick : Prop :=
  ∀ s : State, step s = datapathStep s

/-- When the four bytes at the PC, the first the least significant, decode to an instruction, the step of a core that is not faulted
is that instruction's `exec`, and nothing is added around it. -/
def Obligations.StepRunsTheDecodedInstruction : Prop :=
  ∀ (s : State) (i : Instr), NotFaulted s → s.pc.toNat + 4 ≤ 2 ^ 32 →
    decode (wordOfBytes (s.imem.read s.pc.toNat) (s.imem.read (s.pc.toNat + 1)) (s.imem.read (s.pc.toNat + 2))
      (s.imem.read (s.pc.toNat + 3))) = .ok i →
    step s = exec i s

/-! ## Register-register and register-immediate instructions -/

def Obligations.AddAndSubWrapModulo32Bits : Prop :=
  ∀ (s : State) (rd rs1 rs2 : RegIdx),
    let x := s.reg rs1
    let y := s.reg rs2
    let next := bits32 (s.pc.toNat + 4)
    RegisterResult (.add rd rs1 rs2) s rd (bits32 (x.toNat + y.toNat)) next ∧
    RegisterResult (.sub rd rs1 rs2) s rd (bits32i ((x.toNat : Int) - y.toNat)) next

def Obligations.RegisterShiftsUseTheLowFiveBits : Prop :=
  ∀ (s : State) (rd rs1 rs2 : RegIdx),
    let x := s.reg rs1
    let sh := low5 (s.reg rs2)
    let next := bits32 (s.pc.toNat + 4)
    RegisterResult (.sll rd rs1 rs2) s rd (bits32 (x.toNat * 2 ^ sh)) next ∧
    RegisterResult (.srl rd rs1 rs2) s rd (bits32 (x.toNat / 2 ^ sh)) next ∧
    RegisterResult (.sra rd rs1 rs2) s rd (bits32i (x.toInt / 2 ^ sh)) next

def Obligations.RegisterComparesGiveOneOrZero : Prop :=
  ∀ (s : State) (rd rs1 rs2 : RegIdx),
    let x := s.reg rs1
    let y := s.reg rs2
    let next := bits32 (s.pc.toNat + 4)
    RegisterResult (.slt rd rs1 rs2) s rd (if x.toInt < y.toInt then 1 else 0) next ∧
    RegisterResult (.sltu rd rs1 rs2) s rd (if x.toNat < y.toNat then 1 else 0) next

def Obligations.RegisterLogicIsBitwise : Prop :=
  ∀ (s : State) (rd rs1 rs2 : RegIdx),
    let x := s.reg rs1
    let y := s.reg rs2
    let next := bits32 (s.pc.toNat + 4)
    RegisterResult (.xor rd rs1 rs2) s rd (BitVec.ofFnLE fun k : Fin 32 => x.getLsbD k != y.getLsbD k) next ∧
    RegisterResult (.or rd rs1 rs2) s rd (BitVec.ofFnLE fun k : Fin 32 => x.getLsbD k || y.getLsbD k) next ∧
    RegisterResult (.and rd rs1 rs2) s rd (BitVec.ofFnLE fun k : Fin 32 => x.getLsbD k && y.getLsbD k) next

def Obligations.ImmediateArithmeticAndCompares : Prop :=
  ∀ (s : State) (rd rs1 : RegIdx) (imm : BitVec 12),
    let x := s.reg rs1
    let next := bits32 (s.pc.toNat + 4)
    RegisterResult (.addi rd rs1 imm) s rd (bits32i ((x.toNat : Int) + imm.toInt)) next ∧
    RegisterResult (.slti rd rs1 imm) s rd (if x.toInt < imm.toInt then 1 else 0) next ∧
    RegisterResult (.sltiu rd rs1 imm) s rd (if x.toNat < (sext32 imm).toNat then 1 else 0) next

def Obligations.ImmediateLogicIsBitwise : Prop :=
  ∀ (s : State) (rd rs1 : RegIdx) (imm : BitVec 12),
    let x := s.reg rs1
    let y := sext32 imm
    let next := bits32 (s.pc.toNat + 4)
    RegisterResult (.xori rd rs1 imm) s rd (BitVec.ofFnLE fun k : Fin 32 => x.getLsbD k != y.getLsbD k) next ∧
    RegisterResult (.ori rd rs1 imm) s rd (BitVec.ofFnLE fun k : Fin 32 => x.getLsbD k || y.getLsbD k) next ∧
    RegisterResult (.andi rd rs1 imm) s rd (BitVec.ofFnLE fun k : Fin 32 => x.getLsbD k && y.getLsbD k) next

def Obligations.ImmediateShiftsUseTheShamt : Prop :=
  ∀ (s : State) (rd rs1 : RegIdx) (shamt : BitVec 5),
    let x := s.reg rs1
    let next := bits32 (s.pc.toNat + 4)
    RegisterResult (.slli rd rs1 shamt) s rd (bits32 (x.toNat * 2 ^ shamt.toNat)) next ∧
    RegisterResult (.srli rd rs1 shamt) s rd (bits32 (x.toNat / 2 ^ shamt.toNat)) next ∧
    RegisterResult (.srai rd rs1 shamt) s rd (bits32i (x.toInt / 2 ^ shamt.toNat)) next

def Obligations.UpperImmediateResults : Prop :=
  ∀ (s : State) (rd : RegIdx) (imm : BitVec 20),
    let next := bits32 (s.pc.toNat + 4)
    RegisterResult (.lui rd imm) s rd (bits32 (imm.toNat * 4096)) next ∧
    RegisterResult (.auipc rd imm) s rd (bits32 (s.pc.toNat + imm.toNat * 4096)) next

/-! ## Loads and stores -/

/-- R205: the effective address is the base plus the signed displacement, modulo 2^32. -/
def Obligations.EffectiveAddressWraps : Prop :=
  ∀ (s : State) (rs1 : RegIdx) (imm : BitVec 12),
    effectiveAddress s rs1 imm = bits32i (((s.reg rs1).toNat : Int) + imm.toInt)

/-- The byte loads complete from every state; the address is that of `effectiveAddress`. -/
def Obligations.ByteLoadsReadOneByte : Prop :=
  ∀ (s : State) (rd rs1 : RegIdx) (imm : BitVec 12),
    let b := s.dmem.read (effectiveAddress s rs1 imm).toNat
    let next := bits32 (s.pc.toNat + 4)
    RegisterResult (.lb rd rs1 imm) s rd (bits32i b.toInt) next ∧
    RegisterResult (.lbu rd rs1 imm) s rd (bits32 b.toNat) next

/-- The wider loads complete wherever their bytes lie below 2^32, at any alignment, for rd = x0 too. -/
def Obligations.WideLoadsReadLittleEndianBytes : Prop :=
  ∀ (s : State) (rd rs1 : RegIdx) (imm : BitVec 12),
    let ea := (effectiveAddress s rs1 imm).toNat
    let next := bits32 (s.pc.toNat + 4)
    (ea + 2 ≤ 2 ^ 32 →
      RegisterResult (.lh rd rs1 imm) s rd (bits32i (BitVec.ofNat 16 (dataBytes s ea 2)).toInt) next ∧
      RegisterResult (.lhu rd rs1 imm) s rd (bits32 (dataBytes s ea 2)) next) ∧
    (ea + 4 ≤ 2 ^ 32 → RegisterResult (.lw rd rs1 imm) s rd (bits32 (dataBytes s ea 4)) next)

/-- The byte store completes from every state, the wider stores wherever their bytes lie below 2^32, at any alignment. -/
def Obligations.StoresWriteTheLowBytesAndNothingElse : Prop :=
  ∀ (s : State) (rs2 rs1 : RegIdx) (imm : BitVec 12),
    let ea := effectiveAddress s rs1 imm
    StoreResult (.sb rs2 rs1 imm) s ea 1 (s.reg rs2) ∧
    (ea.toNat + 2 ≤ 2 ^ 32 → StoreResult (.sh rs2 rs1 imm) s ea 2 (s.reg rs2)) ∧
    (ea.toNat + 4 ≤ 2 ^ 32 → StoreResult (.sw rs2 rs1 imm) s ea 4 (s.reg rs2))

/-- R64: a load or store raises MemoryRange exactly when its last byte lies beyond 2^32 - 1, the record naming the access; the
effective address itself wraps, so `lw x1, -4(x0)` reads at 0xFFFFFFFC without error. -/
def Obligations.DataAccessRangeRule : Prop :=
  (∀ (s : State) (i : Instr) (addr : Word) (n : Nat), accessOf i s = some (addr, n) →
    ∀ f, exec i s = .fault (.fatal f) ↔ 2 ^ 32 < addr.toNat + n ∧ f = .memoryRange .data addr.toNat n s.pc) ∧
  (∀ addr : Word, (2 ^ 32 < addr.toNat + 2 ↔ addr = 0xFFFFFFFF) ∧
    (2 ^ 32 < addr.toNat + 4 ↔ addr = 0xFFFFFFFD ∨ addr = 0xFFFFFFFE ∨ addr = 0xFFFFFFFF)) ∧
  (∀ (s : State) (rs1 : RegIdx) (imm : BitVec 12),
    effectiveAddress s rs1 imm = bits32i (((s.reg rs1).toNat : Int) + imm.toInt)) ∧
  (∀ s : State, effectiveAddress s 0 0xFFC = 0xFFFFFFFC ∧
    ∃ t, exec (.lw 1 0 0xFFC) s = .next t ∧ t.reg 1 = bits32 (dataBytes s 0xFFFFFFFC 4))

/-! ## Control transfer and system instructions -/

/-- The six branches complete from every state; only the PC, N's comparison and the signals follow. -/
def Obligations.BranchesTakeTheirCondition : Prop :=
  ∀ (s : State) (rs1 rs2 : RegIdx) (offset : BitVec 13),
    let x := s.reg rs1
    let y := s.reg rs2
    let target := evenTarget ((s.pc.toNat : Int) + offset.toInt)
    let next := bits32 (s.pc.toNat + 4)
    ControlResult (.beq rs1 rs2 offset) s (if x = y then target else next) ∧
    ControlResult (.bne rs1 rs2 offset) s (if x ≠ y then target else next) ∧
    ControlResult (.blt rs1 rs2 offset) s (if x.toInt < y.toInt then target else next) ∧
    ControlResult (.bge rs1 rs2 offset) s (if x.toInt ≥ y.toInt then target else next) ∧
    ControlResult (.bltu rs1 rs2 offset) s (if x.toNat < y.toNat then target else next) ∧
    ControlResult (.bgeu rs1 rs2 offset) s (if x.toNat ≥ y.toNat then target else next)

/-- The jumps complete from every state: link in x[rd], bit 0 of the target cleared, the target computed with the old x[rs1]. -/
def Obligations.JumpsLinkAndClearBitZero : Prop :=
  ∀ (s : State) (rd rs1 : RegIdx) (offset : BitVec 21) (imm : BitVec 12),
    let link := bits32 (s.pc.toNat + 4)
    RegisterResult (.jal rd offset) s rd link (evenTarget ((s.pc.toNat : Int) + offset.toInt)) ∧
    RegisterResult (.jalr rd rs1 imm) s rd link (evenTarget (((s.reg rs1).toNat : Int) + imm.toInt))

/-- ECALL and EBREAK complete from every state, whatever rd and rs1 hold: they raise their signal and advance the PC. -/
def Obligations.SystemInstructionsOnlySignal : Prop :=
  ∀ (s : State) (rd rs1 : RegIdx),
    (∃ t, exec (.ecall rd rs1) s = .next t ∧ KeepsRegisters s t ∧ KeepsData s t ∧
      Ticked s t (bits32 (s.pc.toNat + 4)) ∧ isSyscall t = true ∧ isBreak t = false) ∧
    (∃ t, exec (.ebreak rd rs1) s = .next t ∧ KeepsRegisters s t ∧ KeepsData s t ∧
      Ticked s t (bits32 (s.pc.toNat + 4)) ∧ isSyscall t = false ∧ isBreak t = true)

/-! ## Memory laws -/

/-- R71: a store followed by a load of the same place returns the value, and byte k of the place holds bits 8k+7 to 8k. At width 0,
which R51 does not define, that the load succeeds is the model's choice (log entry 19). -/
def Obligations.StoreThenLoadReturnsTheValue : Prop :=
  ∀ (id : MemoryId) (pc : Word) (m m' : Memory) (addr w : Nat) (v : BitVec (8 * w)),
    storeBytes id pc m addr w v.toNat = .ok m' →
    loadBytes id pc m' addr w = .ok v ∧
    ∀ k, k < w → loadBytes id pc m' (addr + k) 1 = .ok (v.extractLsb' (8 * k) 8)

/-- R52: a store fails by its range first, then by its value, and otherwise writes exactly its w bytes; the value check never fires
for a store the core makes. -/
def Obligations.StoreChecksRangeThenValue : Prop :=
  ∀ (id : MemoryId) (pc : Word) (m : Memory) (addr w value : Nat),
    (2 ^ 32 < addr + w → storeBytes id pc m addr w value = .error (.memoryRange id addr w pc)) ∧
    (addr + w ≤ 2 ^ 32 → 2 ^ (8 * w) ≤ value → storeBytes id pc m addr w value = .error (.memoryValue value w)) ∧
    (addr + w ≤ 2 ^ 32 → value < 2 ^ (8 * w) →
      ∃ m', storeBytes id pc m addr w value = .ok m' ∧
        ∀ a, m'.read a = if addr ≤ a ∧ a < addr + w then BitVec.ofNat 8 (value / 256 ^ (a - addr)) else m.read a) ∧
    (∀ (s : State) (address : Word) (n : Nat) (v : BitVec (8 * n)) (x k : Nat),
      s.memWrite address n v ≠ .error (.memoryValue x k))

/-- R53, R302: an array the host preloads reads back element by element. At width 0, which R51 does not define, that the loads
succeed is the model's choice (log entry 19). -/
def Obligations.PreloadedArrayReadsBack : Prop :=
  ∀ (s t : State) (addr w : Nat) (values : List Nat), preload s addr w values = .ok t →
    readArray t addr w values.length = .ok (values.map fun v => BitVec.ofNat (8 * w) v) ∧
    (∀ a, a < addr ∨ addr + w * values.length ≤ a → t.dmem.read a = s.dmem.read a) ∧
    t.imem = s.imem ∧ t.regs = s.regs ∧ t.pc = s.pc ∧ t.codeLen = s.codeLen ∧ t.sig = s.sig ∧ t.status = s.status

/-! ## Reset and construction -/

/-- The values R39 gives for reset; the values of x2 and x3 (log entry 2) and of the other signals (log entry 3) are the model's
choice and are not stated. -/
def Obligations.ResetStateHoldsTheSpecsValues : Prop :=
  State.reset.pc = 0 ∧ (∀ r : RegIdx, r ≠ 2 → r ≠ 3 → State.reset.reg r = 0) ∧
  (∀ a, State.reset.imem.read a = if a = 0 then 0x13 else 0) ∧ (∀ a, State.reset.dmem.read a = 0) ∧
  State.reset.codeLen = 1 ∧ isSyscall State.reset = false ∧ isBreak State.reset = false ∧
  State.reset.status = .constructed

/-- State.reset is the construction with the default launch arguments; SP_INIT and GP_INIT are the model's choice (log entry 2) on
both sides. -/
def Obligations.ResetIsTheDefaultConstruction : Prop :=
  construct {} = .ok State.reset

/-- Construction succeeds for code words of 32 bits that fit the instruction memory and initial bytes inside the data memory. -/
def Obligations.ConstructionSucceeds : Prop :=
  ∀ l : Launch, (∀ w ∈ l.code, w < 2 ^ 32) → 4 * l.code.length ≤ 2 ^ 32 → (∀ c ∈ l.dmemInit, c.1 < 2 ^ 32) →
    ∃ s, construct l = .ok s

/-- R25, R31, and the other rows of R39: the state a construction gives, for every SP_INIT, GP_INIT, CODE, REGMAP and DMEM_INIT.
Where a map names a register or an address twice, nothing is said of it (log entry 14). -/
def Obligations.ConstructionGivesTheLaunchState : Prop :=
  ∀ (l : Launch) (s : State), construct l = .ok s →
    s.pc = 0 ∧ s.reg 0 = 0 ∧
    ((l.regMap.map fun e => e.1).Nodup → ∀ r v, (r, v) ∈ l.regMap → r ≠ 0 → s.reg r = v) ∧
    (∀ r : RegIdx, r ≠ 0 → (∀ v, (r, v) ∉ l.regMap) →
      s.reg r = if r = 2 then l.spInit else if r = 3 then l.gpInit else 0) ∧
    (∀ i (h : i < l.code.length), loadBytes .instruction 0 s.imem (4 * i) 4 = .ok (bits32 l.code[i])) ∧
    (∀ a, 4 * l.code.length ≤ a → s.imem.read a = 0) ∧
    ((l.dmemInit.map fun c => c.1).Nodup → ∀ a b, (a, b) ∈ l.dmemInit → s.dmem.read a = b) ∧
    (∀ a, (∀ b, (a, b) ∉ l.dmemInit) → s.dmem.read a = 0) ∧
    s.codeLen = l.code.length ∧ isSyscall s = false ∧ isBreak s = false ∧ s.status = .constructed

/-- R303, R309: before the first tick the host sets registers, an entry for x0 dropped, every other register and field kept; once a
tick has run no move of the host writes a register or a memory. Where the map names a register twice, nothing is said of it (log
entry 14); that such a move is turned away by name is log entry 12. -/
def Obligations.HostWritesOnlyBeforeTheFirstTick : Prop :=
  (∀ (s : State) (regMap : List (RegIdx × Word)), s.status = .constructed →
    ∃ t, setRegisters s regMap = .ok t ∧
      ((regMap.map fun e => e.1).Nodup → ∀ r v, (r, v) ∈ regMap → r ≠ 0 → t.reg r = v) ∧
      (∀ r, (∀ v, (r, v) ∉ regMap) → t.reg r = s.reg r) ∧ t.reg 0 = 0 ∧
      t.pc = s.pc ∧ t.imem = s.imem ∧ t.dmem = s.dmem ∧ t.codeLen = s.codeLen ∧ t.sig = s.sig ∧ t.status = s.status) ∧
  (∀ (s : State) (regMap : List (RegIdx × Word)) (words : List Nat) (addr w : Nat) (values : List Nat),
    s.status ≠ .constructed →
    setRegisters s regMap = .error .midRun ∧ setCode s words = .error .midRun ∧ preload s addr w values = .error .midRun) ∧
  (∀ s : State, (tick s).status ≠ .constructed)

/-! ## Fatal conditions -/

/-- R262: which condition a tick of a core that is not faulted raises: the fetch's range, an illegal word, a halfword at 0xFFFFFFFF
or a word at 0xFFFFFFFD to 0xFFFFFFFF, and nothing else. -/
def Obligations.StepRaisesExactlyTheListedConditions : Prop :=
  ∀ (s : State) (f : Fatal), NotFaulted s →
    (step s = .fault (.fatal f) ↔
      (2 ^ 32 < s.pc.toNat + 4 ∧ f = .memoryRange .instruction s.pc.toNat 4 s.pc) ∨
      (∃ inst m, s.fetch = .ok inst ∧ decode inst = .error m ∧ f = .decodeNoMatch m s.pc inst) ∨
      (∃ inst i addr n, s.fetch = .ok inst ∧ decode inst = .ok i ∧ accessOf i s = some (addr, n) ∧
        ((n = 2 ∧ addr = 0xFFFFFFFF) ∨ (n = 4 ∧ (addr = 0xFFFFFFFD ∨ addr = 0xFFFFFFFE ∨ addr = 0xFFFFFFFF))) ∧
        f = .memoryRange .data addr.toNat n s.pc))

/-- A core that is not faulted answers every tick: a next state, or a fatal condition of code 1 or 2; no step is refused. -/
def Obligations.EveryTickEndsInANextStateOrCodeOneOrTwo : Prop :=
  ∀ s : State, NotFaulted s →
    (∃ t, step s = .next t) ∨ ∃ f, step s = .fault (.fatal f) ∧ (f.code = 1 ∨ f.code = 2)

/-- R37, R261: a fatal tick leaves every field but the status as it was, records the condition, and the core then takes no further
step, for any number of ticks. That the retained signals stay those of the tick before is the model's choice (log entry 10). -/
def Obligations.FatalTickIsTerminalAndWritesNothing : Prop :=
  ∀ (s : State) (f : Fatal), step s = .fault (.fatal f) →
    (tick s).pc = s.pc ∧ (∀ r, (tick s).reg r = s.reg r) ∧ (tick s).imem = s.imem ∧ (tick s).dmem = s.dmem ∧
    (tick s).sig = s.sig ∧ (tick s).codeLen = s.codeLen ∧ (tick s).status = .faulted f ∧
    ∀ n, tick^[n] (tick s) = tick s ∧ step (tick^[n] (tick s)) = .fault (.faultedCore f)

/-- R306: a tick at a PC at or beyond the end of the loaded code reads 0 and is DecodeNoMatch at CONTROL_MAIN with opcode 0; a fetch
at 4N - 2 reads the upper half of the last word and zeros above it. `s` is any state with the instruction memory of the launch. -/
def Obligations.TickBeyondTheCodeIsDecodeNoMatch : Prop :=
  ∀ (l : Launch) (s₀ s : State), construct l = .ok s₀ → s.imem = s₀.imem → NotFaulted s → s.pc.toNat + 4 ≤ 2 ^ 32 →
    (4 * l.code.length ≤ s.pc.toNat → step s = .fault (.fatal (.decodeNoMatch (.controlMain 0) s.pc 0))) ∧
    (∀ w, l.code.getLast? = some w → s.pc.toNat + 2 = 4 * l.code.length → s.fetch = .ok (bits32 (w / 2 ^ 16)))

/-! ## Invariants and whole-machine rules -/

def Obligations.ResetMemoryIsCanonical : Prop := State.reset.memoryWf = true

/-- Every step keeps both memories in canonical form and inside their address spaces. -/
def Obligations.StepKeepsMemoryCanonical : Prop :=
  ∀ s t : State, s.memoryWf = true → step s = .next t → t.memoryWf = true

def Obligations.ResetStatusAndSignalsAgree : Prop := State.reset.statusWf = true ∧ State.reset.signalsWf = true

/-- From any state, where the status after a tick is done or running it agrees with `isDone()` and the PC holds the next PC among
the signals; where a fatal tick leaves the core faulted nothing is said of either. -/
def Obligations.TickKeepsStatusAndSignalsInAgreement : Prop :=
  ∀ s : State, (tick s).statusWf = true ∧ (tick s).signalsWf = true

/-- After a completed tick the signals are those of that tick: the PC it ran at, the word it fetched, the fields of that word, the
next PC it loaded, and the data it wrote to x[rd] where regWrite is 1. -/
def Obligations.SignalsDescribeTheTick : Prop :=
  ∀ s t : State, step s = .next t →
    t.sig.pcCur = s.pc ∧ s.fetch = .ok t.sig.inst ∧ t.sig.fields = splitFields t.sig.inst ∧
    t.sig.readData1 = s.reg t.sig.fields.rs1 ∧ t.sig.readData2 = s.reg t.sig.fields.rs2 ∧ t.pc = t.sig.nextPC ∧
    (t.sig.control.main.regWrite = true → t.sig.fields.rd ≠ 0 → t.reg t.sig.fields.rd = t.sig.writeData) ∧
    (t.sig.control.main.regWrite = false → ∀ r, t.reg r = s.reg r)

/-- R35, R36: no tick reads a signal left by an earlier one, nor the status beyond whether it is faulted: replacing them changes
nothing in what the step answers. -/
def Obligations.StepIgnoresSignalsAndStatus : Prop :=
  ∀ (s : State) (g : Signals) (st : Status), NotFaulted s → (∀ f, st ≠ .faulted f) →
    step { s with sig := g, status := st } = step s

/-- R69: no tick changes the instruction memory or N, however many run and whatever they store, so every later fetch at an address
reads what it read before. -/
def Obligations.InstructionMemoryNeverChanges : Prop :=
  ∀ (s : State) (n : Nat), (tick^[n] s).imem = s.imem ∧ (tick^[n] s).codeLen = s.codeLen ∧
    ∀ pc, ({ tick^[n] s with pc := pc } : State).fetch = ({ s with pc := pc } : State).fetch

/-- R57, R61: only a store changes the data memory. -/
def Obligations.OnlyStoresChangeDataMemory : Prop :=
  ∀ (s t : State) (inst : Word) (i : Instr), s.fetch = .ok inst → decode inst = .ok i → isStore i = false →
    step s = .next t → t.dmem = s.dmem

/-- R23: stores, branches, ECALL and EBREAK write no register, and any other instruction writes at most the register of its rd field,
never x0. -/
def Obligations.OnlyTheDestinationRegisterChanges : Prop :=
  ∀ (s t : State) (inst : Word) (i : Instr), s.fetch = .ok inst → decode inst = .ok i → step s = .next t →
    (writesNoRegister i = true → ∀ r, t.reg r = s.reg r) ∧
    (∀ r, r ≠ (splitFields inst).rd → t.reg r = s.reg r) ∧ t.reg 0 = 0

/-! ## Running -/

/-- R304, R307: a run under fuel ends done, faulted, or without a result, always in the state some number of ticks, at most the
fuel, gives from the start, and no earlier state is done. Which of the two a faulted core that satisfies isDone is, is the model's
choice (log entry 13) and not stated. -/
def Obligations.RunIsTicksUntilDoneOrFaulted : Prop :=
  ∀ (s : State) (fuel : Nat),
    (∀ t, run s fuel = .done t → ∃ k, k ≤ fuel ∧ t = tick^[k] s ∧ isDone t = true ∧
      ∀ j, j < k → isDone (tick^[j] s) = false) ∧
    (∀ t f, run s fuel = .faulted t f → ∃ k, k ≤ fuel ∧ t = tick^[k] s ∧ t.status = .faulted f ∧
      ∀ j, j < k → isDone (tick^[j] s) = false) ∧
    (∀ t, run s fuel = .outOfFuel t → t = tick^[fuel] s ∧ isDone t = false ∧ NotFaulted t ∧
      ∀ j, j < fuel → isDone (tick^[j] s) = false)

/-! ## The assembler -/

/-- R104: the output has one entry for each instruction line, in order: pass 1's statement number k, at its source line, with the
word of the instruction it assembles to at index k; a line number stands in the output exactly where the source has an instruction
on that line; and every word decodes to a well-formed instruction whose word it is. -/
def Obligations.AssembledWordsDecodeInLineOrder : Prop :=
  ∀ (text : List Char) (out : List (Nat × Word)), assemble text = .ok out →
    (∃ stmts labels, passOne (splitLines text []) 1 0 [] = .ok (stmts, labels) ∧ out.length = stmts.length ∧
      ∀ k (h : k < stmts.length), ∃ i, statementInstr labels k stmts[k] = .ok i ∧ out[k]? = some (stmts[k].line, encode i)) ∧
    (∀ n, n ∈ (out.map fun e => e.1) ↔
      1 ≤ n ∧ ∃ cs label stmt, (splitLines text [])[n - 1]? = some cs ∧ parseLine n cs = .ok (label, some stmt)) ∧
    (out.map fun e => e.1).Pairwise (· < ·) ∧
    (∀ e ∈ out, ∃ i, decode e.2 = .ok i ∧ wellFormed i = true ∧ encode i = e.2)

/-- R101: a label operand of a branch or jump at instruction index c that resolves to index L is encoded as the byte displacement
(L - c) * 4 where that fits the field, and refused as out of range where it does not. -/
def Obligations.LabelOperandsAreWordDistances : Prop :=
  ∀ (bits : Nat) (labels : Labels) (index target : Nat) (l : List Char), 0 < bits → labelIndex labels l = some target →
    let d : Int := ((target : Int) - index) * 4
    (-(2 ^ (bits - 1) : Int) ≤ d ∧ d < 2 ^ (bits - 1) →
      ∃ v : BitVec bits, targetField bits labels index (.name l) = .ok v ∧ v.toInt = d) ∧
    (¬(-(2 ^ (bits - 1) : Int) ≤ d ∧ d < 2 ^ (bits - 1)) →
      targetField bits labels index (.name l) = .error (.outOfRange bits))

/-- R100 to R104: the canonical line of every instruction that has a source form is no pseudo-instruction and assembles to exactly
that instruction, wherever it stands and whatever labels are declared. -/
def Obligations.CanonicalLineAssemblesToItsInstruction : Prop :=
  ∀ (i : Instr) (labels : Labels) (index line : Nat), hasSourceForm i = true →
    let s : AsmLine := ⟨line, (opcodeRow i).mnemonic.toList, canonicalOperands i⟩
    lowerPseudo s = s ∧ statementInstr labels index s = .ok i
end

