-- ==== Sys2Proof/Laws/Encoding.lean ====
section
/-! SUPPORT. The splitter and the immediate fields of an encoded word, format by format (30_encoding.md R80 to R88). -/

namespace Sys2Proof

theorem splitFields_encodeR (funct7 : BitVec 7) (rs2 rs1 : BitVec 5) (funct3 : BitVec 3) (rd : BitVec 5)
    (opcode : BitVec 7) :
    splitFields (encodeR funct7 rs2 rs1 funct3 rd opcode) = ⟨opcode, rd, funct3, rs1, rs2, funct7⟩ := by
  simp only [splitFields, encodeR, Fields.mk.injEq]
  refine ⟨?_, ?_, ?_, ?_, ?_, ?_⟩ <;>
  · ext i hi
    simp only [BitVec.getElem_extractLsb']
    change @BitVec.getLsbD (7 + 5 + 5 + 3 + 5 + 7) (funct7 ++ rs2 ++ rs1 ++ funct3 ++ rd ++ opcode) _ = _
    repeat (rw [BitVec.getLsbD_append]; split; all_goals try omega)
    all_goals (simp only [← BitVec.getLsbD_eq_getElem]; try (congr 1; omega))

/-- The I layout is the R layout with the immediate in the place of funct7 and rs2. -/
theorem encodeI_eq_encodeR (imm : BitVec 12) (rs1 : BitVec 5) (funct3 : BitVec 3) (rd : BitVec 5) (opcode : BitVec 7) :
    encodeI imm rs1 funct3 rd opcode =
      encodeR (imm.extractLsb' 5 7) (imm.extractLsb' 0 5) rs1 funct3 rd opcode := by
  have h : (imm.extractLsb' 5 7 ++ imm.extractLsb' 0 5 : BitVec (7 + 5)) = imm := by
    apply BitVec.eq_of_getLsbD_eq
    intro i hi
    rw [BitVec.getLsbD_append]
    split
    · rename_i h5
      simp [h5]
    · have h7 : i - 5 < 7 := by omega
      have h5 : 5 + (i - 5) = i := by omega
      simp [h7, h5]
  exact (congrArg (fun x : BitVec 12 => encodeI x rs1 funct3 rd opcode) h).symm

/-- The S layout is the R layout with the immediate's halves in the places of funct7 and rd. -/
theorem encodeS_eq_encodeR (imm : BitVec 12) (rs2 rs1 : BitVec 5) (funct3 : BitVec 3) (opcode : BitVec 7) :
    encodeS imm rs2 rs1 funct3 opcode =
      encodeR (imm.extractLsb' 5 7) rs2 rs1 funct3 (imm.extractLsb' 0 5) opcode := rfl

/-- The halves of an I immediate's field. -/
theorem splitFields_encodeI (imm : BitVec 12) (rs1 : BitVec 5) (funct3 : BitVec 3) (rd : BitVec 5) (opcode : BitVec 7) :
    splitFields (encodeI imm rs1 funct3 rd opcode) =
      ⟨opcode, rd, funct3, rs1, imm.extractLsb' 0 5, imm.extractLsb' 5 7⟩ := by
  rw [encodeI_eq_encodeR, splitFields_encodeR]

theorem splitFields_encodeS (imm : BitVec 12) (rs2 rs1 : BitVec 5) (funct3 : BitVec 3) (opcode : BitVec 7) :
    splitFields (encodeS imm rs2 rs1 funct3 opcode) =
      ⟨opcode, imm.extractLsb' 0 5, funct3, rs1, rs2, imm.extractLsb' 5 7⟩ := by
  rw [encodeS_eq_encodeR, splitFields_encodeR]

theorem splitFields_encodeSB (imm : BitVec 13) (rs2 rs1 : BitVec 5) (funct3 : BitVec 3) (opcode : BitVec 7) :
    splitFields (encodeSB imm rs2 rs1 funct3 opcode) =
      ⟨opcode, imm.extractLsb' 1 4 ++ imm.extractLsb' 11 1, funct3, rs1, rs2,
        imm.extractLsb' 12 1 ++ imm.extractLsb' 5 6⟩ := by
  simp only [splitFields, encodeSB, Fields.mk.injEq]
  refine ⟨?_, ?_, ?_, ?_, ?_, ?_⟩ <;>
  · ext i hi
    simp only [BitVec.getElem_extractLsb']
    change @BitVec.getLsbD (1 + 6 + 5 + 5 + 3 + 4 + 1 + 7) (imm.extractLsb' 12 1 ++ imm.extractLsb' 5 6 ++ rs2 ++ rs1
      ++ funct3 ++ imm.extractLsb' 1 4 ++ imm.extractLsb' 11 1 ++ opcode) _ = _
    try rw [BitVec.getElem_append]
    try split
    all_goals repeat (rw [BitVec.getLsbD_append]; split; all_goals try omega)
    all_goals (simp only [← BitVec.getLsbD_eq_getElem]; try (congr 1; omega))

theorem splitFields_encodeU (imm : BitVec 20) (rd : BitVec 5) (opcode : BitVec 7) :
    splitFields (encodeU imm rd opcode) =
      ⟨opcode, rd, imm.extractLsb' 0 3, imm.extractLsb' 3 5, imm.extractLsb' 8 5, imm.extractLsb' 13 7⟩ := by
  simp only [splitFields, encodeU, Fields.mk.injEq]
  refine ⟨?_, ?_, ?_, ?_, ?_, ?_⟩ <;>
  · ext i hi
    simp only [BitVec.getElem_extractLsb']
    change @BitVec.getLsbD (20 + 5 + 7) (imm ++ rd ++ opcode) _ = _
    repeat (rw [BitVec.getLsbD_append]; split; all_goals try omega)
    all_goals ((try simp only [← BitVec.getLsbD_eq_getElem]); (try (congr 1; omega)))

/-- The opcode and rd of a UJ word; the other fields hold bits of the displacement. -/
theorem splitFields_encodeUJ (imm : BitVec 21) (rd : BitVec 5) (opcode : BitVec 7) :
    (splitFields (encodeUJ imm rd opcode)).opcode = opcode ∧ (splitFields (encodeUJ imm rd opcode)).rd = rd := by
  simp only [splitFields, encodeUJ]
  refine ⟨?_, ?_⟩ <;>
  · ext i hi
    simp only [BitVec.getElem_extractLsb']
    change @BitVec.getLsbD (1 + 10 + 1 + 8 + 5 + 7) (imm.extractLsb' 20 1 ++ imm.extractLsb' 1 10 ++ imm.extractLsb' 11 1
      ++ imm.extractLsb' 12 8 ++ rd ++ opcode) _ = _
    repeat (rw [BitVec.getLsbD_append]; split; all_goals try omega)
    all_goals (simp only [← BitVec.getLsbD_eq_getElem]; try (congr 1; omega))

theorem immFieldI_encodeI (imm : BitVec 12) (rs1 : BitVec 5) (funct3 : BitVec 3) (rd : BitVec 5) (opcode : BitVec 7) :
    immFieldI (encodeI imm rs1 funct3 rd opcode) = imm := by
  simp only [immFieldI, encodeI]
  ext i hi
  simp only [BitVec.getElem_extractLsb']
  change @BitVec.getLsbD (12 + 5 + 3 + 5 + 7) (imm ++ rs1 ++ funct3 ++ rd ++ opcode) _ = _
  repeat (rw [BitVec.getLsbD_append]; split; all_goals try omega)
  all_goals (simp only [← BitVec.getLsbD_eq_getElem]; try (congr 1; omega))

/-- The I immediate of a shift's word is funct7 ++ shamt (R82). -/
theorem immFieldI_encodeR (funct7 : BitVec 7) (rs2 rs1 : BitVec 5) (funct3 : BitVec 3) (rd : BitVec 5)
    (opcode : BitVec 7) : immFieldI (encodeR funct7 rs2 rs1 funct3 rd opcode) = funct7 ++ rs2 :=
  immFieldI_encodeI (funct7 ++ rs2) rs1 funct3 rd opcode

theorem immFieldS_encodeS (imm : BitVec 12) (rs2 rs1 : BitVec 5) (funct3 : BitVec 3) (opcode : BitVec 7) :
    immFieldS (encodeS imm rs2 rs1 funct3 opcode) = imm := by
  have h := splitFields_encodeS imm rs2 rs1 funct3 opcode
  simp only [splitFields, Fields.mk.injEq] at h
  rw [immFieldS, h.2.2.2.2.2, h.2.1]
  ext i hi
  change @BitVec.getLsbD (7 + 5) (imm.extractLsb' 5 7 ++ imm.extractLsb' 0 5) i = _
  rw [BitVec.getLsbD_append]
  split
  · simp only [BitVec.getLsbD_extractLsb', Nat.zero_add, BitVec.getLsbD_eq_getElem hi]
    simp; omega
  · simp only [BitVec.getLsbD_extractLsb', ← BitVec.getLsbD_eq_getElem]
    have : i - 5 < 7 := by omega
    simp only [this, decide_true, Bool.true_and]
    congr 1; omega

theorem immFieldU_encodeU (imm : BitVec 20) (rd : BitVec 5) (opcode : BitVec 7) :
    immFieldU (encodeU imm rd opcode) = imm := by
  simp only [immFieldU, encodeU]
  ext i hi
  simp only [BitVec.getElem_extractLsb']
  change @BitVec.getLsbD (20 + 5 + 7) (imm ++ rd ++ opcode) _ = _
  repeat (rw [BitVec.getLsbD_append]; split; all_goals try omega)
  all_goals (simp only [← BitVec.getLsbD_eq_getElem]; try (congr 1; omega))

/-- A branch displacement whose bit 0 is 0 is read back whole (R86). -/
theorem immFieldSB_encodeSB (imm : BitVec 13) (rs2 rs1 : BitVec 5) (funct3 : BitVec 3) (opcode : BitVec 7)
    (h : imm.getLsbD 0 = false) : immFieldSB (encodeSB imm rs2 rs1 funct3 opcode) = imm := by
  simp only [immFieldSB, encodeSB]
  ext i hi
  rw [← BitVec.getLsbD_eq_getElem hi]
  have hi' : i = 0 ∨ i = 1 ∨ i = 2 ∨ i = 3 ∨ i = 4 ∨ i = 5 ∨ i = 6 ∨ i = 7 ∨ i = 8 ∨ i = 9 ∨ i = 10 ∨ i = 11 ∨ i = 12 := by
    omega
  rcases hi' with rfl | rfl | rfl | rfl | rfl | rfl | rfl | rfl | rfl | rfl | rfl | rfl | rfl
  · rw [BitVec.getLsbD_append, if_pos (by decide), ← BitVec.getLsbD_eq_getElem, h]; rfl
  all_goals
    repeat (rw [BitVec.getLsbD_append]; simp only [Nat.reduceLT, Nat.reduceSub, if_true, if_false])
    simp only [BitVec.getLsbD_extractLsb']
    change (_ && @BitVec.getLsbD (1 + 6 + 5 + 5 + 3 + 4 + 1 + 7) _ _) = _
    repeat (rw [BitVec.getLsbD_append]; simp only [Nat.reduceLT, Nat.reduceSub, Nat.reduceAdd, if_true, if_false])
    simp

/-- A jump displacement whose bit 0 is 0 is read back whole (R88). -/
theorem immFieldUJ_encodeUJ (imm : BitVec 21) (rd : BitVec 5) (opcode : BitVec 7) (h : imm.getLsbD 0 = false) :
    immFieldUJ (encodeUJ imm rd opcode) = imm := by
  simp only [immFieldUJ, encodeUJ]
  ext i hi
  rw [← BitVec.getLsbD_eq_getElem hi]
  have hi' : i = 0 ∨ i = 1 ∨ i = 2 ∨ i = 3 ∨ i = 4 ∨ i = 5 ∨ i = 6 ∨ i = 7 ∨ i = 8 ∨ i = 9 ∨ i = 10 ∨ i = 11 ∨ i = 12 ∨
      i = 13 ∨ i = 14 ∨ i = 15 ∨ i = 16 ∨ i = 17 ∨ i = 18 ∨ i = 19 ∨ i = 20 := by
    omega
  rcases hi' with rfl | rfl | rfl | rfl | rfl | rfl | rfl | rfl | rfl | rfl | rfl | rfl | rfl | rfl | rfl | rfl | rfl | rfl |
    rfl | rfl | rfl
  · rw [BitVec.getLsbD_append, if_pos (by decide), ← BitVec.getLsbD_eq_getElem, h]; rfl
  all_goals
    repeat (rw [BitVec.getLsbD_append]; simp only [Nat.reduceLT, Nat.reduceSub, if_true, if_false])
    simp only [BitVec.getLsbD_extractLsb']
    change (_ && @BitVec.getLsbD (1 + 10 + 1 + 8 + 5 + 7) _ _) = _
    repeat (rw [BitVec.getLsbD_append]; simp only [Nat.reduceLT, Nat.reduceSub, Nat.reduceAdd, if_true, if_false])
    simp

end Sys2Proof
end

