-- ==== Sys2Proof/Laws/Memory.lean ====
section
/-! SUPPORT. The laws of a memory: what a byte reads as after each operation, for every memory, and that every operation keeps
the canonical form and the address space. -/

namespace Sys2Proof.Machine

/-! ## One byte -/

@[simp] theorem Memory.read_nil (addr : Nat) : Memory.read [] addr = Config.unsetByte := rfl

theorem Memory.read_erase (m : Memory) (addr a : Nat) :
    (m.erase addr).read a = if a = addr then Config.unsetByte else m.read a := by
  induction m with
  | nil => simp [Memory.erase]
  | cons c rest ih =>
    obtain ⟨x, b⟩ := c
    by_cases hx : x = addr
    · simp only [Memory.erase, hx, if_true, ih, Memory.read]
      by_cases ha : a = addr
      · simp [ha]
      · simp [ha, Ne.symm ha]
    · simp only [Memory.erase, hx, if_false, Memory.read, ih]
      by_cases hxa : x = a
      · subst hxa; simp [hx]
      · simp [hxa]

theorem Memory.read_insert (m : Memory) (addr a : Nat) (v : Byte) (h : m.read addr = Config.unsetByte)
    (hm : ∀ c ∈ m, c.1 ≠ addr) : (m.insert addr v).read a = if a = addr then v else m.read a := by
  induction m with
  | nil => simp [Memory.insert, Memory.read, eq_comm]
  | cons c rest ih =>
    obtain ⟨x, b⟩ := c
    have hx : x ≠ addr := hm (x, b) (by simp)
    have hrest : ∀ c ∈ rest, c.1 ≠ addr := fun c hc => hm c (by simp [hc])
    simp only [Memory.read, hx, if_false] at h
    by_cases hlt : addr < x
    · simp only [Memory.insert, hlt, if_true, Memory.read]
      by_cases ha : a = addr
      · simp [ha]
      · simp [ha, Ne.symm ha]
    · simp only [Memory.insert, hlt, if_false, Memory.read, ih h hrest]
      by_cases hxa : x = a
      · subst hxa; simp [hx]
      · simp [hxa]

theorem Memory.erase_ne (m : Memory) (addr : Nat) : ∀ c ∈ m.erase addr, c.1 ≠ addr := by
  induction m with
  | nil => simp [Memory.erase]
  | cons c rest ih =>
    obtain ⟨x, b⟩ := c
    by_cases hx : x = addr
    · simpa [Memory.erase, hx] using ih
    · intro c hc
      simp only [Memory.erase, hx, if_false, List.mem_cons] at hc
      obtain rfl | hc := hc
      · exact hx
      · exact ih c hc

/-- A byte written reads back, and every other byte reads as before (20_memory.md R71, R66). -/
theorem Memory.read_write (m : Memory) (addr a : Nat) (v : Byte) :
    (m.write addr v).read a = if a = addr then v else m.read a := by
  unfold Memory.write
  split
  · rename_i hv
    rw [Memory.read_erase, hv]
  · rw [Memory.read_insert _ _ _ _ (by simp [Memory.read_erase]) (m.erase_ne addr), Memory.read_erase]
    split <;> simp_all

theorem Memory.read_write_same (m : Memory) (addr : Nat) (v : Byte) : (m.write addr v).read addr = v := by
  simp [Memory.read_write]

theorem Memory.read_write_other (m : Memory) (addr a : Nat) (v : Byte) (h : a ≠ addr) :
    (m.write addr v).read a = m.read a := by
  simp [Memory.read_write, h]

/-! ## Several bytes -/

/-- A byte of memory after a store of w bytes: the value's byte inside the stored range, the old byte outside it
(R52, R58). -/
theorem Memory.read_writeNat (m : Memory) (addr w value a : Nat) :
    (m.writeNat addr w value).read a =
      if addr ≤ a ∧ a < addr + w then BitVec.ofNat 8 (value / 256 ^ (a - addr)) else m.read a := by
  induction w generalizing m addr value with
  | zero =>
    simp [Memory.writeNat]
  | succ w ih =>
    simp only [Memory.writeNat, ih, Memory.read_write]
    by_cases ha : a = addr
    · subst ha
      simp
    · by_cases hin : addr + 1 ≤ a ∧ a < addr + 1 + w
      · have hin' : addr ≤ a ∧ a < addr + (w + 1) := by omega
        simp only [hin, hin', if_true, and_self]
        have : a - addr = (a - (addr + 1)) + 1 := by omega
        rw [this, Nat.pow_succ', Nat.div_div_eq_div_mul]
      · have hin' : ¬(addr ≤ a ∧ a < addr + (w + 1)) := by omega
        rw [if_neg hin, if_neg hin', if_neg ha]

/-- A read of w bytes depends on those bytes alone. -/
theorem Memory.readNat_congr (m n : Memory) (addr w : Nat)
    (h : ∀ a, addr ≤ a → a < addr + w → m.read a = n.read a) : m.readNat addr w = n.readNat addr w := by
  induction w generalizing addr with
  | zero => rfl
  | succ w ih =>
    simp only [Memory.readNat]
    rw [h addr (by omega) (by omega), ih (addr + 1) fun a h1 h2 => h a (by omega) (by omega)]

/-- w bytes make a number below 2^(8w) (R51). -/
theorem Memory.readNat_lt (m : Memory) (addr w : Nat) : m.readNat addr w < 2 ^ (8 * w) := by
  induction w generalizing addr with
  | zero => simp [Memory.readNat]
  | succ w ih =>
    have h1 := ih (addr + 1)
    have h2 := (m.read addr).isLt
    have h3 : 2 ^ (8 * (w + 1)) = 256 * 2 ^ (8 * w) := by rw [Nat.mul_add, Nat.pow_add]; omega
    simp only [Memory.readNat]
    omega

/-! ## The canonical form -/

theorem Memory.rising_iff (m : Memory) : m.rising = true ↔ m.Pairwise fun x y => x.1 < y.1 := by
  induction m with
  | nil => simp [Memory.rising]
  | cons a rest ih =>
    cases rest with
    | nil => simp [Memory.rising]
    | cons b rest =>
      simp only [Memory.rising, Bool.and_eq_true, decide_eq_true_eq, ih, List.pairwise_cons, List.mem_cons]
      constructor
      · rintro ⟨hab, hb, hr⟩
        exact ⟨fun c hc => hc.elim (fun e => e ▸ hab) fun hc => lt_trans hab (hb c hc), hb, hr⟩
      · rintro ⟨ha, hb, hr⟩
        exact ⟨ha b (.inl rfl), hb, hr⟩

theorem Memory.wf_iff (m : Memory) :
    m.wf = true ↔ (m.Pairwise fun x y => x.1 < y.1) ∧ ∀ c ∈ m, c.2 ≠ Config.unsetByte := by
  simp [Memory.wf, Memory.rising_iff]

theorem Memory.mem_of_mem_erase (m : Memory) (addr : Nat) (c : Host.Cell) (h : c ∈ m.erase addr) : c ∈ m := by
  induction m with
  | nil => simp [Memory.erase] at h
  | cons d rest ih =>
    obtain ⟨x, b⟩ := d
    by_cases hx : x = addr
    · simp only [Memory.erase, hx, if_true] at h
      exact List.mem_cons_of_mem _ (ih h)
    · simp only [Memory.erase, hx, if_false, List.mem_cons] at h
      exact h.elim (fun e => by simp [e]) fun h => List.mem_cons_of_mem _ (ih h)

theorem Memory.mem_insert (m : Memory) (addr : Nat) (v : Byte) (c : Host.Cell) :
    c ∈ m.insert addr v ↔ c = (addr, v) ∨ c ∈ m := by
  induction m with
  | nil => simp [Memory.insert]
  | cons d rest ih =>
    obtain ⟨x, b⟩ := d
    simp only [Memory.insert]
    split
    · simp
    · simp only [List.mem_cons, ih]
      tauto

theorem Memory.erase_wf (m : Memory) (addr : Nat) (h : m.wf = true) : (m.erase addr).wf = true := by
  induction m with
  | nil => exact h
  | cons d rest ih =>
    obtain ⟨x, b⟩ := d
    rw [Memory.wf_iff, List.pairwise_cons] at h
    have hrest : Memory.wf rest = true :=
      (Memory.wf_iff rest).2 ⟨h.1.2, fun c hc => h.2 c (List.mem_cons_of_mem _ hc)⟩
    have := (Memory.wf_iff _).1 (ih hrest)
    by_cases hx : x = addr
    · simpa [Memory.erase, hx] using ih hrest
    · rw [Memory.wf_iff]
      simp only [Memory.erase, hx, if_false, List.pairwise_cons, List.mem_cons]
      exact ⟨⟨fun c hc => h.1.1 c (Memory.mem_of_mem_erase _ _ _ hc), this.1⟩,
        fun c hc => hc.elim (fun e => e ▸ h.2 (x, b) (by simp)) fun hc => this.2 c hc⟩

theorem Memory.insert_wf (m : Memory) (addr : Nat) (v : Byte) (h : m.wf = true) (hv : v ≠ Config.unsetByte)
    (hm : ∀ c ∈ m, c.1 ≠ addr) : (m.insert addr v).wf = true := by
  induction m with
  | nil => simp [Memory.wf_iff, Memory.insert, hv]
  | cons d rest ih =>
    obtain ⟨x, b⟩ := d
    have h' := h
    rw [Memory.wf_iff, List.pairwise_cons] at h
    have hrest : Memory.wf rest = true :=
      (Memory.wf_iff rest).2 ⟨h.1.2, fun c hc => h.2 c (List.mem_cons_of_mem _ hc)⟩
    have hx : x ≠ addr := hm (x, b) (by simp)
    have ih := (Memory.wf_iff _).1 (ih hrest fun c hc => hm c (List.mem_cons_of_mem _ hc))
    rw [Memory.wf_iff]
    by_cases hlt : addr < x
    · simp only [Memory.insert, hlt, if_true, List.pairwise_cons, List.mem_cons]
      refine ⟨⟨?_, h.1.1, h.1.2⟩, ?_⟩
      · rintro c (rfl | hc)
        · exact hlt
        · exact lt_trans hlt (h.1.1 c hc)
      · rintro c (rfl | hc)
        · exact hv
        · exact h.2 c (by simpa using hc)
    · simp only [Memory.insert, hlt, if_false, List.pairwise_cons, List.mem_cons]
      refine ⟨⟨?_, ih.1⟩, ?_⟩
      · intro c hc
        obtain rfl | hc := (Memory.mem_insert _ _ _ _).1 hc
        · show x < addr
          omega
        · exact h.1.1 c hc
      · rintro c (rfl | hc)
        · exact h.2 (x, b) (by simp)
        · exact ih.2 c hc

/-- Writing a byte keeps the canonical form. -/
theorem Memory.write_wf (m : Memory) (addr : Nat) (v : Byte) (h : m.wf = true) : (m.write addr v).wf = true := by
  unfold Memory.write
  split
  · exact m.erase_wf addr h
  · rename_i hv
    exact Memory.insert_wf _ _ _ (m.erase_wf addr h) hv (m.erase_ne addr)

/-- Storing several bytes keeps the canonical form. -/
theorem Memory.writeNat_wf (m : Memory) (addr w value : Nat) (h : m.wf = true) :
    (m.writeNat addr w value).wf = true := by
  induction w generalizing m addr value with
  | zero => exact h
  | succ w ih => exact ih _ _ _ (m.write_wf _ _ h)

/-- Writing a byte of the address space lists no address outside it. -/
theorem Memory.write_within (size : Nat) (m : Memory) (addr : Nat) (v : Byte) (h : m.within size = true)
    (ha : addr < size) : (m.write addr v).within size = true := by
  simp only [Memory.within, List.all_eq_true, decide_eq_true_eq] at *
  unfold Memory.write
  split
  · exact fun c hc => h c (Memory.mem_of_mem_erase _ _ _ hc)
  · intro c hc
    obtain rfl | hc := (Memory.mem_insert _ _ _ _).1 hc
    · exact ha
    · exact h c (Memory.mem_of_mem_erase _ _ _ hc)

/-- Storing bytes of the address space lists no address outside it. -/
theorem Memory.writeNat_within (size : Nat) (m : Memory) (addr w value : Nat) (h : m.within size = true)
    (ha : addr + w ≤ size) : (m.writeNat addr w value).within size = true := by
  induction w generalizing m addr value with
  | zero => exact h
  | succ w ih => exact ih _ _ _ (Memory.write_within _ _ _ _ h (by omega)) (by omega)

/-! ## The checked accesses -/

/-- A load answers exactly when its bytes lie in the memory (R51). -/
theorem loadBytes_ok_iff (id : MemoryId) (pc : Word) (m : Memory) (addr w : Nat) (v : BitVec (8 * w)) :
    loadBytes id pc m addr w = .ok v ↔
      addr + w ≤ memorySize id ∧ v = BitVec.ofNat (8 * w) (m.readNat addr w) := by
  unfold loadBytes
  split
  · simp; omega
  · simp only [Except.ok.injEq]
    constructor
    · rintro rfl; exact ⟨by omega, rfl⟩
    · rintro ⟨_, rfl⟩; rfl

/-- A load fails only by range, and its record names the access (R51, 60_exceptions.md R260). -/
theorem loadBytes_error_iff (id : MemoryId) (pc : Word) (m : Memory) (addr w : Nat) (f : Fatal) :
    loadBytes id pc m addr w = .error f ↔ memorySize id < addr + w ∧ f = .memoryRange id addr w pc := by
  unfold loadBytes
  split
  · simp only [Except.error.injEq]
    constructor
    · rintro rfl; exact ⟨by omega, rfl⟩
    · rintro ⟨_, rfl⟩; rfl
  · simp; omega

/-- A store answers exactly when its bytes lie in the memory and its value fits (R52). -/
theorem storeBytes_ok_iff (id : MemoryId) (pc : Word) (m m' : Memory) (addr w value : Nat) :
    storeBytes id pc m addr w value = .ok m' ↔
      addr + w ≤ memorySize id ∧ value < 2 ^ (8 * w) ∧ m' = m.writeNat addr w value := by
  unfold storeBytes
  split
  · simp; omega
  · split
    · simp; omega
    · simp only [Except.ok.injEq]
      constructor
      · rintro rfl; exact ⟨by omega, by omega, rfl⟩
      · rintro ⟨_, _, rfl⟩; rfl

/-- A store of an 8w-bit value fails only by range (R52, R55). -/
theorem storeBytes_error_iff (id : MemoryId) (pc : Word) (m : Memory) (addr w : Nat) (v : BitVec (8 * w)) (f : Fatal) :
    storeBytes id pc m addr w v.toNat = .error f ↔
      memorySize id < addr + w ∧ f = .memoryRange id addr w pc := by
  have hv := v.isLt
  unfold storeBytes
  split
  · simp only [Except.error.injEq]
    constructor
    · rintro rfl; exact ⟨by omega, rfl⟩
    · rintro ⟨_, rfl⟩; rfl
  · have : ¬ v.toNat ≥ 2 ^ (8 * w) := by omega
    simp [this]; omega

/-- A checked store keeps the canonical form, inside the memory's address space. -/
theorem storeBytes_wf (id : MemoryId) (pc : Word) (m m' : Memory) (addr w value : Nat)
    (hs : storeBytes id pc m addr w value = .ok m') (h : m.wf = true ∧ m.within (memorySize id) = true) :
    m'.wf = true ∧ m'.within (memorySize id) = true := by
  obtain ⟨hr, -, rfl⟩ := (storeBytes_ok_iff _ _ _ _ _ _ _).1 hs
  exact ⟨m.writeNat_wf _ _ _ h.1, m.writeNat_within _ _ _ _ h.2 hr⟩

/-- So does storing an array. -/
theorem storeArray_wf (id : MemoryId) (pc : Word) (values : List Nat) (m m' : Memory) (addr w : Nat)
    (hs : storeArray id pc m addr w values = .ok m') (h : m.wf = true ∧ m.within (memorySize id) = true) :
    m'.wf = true ∧ m'.within (memorySize id) = true := by
  induction values generalizing m addr with
  | nil => cases hs; exact h
  | cons v vs ih =>
    simp only [storeArray] at hs
    split at hs
    · cases hs
    · rename_i m₁ h₁
      exact ih _ _ hs (storeBytes_wf _ _ _ _ _ _ _ h₁ h)

end Sys2Proof.Machine
end

