-- ==== Sys2Proof/Laws/State.lean ====
section
/-! SUPPORT. What each update of the state does to each field, so that no proof unfolds a record update, and what a register
read gives after each update. -/

namespace Sys2Proof.Machine

/-! ## State.setReg -/

@[simp] theorem State.setReg_pc (s : State) (r : RegIdx) (v : Word) : (s.setReg r v).pc = s.pc := by
  unfold State.setReg; split <;> rfl

@[simp] theorem State.setReg_imem (s : State) (r : RegIdx) (v : Word) : (s.setReg r v).imem = s.imem := by
  unfold State.setReg; split <;> rfl

@[simp] theorem State.setReg_dmem (s : State) (r : RegIdx) (v : Word) : (s.setReg r v).dmem = s.dmem := by
  unfold State.setReg; split <;> rfl

@[simp] theorem State.setReg_codeLen (s : State) (r : RegIdx) (v : Word) : (s.setReg r v).codeLen = s.codeLen := by
  unfold State.setReg; split <;> rfl

@[simp] theorem State.setReg_sig (s : State) (r : RegIdx) (v : Word) : (s.setReg r v).sig = s.sig := by
  unfold State.setReg; split <;> rfl

@[simp] theorem State.setReg_status (s : State) (r : RegIdx) (v : Word) : (s.setReg r v).status = s.status := by
  unfold State.setReg; split <;> rfl

@[simp] theorem State.setReg_zero (s : State) (v : Word) : s.setReg 0#5 v = s := by
  simp [State.setReg]

/-! ## State.reg -/

@[simp] theorem State.reg_zero (s : State) : s.reg 0#5 = 0#32 := by
  simp [State.reg]

theorem State.reg_setReg (s : State) (rd r : RegIdx) (v : Word) :
    (s.setReg rd v).reg r = if r = rd ∧ r ≠ 0#5 then v else s.reg r := by
  unfold State.setReg State.reg
  by_cases hr : r = 0#5
  · simp [hr]
  · by_cases hd : rd = 0#5
    · have : r ≠ rd := fun h => hr (h.trans hd)
      simp [hd, hr]
    · by_cases h : r = rd
      · subst h; simp [hr]
      · have : rd.toNat ≠ r.toNat := fun e => h (BitVec.eq_of_toNat_eq e.symm)
        simp [hr, hd, h, Vector.getElem_set_ne, this]

theorem State.reg_setReg_same (s : State) (rd : RegIdx) (v : Word) (h : rd ≠ 0#5) : (s.setReg rd v).reg rd = v := by
  simp [State.reg_setReg, h]

theorem State.reg_setReg_other (s : State) (rd r : RegIdx) (v : Word) (h : r ≠ rd) :
    (s.setReg rd v).reg r = s.reg r := by
  simp [State.reg_setReg, h]

/-- A read looks at nothing but the register file. -/
theorem State.reg_congr {s t : State} (h : s.regs = t.regs) (r : RegIdx) : s.reg r = t.reg r := by
  simp [State.reg, h]

@[simp] theorem State.reg_dmem_update (s : State) (m : Memory) (r : RegIdx) :
    ({ s with dmem := m } : State).reg r = s.reg r := rfl

/-! ## State.retire -/

@[simp] theorem State.retire_pc (s : State) (p : Word) (g : Signals) : (s.retire p g).pc = p := rfl

@[simp] theorem State.retire_regs (s : State) (p : Word) (g : Signals) : (s.retire p g).regs = s.regs := rfl

@[simp] theorem State.retire_imem (s : State) (p : Word) (g : Signals) : (s.retire p g).imem = s.imem := rfl

@[simp] theorem State.retire_dmem (s : State) (p : Word) (g : Signals) : (s.retire p g).dmem = s.dmem := rfl

@[simp] theorem State.retire_codeLen (s : State) (p : Word) (g : Signals) : (s.retire p g).codeLen = s.codeLen := rfl

@[simp] theorem State.retire_sig (s : State) (p : Word) (g : Signals) : (s.retire p g).sig = g := rfl

@[simp] theorem State.retire_status (s : State) (p : Word) (g : Signals) :
    (s.retire p g).status = if isDoneAt p s.codeLen then .done else .running := rfl

@[simp] theorem State.reg_retire (s : State) (p : Word) (g : Signals) (r : RegIdx) :
    (s.retire p g).reg r = s.reg r := rfl

/-! ## State.enterFaulted -/

@[simp] theorem State.enterFaulted_pc (s : State) (f : Fatal) : (s.enterFaulted f).pc = s.pc := rfl

@[simp] theorem State.enterFaulted_regs (s : State) (f : Fatal) : (s.enterFaulted f).regs = s.regs := rfl

@[simp] theorem State.enterFaulted_imem (s : State) (f : Fatal) : (s.enterFaulted f).imem = s.imem := rfl

@[simp] theorem State.enterFaulted_dmem (s : State) (f : Fatal) : (s.enterFaulted f).dmem = s.dmem := rfl

@[simp] theorem State.enterFaulted_codeLen (s : State) (f : Fatal) : (s.enterFaulted f).codeLen = s.codeLen := rfl

@[simp] theorem State.enterFaulted_sig (s : State) (f : Fatal) : (s.enterFaulted f).sig = s.sig := rfl

@[simp] theorem State.enterFaulted_status (s : State) (f : Fatal) : (s.enterFaulted f).status = .faulted f := rfl

end Sys2Proof.Machine
end

