-- ==== Sys2Proof/Laws/Exec.lean ====
section
/-! SUPPORT. What each shared operation of the meanings can answer, said once, and then what an instruction and a step can
answer. -/

namespace Sys2Proof.Machine

/-! ## The shared operations -/

theorem complete_next_iff (i : Instr) (memData : Word) (before after : State) (nextPC : Word) (t : State) :
    complete i memData before after nextPC = .next t ↔ t = after.retire nextPC (signalsOf i memData before) := by
  simp [complete, eq_comm]

/-- MemRead answers the little-endian bytes where all of them lie in the data memory, else MemoryRange (R51, R56). -/
theorem State.memRead_eq (s : State) (addr : Word) (n : Nat) :
    s.memRead addr n =
      if addr.toNat + n ≤ 2 ^ 32 then .ok (BitVec.ofNat (8 * n) (s.dmem.readNat addr.toNat n))
      else .error (.memoryRange .data addr.toNat n s.pc) := by
  unfold State.memRead loadBytes
  by_cases h : addr.toNat + n ≤ 2 ^ 32
  · rw [if_neg (by have : memorySize .data = 2 ^ 32 := rfl; omega), if_pos h]
  · rw [if_pos (by have : memorySize .data = 2 ^ 32 := rfl; omega), if_neg h]

/-- MemWrite stores the bytes where all of them lie in the data memory, else MemoryRange (R52, R56). -/
theorem State.memWrite_eq (s : State) (addr : Word) (n : Nat) (v : BitVec (8 * n)) :
    s.memWrite addr n v =
      if addr.toNat + n ≤ 2 ^ 32 then .ok (s.dmem.writeNat addr.toNat n v.toNat)
      else .error (.memoryRange .data addr.toNat n s.pc) := by
  have hv := v.isLt
  unfold State.memWrite storeBytes
  by_cases h : addr.toNat + n ≤ 2 ^ 32
  · rw [if_neg (by have : memorySize .data = 2 ^ 32 := rfl; omega), if_neg (by omega), if_pos h]
  · rw [if_pos (by have : memorySize .data = 2 ^ 32 := rfl; omega), if_neg h]

/-- Everything a load can do: out of range it is fatal, else it writes the extended value to rd. -/
theorem loadTo_eq (i : Instr) (n : Nat) (signed : Bool) (rd rs1 : RegIdx) (imm : BitVec 12) (s : State) :
    loadTo i n signed rd rs1 imm s =
      if (effectiveAddress s rs1 imm).toNat + n ≤ 2 ^ 32 then
        let v : BitVec (8 * n) := BitVec.ofNat (8 * n) (s.dmem.readNat (effectiveAddress s rs1 imm).toNat n)
        complete i (extendLoaded signed v) s (s.setReg rd (extendLoaded signed v)) (pcPlus4 s.pc)
      else .fault (.fatal (.memoryRange .data (effectiveAddress s rs1 imm).toNat n s.pc)) := by
  unfold loadTo
  rw [State.memRead_eq]
  by_cases h : (effectiveAddress s rs1 imm).toNat + n ≤ 2 ^ 32
  · rw [if_pos h, if_pos h]
  · rw [if_neg h, if_neg h]

/-- Everything a store can do: out of range it is fatal, else it writes the low 8n bits of x[rs2]. -/
theorem storeFrom_eq (i : Instr) (n : Nat) (size : BitVec 2) (rs2 rs1 : RegIdx) (imm : BitVec 12) (s : State) :
    storeFrom i n size rs2 rs1 imm s =
      if (effectiveAddress s rs1 imm).toNat + n ≤ 2 ^ 32 then
        complete i (Config.storeReadData s.dmem (effectiveAddress s rs1 imm) (s.reg rs2) size true) s
          { s with dmem := s.dmem.writeNat (effectiveAddress s rs1 imm).toNat n ((s.reg rs2).setWidth (8 * n)).toNat }
          (pcPlus4 s.pc)
      else .fault (.fatal (.memoryRange .data (effectiveAddress s rs1 imm).toNat n s.pc)) := by
  unfold storeFrom
  simp only [State.memWrite_eq]
  by_cases h : (effectiveAddress s rs1 imm).toNat + n ≤ 2 ^ 32
  · rw [if_pos h, if_pos h]
  · rw [if_neg h, if_neg h]

/-! ## What an instruction can do to the state -/

/-- The state with the one write an instruction makes before the PC is loaded: none, one register, or n bytes of data memory
inside its address space. -/
inductive InstrWrite (s : State) : State → Prop where
  | nothing : InstrWrite s s
  | register (rd : RegIdx) (v : Word) : InstrWrite s (s.setReg rd v)
  | memory (addr n value : Nat) (h : addr + n ≤ 2 ^ 32) : InstrWrite s { s with dmem := s.dmem.writeNat addr n value }

/-- Every next state an instruction gives: its one write, then the PC, the signals and the status. -/
theorem exec_next (i : Instr) (s t : State) (h : exec i s = .next t) :
    ∃ after memData nextPC, InstrWrite s after ∧ t = after.retire nextPC (signalsOf i memData s) := by
  have key : ∀ (memData : Word) (after : State) (nextPC : Word), InstrWrite s after →
      complete i memData s after nextPC = .next t →
      ∃ after memData nextPC, InstrWrite s after ∧ t = after.retire nextPC (signalsOf i memData s) :=
    fun memData after nextPC ha hc => ⟨after, memData, nextPC, ha, (complete_next_iff _ _ _ _ _ _).1 hc⟩
  have load : ∀ (n : Nat) (signed : Bool) (rd rs1 : RegIdx) (imm : BitVec 12),
      loadTo i n signed rd rs1 imm s = .next t →
      ∃ after memData nextPC, InstrWrite s after ∧ t = after.retire nextPC (signalsOf i memData s) := by
    intro n signed rd rs1 imm hl
    rw [loadTo_eq] at hl
    split at hl
    · exact key _ _ _ (.register _ _) hl
    · cases hl
  have store : ∀ (n : Nat) (size : BitVec 2) (rs2 rs1 : RegIdx) (imm : BitVec 12),
      storeFrom i n size rs2 rs1 imm s = .next t →
      ∃ after memData nextPC, InstrWrite s after ∧ t = after.retire nextPC (signalsOf i memData s) := by
    intro n size rs2 rs1 imm hl
    rw [storeFrom_eq] at hl
    split at hl
    · rename_i hr
      exact key _ _ _ (.memory _ _ _ hr) hl
    · cases hl
  cases i with
  | add _ _ _ | sub _ _ _ | sll _ _ _ | slt _ _ _ | sltu _ _ _ | xor _ _ _ | srl _ _ _ | sra _ _ _ | or _ _ _
  | and _ _ _ => exact key _ _ _ (.register _ _) h
  | addi _ _ _ | slti _ _ _ | sltiu _ _ _ | xori _ _ _ | ori _ _ _ | andi _ _ _ | slli _ _ _ | srli _ _ _
  | srai _ _ _ => exact key _ _ _ (.register _ _) h
  | lui _ _ | auipc _ _ => exact key _ _ _ (.register _ _) h
  | lb _ _ _ | lh _ _ _ | lw _ _ _ | lbu _ _ _ | lhu _ _ _ => exact load _ _ _ _ _ h
  | sb _ _ _ | sh _ _ _ | sw _ _ _ => exact store _ _ _ _ _ h
  | beq _ _ _ | bne _ _ _ | blt _ _ _ | bge _ _ _ | bltu _ _ _ | bgeu _ _ _ => exact key _ _ _ .nothing h
  | jal _ _ | jalr _ _ _ => exact key _ _ _ (.register _ _) h
  | ecall _ _ | ebreak _ _ => exact key _ _ _ .nothing h

/-- Every step that gives a next state runs the decoded instruction of the word at the PC. -/
theorem step_next (s t : State) (h : step s = .next t) :
    ∃ inst i, s.fetch = .ok inst ∧ decode inst = .ok i ∧ exec i s = .next t := by
  unfold step at h
  split at h
  · cases h
  · split at h
    · cases h
    · rename_i inst hf
      split at h
      · cases h
      · rename_i i hd
        exact ⟨inst, i, hf, hd, h⟩

/-- A fetch reads the four bytes at the PC where they lie in the instruction memory, else MemoryRange (R54). -/
theorem State.fetch_eq (s : State) :
    s.fetch =
      if s.pc.toNat + 4 ≤ 2 ^ 32 then .ok (BitVec.ofNat 32 (s.imem.readNat s.pc.toNat 4))
      else .error (.memoryRange .instruction s.pc.toNat 4 s.pc) := by
  unfold State.fetch loadBytes
  by_cases h : s.pc.toNat + 4 ≤ 2 ^ 32
  · rw [if_neg (by have : memorySize .instruction = 2 ^ 32 := rfl; omega), if_pos h]
  · rw [if_pos (by have : memorySize .instruction = 2 ^ 32 := rfl; omega), if_neg h]

/-! ## The host's moves -/

/-- A move that writes succeeds exactly before the first tick, with the write's own answer (R309). -/
theorem beforeFirstTick_ok_iff (s t : State) (written : Except Fatal State) :
    beforeFirstTick s written = .ok t ↔ s.status = .constructed ∧ written = .ok t := by
  cases h : s.status <;> cases written <;> simp [beforeFirstTick, h]

/-- A register map changes the register file alone (R303). -/
theorem writeRegisters_frame (s : State) (regMap : List (RegIdx × Word)) :
    ∃ regs, writeRegisters s regMap = { s with regs := regs } := by
  induction regMap generalizing s with
  | nil => exact ⟨s.regs, rfl⟩
  | cons e rest ih =>
    obtain ⟨regs, h⟩ := ih (s.setReg e.1 e.2)
    refine ⟨regs, h.trans ?_⟩
    unfold State.setReg
    split <;> rfl

/-- Everything a tick can do: the step's next state, the fatal condition recorded, or nothing (R261, R37). -/
theorem tick_cases (s : State) :
    (∃ t, step s = .next t ∧ tick s = t) ∨ (∃ f, step s = .fault (.fatal f) ∧ tick s = s.enterFaulted f) ∨
    (∃ f, step s = .fault (.faultedCore f) ∧ tick s = s) ∨ ∃ r, step s = .refused r ∧ tick s = s := by
  unfold tick
  split
  · exact .inl ⟨_, ‹_›, rfl⟩
  · exact .inr (.inl ⟨_, ‹_›, rfl⟩)
  · exact .inr (.inr (.inl ⟨_, ‹_›, rfl⟩))
  · exact .inr (.inr (.inr ⟨_, ‹_›, rfl⟩))

end Sys2Proof.Machine
end

