-- ==== Sys2Proof/Laws/PerInstr.lean ====
section
/-! SUPPORT. A statement about every instruction as syntax, with one lemma per constructor: its word is one of the words of its
own row of spec/opcode_table.json. -/

namespace Sys2Proof.Laws.TableRow

/-- The instruction's word is one of its row's words: the row's fixed bits stand in it. -/
def Statement (i : Instr) : Prop := (opcodeRow i).admits (encode i) = true

theorem encodeR_and (f7 f7' : BitVec 7) (b b' a a' : BitVec 5) (f3 f3' : BitVec 3) (d d' : BitVec 5) (o o' : BitVec 7) :
    encodeR f7 b a f3 d o &&& encodeR f7' b' a' f3' d' o' =
      encodeR (f7 &&& f7') (b &&& b') (a &&& a') (f3 &&& f3') (d &&& d') (o &&& o') := by
  unfold encodeR
  change (_ : BitVec (7 + 5 + 5 + 3 + 5 + 7)) = _
  rw [← BitVec.and_append, ← BitVec.and_append, ← BitVec.and_append, ← BitVec.and_append, ← BitVec.and_append]

/-- Every word is an R layout of its six fields (R80). -/
theorem encodeR_splitFields (w : Word) :
    encodeR (splitFields w).funct7 (splitFields w).rs2 (splitFields w).rs1 (splitFields w).funct3 (splitFields w).rd
      (splitFields w).opcode = w := by
  apply BitVec.eq_of_getLsbD_eq
  intro i hi
  simp only [encodeR, splitFields]
  change @BitVec.getLsbD (7 + 5 + 5 + 3 + 5 + 7) _ i = _
  simp only [BitVec.getLsbD_append, BitVec.getLsbD_extractLsb']
  split_ifs <;>
  · rw [decide_eq_true (by omega), Bool.true_and]
    congr 1; omega

/-! The fixed bits of a word under each of the table's four masks, by the fields the splitter gives. -/

theorem fixed_funct7 (w : Word) :
    w &&& 0xFE00707F#32 = encodeR (splitFields w).funct7 0#5 0#5 (splitFields w).funct3 0#5 (splitFields w).opcode := by
  have h : 0xFE00707F#32 = encodeR (BitVec.allOnes 7) 0#5 0#5 (BitVec.allOnes 3) 0#5 (BitVec.allOnes 7) := by decide
  conv_lhs => rw [← encodeR_splitFields w, h, encodeR_and]
  simp only [BitVec.and_allOnes, BitVec.and_zero]

theorem fixed_funct3 (w : Word) :
    w &&& 0x0000707F#32 = encodeR 0#7 0#5 0#5 (splitFields w).funct3 0#5 (splitFields w).opcode := by
  have h : 0x0000707F#32 = encodeR 0#7 0#5 0#5 (BitVec.allOnes 3) 0#5 (BitVec.allOnes 7) := by decide
  conv_lhs => rw [← encodeR_splitFields w, h, encodeR_and]
  simp only [BitVec.and_allOnes, BitVec.and_zero]

theorem fixed_opcode (w : Word) :
    w &&& 0x0000007F#32 = encodeR 0#7 0#5 0#5 0#3 0#5 (splitFields w).opcode := by
  have h : 0x0000007F#32 = encodeR 0#7 0#5 0#5 0#3 0#5 (BitVec.allOnes 7) := by decide
  conv_lhs => rw [← encodeR_splitFields w, h, encodeR_and]
  simp only [BitVec.and_allOnes, BitVec.and_zero]

theorem fixed_imm (w : Word) :
    w &&& 0xFFF0707F#32 = encodeR (splitFields w).funct7 (splitFields w).rs2 0#5 (splitFields w).funct3 0#5 (splitFields w).opcode := by
  have h : 0xFFF0707F#32 = encodeR (BitVec.allOnes 7) (BitVec.allOnes 5) 0#5 (BitVec.allOnes 3) 0#5 (BitVec.allOnes 7) := by decide
  conv_lhs => rw [← encodeR_splitFields w, h, encodeR_and]
  simp only [BitVec.and_allOnes, BitVec.and_zero]

theorem add (rd rs1 rs2 : RegIdx) : Statement (.add rd rs1 rs2) := by
  simp only [Statement, OpcodeRow.admits, opcodeRow, encode, fixed_funct7, splitFields_encodeR]; decide

theorem sub (rd rs1 rs2 : RegIdx) : Statement (.sub rd rs1 rs2) := by
  simp only [Statement, OpcodeRow.admits, opcodeRow, encode, fixed_funct7, splitFields_encodeR]; decide

theorem sll (rd rs1 rs2 : RegIdx) : Statement (.sll rd rs1 rs2) := by
  simp only [Statement, OpcodeRow.admits, opcodeRow, encode, fixed_funct7, splitFields_encodeR]; decide

theorem slt (rd rs1 rs2 : RegIdx) : Statement (.slt rd rs1 rs2) := by
  simp only [Statement, OpcodeRow.admits, opcodeRow, encode, fixed_funct7, splitFields_encodeR]; decide

theorem sltu (rd rs1 rs2 : RegIdx) : Statement (.sltu rd rs1 rs2) := by
  simp only [Statement, OpcodeRow.admits, opcodeRow, encode, fixed_funct7, splitFields_encodeR]; decide

theorem xor (rd rs1 rs2 : RegIdx) : Statement (.xor rd rs1 rs2) := by
  simp only [Statement, OpcodeRow.admits, opcodeRow, encode, fixed_funct7, splitFields_encodeR]; decide

theorem srl (rd rs1 rs2 : RegIdx) : Statement (.srl rd rs1 rs2) := by
  simp only [Statement, OpcodeRow.admits, opcodeRow, encode, fixed_funct7, splitFields_encodeR]; decide

theorem sra (rd rs1 rs2 : RegIdx) : Statement (.sra rd rs1 rs2) := by
  simp only [Statement, OpcodeRow.admits, opcodeRow, encode, fixed_funct7, splitFields_encodeR]; decide

theorem or (rd rs1 rs2 : RegIdx) : Statement (.or rd rs1 rs2) := by
  simp only [Statement, OpcodeRow.admits, opcodeRow, encode, fixed_funct7, splitFields_encodeR]; decide

theorem and (rd rs1 rs2 : RegIdx) : Statement (.and rd rs1 rs2) := by
  simp only [Statement, OpcodeRow.admits, opcodeRow, encode, fixed_funct7, splitFields_encodeR]; decide

theorem addi (rd rs1 : RegIdx) (imm : BitVec 12) : Statement (.addi rd rs1 imm) := by
  simp only [Statement, OpcodeRow.admits, opcodeRow, encode, fixed_funct3, splitFields_encodeI]; decide

theorem slti (rd rs1 : RegIdx) (imm : BitVec 12) : Statement (.slti rd rs1 imm) := by
  simp only [Statement, OpcodeRow.admits, opcodeRow, encode, fixed_funct3, splitFields_encodeI]; decide

theorem sltiu (rd rs1 : RegIdx) (imm : BitVec 12) : Statement (.sltiu rd rs1 imm) := by
  simp only [Statement, OpcodeRow.admits, opcodeRow, encode, fixed_funct3, splitFields_encodeI]; decide

theorem xori (rd rs1 : RegIdx) (imm : BitVec 12) : Statement (.xori rd rs1 imm) := by
  simp only [Statement, OpcodeRow.admits, opcodeRow, encode, fixed_funct3, splitFields_encodeI]; decide

theorem ori (rd rs1 : RegIdx) (imm : BitVec 12) : Statement (.ori rd rs1 imm) := by
  simp only [Statement, OpcodeRow.admits, opcodeRow, encode, fixed_funct3, splitFields_encodeI]; decide

theorem andi (rd rs1 : RegIdx) (imm : BitVec 12) : Statement (.andi rd rs1 imm) := by
  simp only [Statement, OpcodeRow.admits, opcodeRow, encode, fixed_funct3, splitFields_encodeI]; decide

theorem slli (rd rs1 : RegIdx) (shamt : BitVec 5) : Statement (.slli rd rs1 shamt) := by
  simp only [Statement, OpcodeRow.admits, opcodeRow, encode, fixed_funct7, splitFields_encodeR]; decide

theorem srli (rd rs1 : RegIdx) (shamt : BitVec 5) : Statement (.srli rd rs1 shamt) := by
  simp only [Statement, OpcodeRow.admits, opcodeRow, encode, fixed_funct7, splitFields_encodeR]; decide

theorem srai (rd rs1 : RegIdx) (shamt : BitVec 5) : Statement (.srai rd rs1 shamt) := by
  simp only [Statement, OpcodeRow.admits, opcodeRow, encode, fixed_funct7, splitFields_encodeR]; decide

theorem lui (rd : RegIdx) (imm : BitVec 20) : Statement (.lui rd imm) := by
  simp only [Statement, OpcodeRow.admits, opcodeRow, encode, fixed_opcode, splitFields_encodeU]; decide

theorem auipc (rd : RegIdx) (imm : BitVec 20) : Statement (.auipc rd imm) := by
  simp only [Statement, OpcodeRow.admits, opcodeRow, encode, fixed_opcode, splitFields_encodeU]; decide

theorem lb (rd rs1 : RegIdx) (imm : BitVec 12) : Statement (.lb rd rs1 imm) := by
  simp only [Statement, OpcodeRow.admits, opcodeRow, encode, fixed_funct3, splitFields_encodeI]; decide

theorem lh (rd rs1 : RegIdx) (imm : BitVec 12) : Statement (.lh rd rs1 imm) := by
  simp only [Statement, OpcodeRow.admits, opcodeRow, encode, fixed_funct3, splitFields_encodeI]; decide

theorem lw (rd rs1 : RegIdx) (imm : BitVec 12) : Statement (.lw rd rs1 imm) := by
  simp only [Statement, OpcodeRow.admits, opcodeRow, encode, fixed_funct3, splitFields_encodeI]; decide

theorem lbu (rd rs1 : RegIdx) (imm : BitVec 12) : Statement (.lbu rd rs1 imm) := by
  simp only [Statement, OpcodeRow.admits, opcodeRow, encode, fixed_funct3, splitFields_encodeI]; decide

theorem lhu (rd rs1 : RegIdx) (imm : BitVec 12) : Statement (.lhu rd rs1 imm) := by
  simp only [Statement, OpcodeRow.admits, opcodeRow, encode, fixed_funct3, splitFields_encodeI]; decide

theorem sb (rs2 rs1 : RegIdx) (imm : BitVec 12) : Statement (.sb rs2 rs1 imm) := by
  simp only [Statement, OpcodeRow.admits, opcodeRow, encode, fixed_funct3, splitFields_encodeS]; decide

theorem sh (rs2 rs1 : RegIdx) (imm : BitVec 12) : Statement (.sh rs2 rs1 imm) := by
  simp only [Statement, OpcodeRow.admits, opcodeRow, encode, fixed_funct3, splitFields_encodeS]; decide

theorem sw (rs2 rs1 : RegIdx) (imm : BitVec 12) : Statement (.sw rs2 rs1 imm) := by
  simp only [Statement, OpcodeRow.admits, opcodeRow, encode, fixed_funct3, splitFields_encodeS]; decide

theorem beq (rs1 rs2 : RegIdx) (offset : BitVec 13) : Statement (.beq rs1 rs2 offset) := by
  simp only [Statement, OpcodeRow.admits, opcodeRow, encode, fixed_funct3, splitFields_encodeSB]; decide

theorem bne (rs1 rs2 : RegIdx) (offset : BitVec 13) : Statement (.bne rs1 rs2 offset) := by
  simp only [Statement, OpcodeRow.admits, opcodeRow, encode, fixed_funct3, splitFields_encodeSB]; decide

theorem blt (rs1 rs2 : RegIdx) (offset : BitVec 13) : Statement (.blt rs1 rs2 offset) := by
  simp only [Statement, OpcodeRow.admits, opcodeRow, encode, fixed_funct3, splitFields_encodeSB]; decide

theorem bge (rs1 rs2 : RegIdx) (offset : BitVec 13) : Statement (.bge rs1 rs2 offset) := by
  simp only [Statement, OpcodeRow.admits, opcodeRow, encode, fixed_funct3, splitFields_encodeSB]; decide

theorem bltu (rs1 rs2 : RegIdx) (offset : BitVec 13) : Statement (.bltu rs1 rs2 offset) := by
  simp only [Statement, OpcodeRow.admits, opcodeRow, encode, fixed_funct3, splitFields_encodeSB]; decide

theorem bgeu (rs1 rs2 : RegIdx) (offset : BitVec 13) : Statement (.bgeu rs1 rs2 offset) := by
  simp only [Statement, OpcodeRow.admits, opcodeRow, encode, fixed_funct3, splitFields_encodeSB]; decide

theorem jal (rd : RegIdx) (offset : BitVec 21) : Statement (.jal rd offset) := by
  simp only [Statement, OpcodeRow.admits, opcodeRow, encode, fixed_opcode, (splitFields_encodeUJ _ _ _).1]; decide

theorem jalr (rd rs1 : RegIdx) (imm : BitVec 12) : Statement (.jalr rd rs1 imm) := by
  simp only [Statement, OpcodeRow.admits, opcodeRow, encode, fixed_funct3, splitFields_encodeI]; decide

theorem ecall (rd rs1 : RegIdx) : Statement (.ecall rd rs1) := by
  simp only [Statement, OpcodeRow.admits, opcodeRow, encode, fixed_imm, splitFields_encodeI]; decide

theorem ebreak (rd rs1 : RegIdx) : Statement (.ebreak rd rs1) := by
  simp only [Statement, OpcodeRow.admits, opcodeRow, encode, fixed_imm, splitFields_encodeI]; decide

end Sys2Proof.Laws.TableRow
end

