-- ==== Sys2Proof/Laws/Tables.lean ====
section
/-! SUPPORT. What a pattern matches (00_scope.md R11), and what each decode table answers. -/

namespace Sys2Proof.Machine

theorem patternMatches_iff {w : Nat} (p : Pattern w) (x : BitVec w) :
    patternMatches p x = true ↔ ∀ i, i < w → p.care.getLsbD i = true → x.getLsbD i = p.value.getLsbD i := by
  simp only [patternMatches, decide_eq_true_eq]
  constructor
  · intro h i hi hc
    have := congrArg (fun y : BitVec w => y.getLsbD i) h
    simpa [hc] using this
  · intro h
    apply BitVec.eq_of_getLsbD_eq
    intro i hi
    by_cases hc : p.care.getLsbD i = true
    · simp [h i hi hc]
    · simp [hc]

@[simp] theorem patternMatches_exactly {w : Nat} (v x : BitVec w) :
    patternMatches (exactly v) x = decide (x = v) := by
  simp [patternMatches, exactly]

@[simp] theorem patternMatches_anyBits {w : Nat} (x : BitVec w) : patternMatches (anyBits w) x = true := by
  simp [patternMatches, anyBits]

theorem tableMatch_controlMem (f : BitVec 3) : tableMatch1 controlMemTable f = some (memControlOf f) := by
  revert f; decide

theorem tableMatch_aluOp (op : AluOp) : tableMatch1 aluOpTable (aluCode op) = some op := by
  cases op <;> decide

end Sys2Proof.Machine
end

