-- ==== Sys2Proof/Tests/Slice0.lean ====
section
/-! SUPPORT. The model's own tests: expected results are those of the spec (95_test_vectors.md and the examples of 41 to 47), each
about one step from a launch state; then a witness for every statement that has hypotheses. -/

namespace Sys2Proof.Tests

open Sys2Proof.Machine Sys2Proof.Claims

/-! ## Helpers -/

/-- The launch state of a vector: the word as code word 0, the given registers and data bytes (95_test_vectors.md, conventions). -/
def vector (word : Nat) (regs : List (RegIdx × Word)) (data : List Host.Cell) : State :=
  match construct { code := [word], regMap := regs, dmemInit := data } with
  | .ok s => s
  | .error _ => State.reset

/-- The data memory "D" of 95_test_vectors.md section 2. -/
def vectorData : List Host.Cell := [(0x100, 0x80), (0x101, 0xFF), (0x102, 0x34), (0x103, 0x12), (0x104, 0x55)]

/-- One register and the PC after one step. -/
def regAndPc (s : State) (r : RegIdx) : Option (Word × Word) :=
  match step s with
  | .next t => some (t.reg r, t.pc)
  | _ => none

/-- Some bytes of data memory and the PC after one step. -/
def bytesAndPc (s : State) (addr n : Nat) : Option (List Byte × Word) :=
  match step s with
  | .next t => some ((List.range n).map fun k => t.dmem.read (addr + k), t.pc)
  | _ => none

/-- isSyscall(), isBreak() and the PC after one step. -/
def signalsAndPc (s : State) : Option (Bool × Bool × Word) :=
  match step s with
  | .next t => some (isSyscall t, isBreak t, t.pc)
  | _ => none

/-- The fatal condition of a step. -/
def fatalOf (s : State) : Option Fatal :=
  match step s with
  | .fault (.fatal f) => some f
  | _ => none

/-- The table that rejects a word. -/
def rejects (w : Word) : Option NoMatch :=
  match decode w with
  | .ok _ => none
  | .error m => some m

/-! ## WellFormed refuses an ill-formed term of each check -/

theorem test_wellFormed_refuses_odd_branch_offset :
    wellFormed (.beq 0 0 3) = false ∧ wellFormed (.bne 0 0 1) = false ∧ wellFormed (.blt 0 0 0x1FFF) = false ∧
    wellFormed (.bge 0 0 5) = false ∧ wellFormed (.bltu 0 0 7) = false ∧ wellFormed (.bgeu 0 0 0xFFF) = false := by decide

theorem test_wellFormed_refuses_odd_jump_offset : wellFormed (.jal 0 1) = false ∧ wellFormed (.jal 1 0x1FFFFF) = false := by
  decide

theorem test_wellFormed_accepts_even_offsets :
    wellFormed (.beq 0 0 0x1000) = true ∧ wellFormed (.beq 0 0 4094) = true ∧ wellFormed (.jal 0 0x100000) = true ∧
    wellFormed (.jal 0 0xFFFFE) = true := by decide

/-! ## Decoding: words written out from the layouts of 30_encoding.md R81 and R82 with the values of R90 and R91 -/

/-- R format: funct7, rs2, rs1, funct3, rd, opcode. -/
theorem test_decode_op :
    decode 0b0000000_00010_00001_000_00011_0110011 = .ok (.add 3 1 2) ∧
    decode 0b0100000_00010_00001_000_00011_0110011 = .ok (.sub 3 1 2) ∧
    decode 0b0000000_00010_00001_001_00011_0110011 = .ok (.sll 3 1 2) ∧
    decode 0b0000000_00010_00001_010_00011_0110011 = .ok (.slt 3 1 2) ∧
    decode 0b0000000_00010_00001_011_00011_0110011 = .ok (.sltu 3 1 2) ∧
    decode 0b0000000_00010_00001_100_00011_0110011 = .ok (.xor 3 1 2) ∧
    decode 0b0000000_00010_00001_101_00011_0110011 = .ok (.srl 3 1 2) ∧
    decode 0b0100000_00010_00001_101_00011_0110011 = .ok (.sra 3 1 2) ∧
    decode 0b0000000_00010_00001_110_00011_0110011 = .ok (.or 3 1 2) ∧
    decode 0b0000000_00010_00001_111_00011_0110011 = .ok (.and 3 1 2) := by decide

/-- I format: imm[11:0], rs1, funct3, rd, opcode; IS format: funct7, shamt, rs1, funct3, rd, opcode. -/
theorem test_decode_op_imm :
    decode 0b111111111101_00110_000_00101_0010011 = .ok (.addi 5 6 0xFFD) ∧
    decode 0b111111111111_00001_010_00011_0010011 = .ok (.slti 3 1 0xFFF) ∧
    decode 0b000000000001_00001_011_00011_0010011 = .ok (.sltiu 3 1 1) ∧
    decode 0b111111111111_00001_100_00011_0010011 = .ok (.xori 3 1 0xFFF) ∧
    decode 0b011111111111_00001_110_00011_0010011 = .ok (.ori 3 1 0x7FF) ∧
    decode 0b111111110000_00001_111_00011_0010011 = .ok (.andi 3 1 0xFF0) ∧
    decode 0b0000000_11111_00001_001_00011_0010011 = .ok (.slli 3 1 31) ∧
    decode 0b0000000_00100_00001_101_00011_0010011 = .ok (.srli 3 1 4) ∧
    decode 0b0100000_00100_00001_101_00011_0010011 = .ok (.srai 3 1 4) := by decide

/-- U format: imm[31:12], rd, opcode. -/
theorem test_decode_upper :
    decode 0b10101011110011011110_00011_0110111 = .ok (.lui 3 0xABCDE) ∧
    decode 0b00000000000000000001_00011_0010111 = .ok (.auipc 3 1) := by decide

/-- I format. -/
theorem test_decode_load :
    decode 0b000000000000_00001_000_00011_0000011 = .ok (.lb 3 1 0) ∧
    decode 0b000000000010_00001_001_00011_0000011 = .ok (.lh 3 1 2) ∧
    decode 0b111111111100_00000_010_00011_0000011 = .ok (.lw 3 0 0xFFC) ∧
    decode 0b000000000000_00001_100_00011_0000011 = .ok (.lbu 3 1 0) ∧
    decode 0b000000000001_01010_101_00111_0000011 = .ok (.lhu 7 10 1) := by decide

/-- S format: imm[11:5], rs2, rs1, funct3, imm[4:0], opcode. -/
theorem test_decode_store :
    decode 0b0000000_11100_01010_000_00100_0100011 = .ok (.sb 28 10 4) ∧
    decode 0b0000000_00010_00001_001_00000_0100011 = .ok (.sh 2 1 0) ∧
    decode 0b1111111_00010_00001_010_11111_0100011 = .ok (.sw 2 1 0xFFF) := by decide

/-- SB format: imm[12], imm[10:5], rs2, rs1, funct3, imm[4:1], imm[11], opcode. -/
theorem test_decode_branch :
    decode 0b0_000000_01100_01011_000_0010_0_1100011 = .ok (.beq 11 12 4) ∧
    decode 0b1_111111_00000_00101_001_1100_1_1100011 = .ok (.bne 5 0 0x1FF8) ∧
    decode 0b0_000000_00010_00001_100_0100_0_1100011 = .ok (.blt 1 2 8) ∧
    decode 0b0_000001_00101_00000_101_1100_0_1100011 = .ok (.bge 0 5 0x38) ∧
    decode 0b0_000000_00010_00001_110_0000_1_1100011 = .ok (.bltu 1 2 0x800) ∧
    decode 0b1_000000_00000_00000_111_0000_0_1100011 = .ok (.bgeu 0 0 0x1000) := by decide

/-- UJ format: imm[20], imm[10:1], imm[11], imm[19:12], rd, opcode; JALR: I format. -/
theorem test_decode_jump :
    decode 0b1_1111111100_1_11111111_00000_1101111 = .ok (.jal 0 0x1FFFF8) ∧
    decode 0b0_0000000000_1_00000001_00001_1101111 = .ok (.jal 1 0x1800) ∧
    decode 0b000000000101_00010_000_00001_1100111 = .ok (.jalr 1 2 5) := by decide

/-- I format; rd and rs1 are not inspected (30_encoding.md R94). -/
theorem test_decode_system :
    decode 0b000000000000_00000_000_00000_1110011 = .ok (.ecall 0 0) ∧
    decode 0b000000000001_00000_000_00000_1110011 = .ok (.ebreak 0 0) ∧
    decode 0x00000F73 = .ok (.ecall 30 0) ∧ decode 0x00008073 = .ok (.ecall 0 1) := by decide

/-- The illegal words of 95_test_vectors.md section 2.1, each at the table named there. -/
theorem test_illegal_words_at_control_main :
    rejects 0x00000000 = some (.controlMain 0) ∧ rejects 0xFFFFFFFF = some (.controlMain 0b1111111) ∧
    rejects 0x0000000F = some (.controlMain 0b0001111) ∧ rejects 0x0000100F = some (.controlMain 0b0001111) ∧
    rejects 0x00000001 = some (.controlMain 1) := by decide

theorem test_illegal_words_at_control_jump :
    rejects 0xC0002073 = some (.controlJump 0b1110011 0b010) ∧ rejects 0x00002063 = some (.controlJump 0b1100011 0b010) ∧
    rejects 0x00001067 = some (.controlJump 0b1100111 0b001) ∧ rejects 0x00003003 = some (.controlJump 0b0000011 0b011) ∧
    rejects 0x00006003 = some (.controlJump 0b0000011 0b110) ∧ rejects 0x00003023 = some (.controlJump 0b0100011 0b011) := by
  decide

theorem test_illegal_words_at_control_ecall :
    rejects 0x30200073 = some (.controlEcall 0b1110011 0x302) ∧ rejects 0x10500073 = some (.controlEcall 0b1110011 0x105) := by
  decide

theorem test_illegal_words_at_alucontrol :
    rejects 0x02208033 = some (.aluControl 0b010 0b0000001 0b000) ∧
    rejects 0x40209033 = some (.aluControl 0b010 0b0100000 0b001) ∧
    rejects 0x40009013 = some (.aluControl 0b011 0b0100000 0b001) ∧
    rejects 0x0200D013 = some (.aluControl 0b011 0b0000001 0b101) := by decide

/-- Words of 95_test_vectors.md as an encoder writes them. -/
theorem test_encode :
    encode (.addi 5 6 0xFFD) = 0xFFD30293 ∧ encode (.sw 2 1 0xFFF) = 0xFE20AFA3 ∧ encode (.bne 5 0 0x1FF8) = 0xFE029CE3 ∧
    encode (.jal 0 0x1FFFCC) = 0xFCDFF06F ∧ encode (.srai 3 1 4) = 0x4040D193 ∧ encode (.auipc 30 0) = 0x00000F17 := by decide

/-- 30_encoding.md R96: fewer than four bytes are no instruction; the rest of a longer list is handed back. -/
theorem test_decode_bytes :
    decodeBytes [0x13, 0, 0] = .error .truncated ∧
    decodeBytes [0x63, 0x82, 0xC5, 0x00, 0xAA] = .ok (.beq 11 12 4, [0xAA]) := by decide

/-- A row of the opcode table as the host hands it over, and run as the first instruction after reset. -/
theorem test_decodeTableWord :
    decodeTableWord 32 0x40005033 = some (.sra 0 0 0) ∧ decodeTableWord 32 0x00100073 = some (.ebreak 0 0) ∧
    decodeTableWord 8 0x37 = some (.lui 0 0) ∧ decodeTableWord 32 0x0F = none := by decide

theorem test_withFetchWord :
    regAndPc (State.reset.withFetchWord 32 0x00C000EF) 1 = some (4, 0xC) ∧
    signalsAndPc (State.reset.withFetchWord 32 0x00100073) = some (false, true, 4) := by decide

/-! ## One step of each instruction (95_test_vectors.md section 2) -/

/-- `add x3, x1, x2`: wrap to 0. -/
theorem test_add_1 : regAndPc (vector 0x002081B3 [(1, 0xFFFFFFFF), (2, 0x00000001)] []) 3 = some (0x00000000, 0x00000004) := by decide

/-- `add x0, x1, x2`: write to x0 dropped. -/
theorem test_add_2 : regAndPc (vector 0x00208033 [(1, 0x00000005), (2, 0x00000007)] []) 0 = some (0, 0x00000004) := by decide

/-- `sub x3, x1, x2`: source Example 5. -/
theorem test_sub_1 : regAndPc (vector 0x402081B3 [(1, 0x80000000), (2, 0x80000000)] []) 3 = some (0x00000000, 0x00000004) := by decide

/-- `sub x3, x1, x2`: 0 - 1. -/
theorem test_sub_2 : regAndPc (vector 0x402081B3 [(1, 0x00000000), (2, 0x00000001)] []) 3 = some (0xFFFFFFFF, 0x00000004) := by decide

/-- `sll x3, x1, x2`: to bit 31. -/
theorem test_sll_1 : regAndPc (vector 0x002091B3 [(1, 0x00000001), (2, 0x0000001F)] []) 3 = some (0x80000000, 0x00000004) := by decide

/-- `sll x3, x1, x2`: shift amount mod 32. -/
theorem test_sll_2 : regAndPc (vector 0x002091B3 [(1, 0x00000001), (2, 0x00000021)] []) 3 = some (0x00000002, 0x00000004) := by decide

/-- `slt x3, x1, x2`: most negative < most positive. -/
theorem test_slt_1 : regAndPc (vector 0x0020A1B3 [(1, 0x80000000), (2, 0x7FFFFFFF)] []) 3 = some (0x00000001, 0x00000004) := by decide

/-- `slt x3, x1, x2`: equal. -/
theorem test_slt_2 : regAndPc (vector 0x0020A1B3 [(1, 0x00000005), (2, 0x00000005)] []) 3 = some (0x00000000, 0x00000004) := by decide

/-- `sltu x3, x1, x2`: unsigned. -/
theorem test_sltu_1 : regAndPc (vector 0x0020B1B3 [(1, 0x80000000), (2, 0x7FFFFFFF)] []) 3 = some (0x00000000, 0x00000004) := by decide

/-- `sltu x3, x0, x2`: x2 != 0 test. -/
theorem test_sltu_2 : regAndPc (vector 0x002031B3 [(2, 0x00000001)] []) 3 = some (0x00000001, 0x00000004) := by decide

/-- `xor x3, x1, x2`. -/
theorem test_xor_1 : regAndPc (vector 0x0020C1B3 [(1, 0xFF00FF00), (2, 0x0FF00FF0)] []) 3 = some (0xF0F0F0F0, 0x00000004) := by decide

/-- `srl x3, x1, x2`: zero fill. -/
theorem test_srl_1 : regAndPc (vector 0x0020D1B3 [(1, 0x80000000), (2, 0x0000001F)] []) 3 = some (0x00000001, 0x00000004) := by decide

/-- `sra x3, x1, x2`: sign fill. -/
theorem test_sra_1 : regAndPc (vector 0x4020D1B3 [(1, 0x80000000), (2, 0x0000001F)] []) 3 = some (0xFFFFFFFF, 0x00000004) := by decide

/-- `sra x3, x1, x2`: only rs2[4:0] = 1 counts. -/
theorem test_sra_2 : regAndPc (vector 0x4020D1B3 [(1, 0x40000000), (2, 0xFFFFFFE1)] []) 3 = some (0x20000000, 0x00000004) := by decide

/-- `or x3, x1, x2`. -/
theorem test_or_1 : regAndPc (vector 0x0020E1B3 [(1, 0xF0F0F0F0), (2, 0x0F0F0F0F)] []) 3 = some (0xFFFFFFFF, 0x00000004) := by decide

/-- `and x3, x1, x2`. -/
theorem test_and_1 : regAndPc (vector 0x0020F1B3 [(1, 0xF0F0F0F0), (2, 0xFF00FF00)] []) 3 = some (0xF000F000, 0x00000004) := by decide

/-- `addi x3, x1, 2047`: max immediate, wrap. -/
theorem test_addi_1 : regAndPc (vector 0x7FF08193 [(1, 0x7FFFFFFF)] []) 3 = some (0x800007FE, 0x00000004) := by decide

/-- `addi x3, x1, -2048`: min immediate. -/
theorem test_addi_2 : regAndPc (vector 0x80008193 [(1, 0x00000000)] []) 3 = some (0xFFFFF800, 0x00000004) := by decide

/-- `slti x3, x1, -1`: -2 < -1. -/
theorem test_slti_1 : regAndPc (vector 0xFFF0A193 [(1, 0xFFFFFFFE)] []) 3 = some (0x00000001, 0x00000004) := by decide

/-- `sltiu x3, x1, -1`: immediate sign-extended, then compared unsigned: 0xFFFFFFFE < 0xFFFFFFFF. -/
theorem test_sltiu_1 : regAndPc (vector 0xFFF0B193 [(1, 0xFFFFFFFE)] []) 3 = some (0x00000001, 0x00000004) := by decide

/-- `sltiu x3, x1, 1`: "equals zero" idiom. -/
theorem test_sltiu_2 : regAndPc (vector 0x0010B193 [(1, 0x00000000)] []) 3 = some (0x00000001, 0x00000004) := by decide

/-- `xori x3, x1, -1`: bitwise-not idiom. -/
theorem test_xori_1 : regAndPc (vector 0xFFF0C193 [(1, 0x12345678)] []) 3 = some (0xEDCBA987, 0x00000004) := by decide

/-- `ori x3, x1, 0x7FF`. -/
theorem test_ori_1 : regAndPc (vector 0x7FF0E193 [(1, 0x80000000)] []) 3 = some (0x800007FF, 0x00000004) := by decide

/-- `andi x3, x1, -16`: immediate sign-extended. -/
theorem test_andi_1 : regAndPc (vector 0xFF00F193 [(1, 0x1234567F)] []) 3 = some (0x12345670, 0x00000004) := by decide

/-- `slli x3, x1, 31`. -/
theorem test_slli_1 : regAndPc (vector 0x01F09193 [(1, 0x00000003)] []) 3 = some (0x80000000, 0x00000004) := by decide

/-- `srli x3, x1, 4`. -/
theorem test_srli_1 : regAndPc (vector 0x0040D193 [(1, 0xF0000000)] []) 3 = some (0x0F000000, 0x00000004) := by decide

/-- `srai x3, x1, 4`. -/
theorem test_srai_1 : regAndPc (vector 0x4040D193 [(1, 0xF0000000)] []) 3 = some (0xFF000000, 0x00000004) := by decide

/-- `srai x3, x1, 0`: shift by 0. -/
theorem test_srai_2 : regAndPc (vector 0x4000D193 [(1, 0x80000001)] []) 3 = some (0x80000001, 0x00000004) := by decide

/-- `lui x3, 0xABCDE`. -/
theorem test_lui_1 : regAndPc (vector 0xABCDE1B7 [] []) 3 = some (0xABCDE000, 0x00000004) := by decide

/-- `lui x3, 0xFFFFF`: largest value. -/
theorem test_lui_2 : regAndPc (vector 0xFFFFF1B7 [] []) 3 = some (0xFFFFF000, 0x00000004) := by decide

/-- `auipc x3, 1`: at pc 0. -/
theorem test_auipc_1 : regAndPc (vector 0x00001197 [] []) 3 = some (0x00001000, 0x00000004) := by decide

/-- `auipc x3, 0xFFFFF`: pc - 0x1000 wraps. -/
theorem test_auipc_2 : regAndPc (vector 0xFFFFF197 [] []) 3 = some (0xFFFFF000, 0x00000004) := by decide

/-- `lb x3, 0(x1)`: sign-extended byte. -/
theorem test_lb_1 : regAndPc (vector 0x00008183 [(1, 0x00000100)] vectorData) 3 = some (0xFFFFFF80, 0x00000004) := by decide

/-- `lh x3, 0(x1)`: sign-extended half 0xFF80. -/
theorem test_lh_1 : regAndPc (vector 0x00009183 [(1, 0x00000100)] vectorData) 3 = some (0xFFFFFF80, 0x00000004) := by decide

/-- `lh x3, 2(x1)`: positive half. -/
theorem test_lh_2 : regAndPc (vector 0x00209183 [(1, 0x00000100)] vectorData) 3 = some (0x00001234, 0x00000004) := by decide

/-- `lw x3, 1(x1)`: misaligned word, read bytewise. -/
theorem test_lw_1 : regAndPc (vector 0x0010A183 [(1, 0x00000100)] vectorData) 3 = some (0x551234FF, 0x00000004) := by decide

/-- `lw x3, -4(x0)`: address wraps to 0xFFFFFFFC. -/
theorem test_lw_2 : regAndPc (vector 0xFFC02183 [] []) 3 = some (0x00000000, 0x00000004) := by decide

/-- `lbu x3, 0(x1)`: zero-extended byte. -/
theorem test_lbu_1 : regAndPc (vector 0x0000C183 [(1, 0x00000100)] vectorData) 3 = some (0x00000080, 0x00000004) := by decide

/-- `lhu x3, 0(x1)`: zero-extended half. -/
theorem test_lhu_1 : regAndPc (vector 0x0000D183 [(1, 0x00000100)] vectorData) 3 = some (0x0000FF80, 0x00000004) := by decide

/-- `sb x2, 0(x1)`: low byte only. -/
theorem test_sb_1 : bytesAndPc (vector 0x00208023 [(1, 0x00000200), (2, 0x12345678)] []) 0x1FF 3 = some ([0, 0x78, 0], 0x00000004) := by decide

/-- `sh x2, 0(x1)`: low half only. -/
theorem test_sh_1 : bytesAndPc (vector 0x00209023 [(1, 0x00000200), (2, 0x12345678)] []) 0x1FF 4 = some ([0, 0x78, 0x56, 0], 0x00000004) := by decide

/-- `sw x2, 0(x1)`: little-endian. -/
theorem test_sw_1 : bytesAndPc (vector 0x0020A023 [(1, 0x00000200), (2, 0x12345678)] []) 0x1FF 6 = some ([0, 0x78, 0x56, 0x34, 0x12, 0], 0x00000004) := by decide

/-- `sw x2, -1(x1)`: misaligned, written bytewise. -/
theorem test_sw_2 : bytesAndPc (vector 0xFE20AFA3 [(1, 0x00000200), (2, 0x12345678)] []) 0x1FE 6 = some ([0, 0x78, 0x56, 0x34, 0x12, 0], 0x00000004) := by decide

/-- `beq x1, x2, 8`: not taken. -/
theorem test_beq_1 : regAndPc (vector 0x00208463 [(1, 0x00000005), (2, 0x00000006)] []) 1 = some (0x00000005, 0x00000004) := by decide

/-- `beq x0, x0, 4094`: maximum offset; target is 2 mod 4, no trap. -/
theorem test_beq_2 : regAndPc (vector 0x7E000FE3 [] []) 1 = some (0, 0x00000FFE) := by decide

/-- `bne x1, x2, 8`: taken. -/
theorem test_bne_1 : regAndPc (vector 0x00209463 [(1, 0x00000005), (2, 0x00000006)] []) 1 = some (0x00000005, 0x00000008) := by decide

/-- `bne x0, x0, -4096`: minimum offset, not taken. -/
theorem test_bne_2 : regAndPc (vector 0x80001063 [] []) 1 = some (0, 0x00000004) := by decide

/-- `blt x1, x2, 8`: signed: taken. -/
theorem test_blt_1 : regAndPc (vector 0x0020C463 [(1, 0xFFFFFFFF), (2, 0x00000001)] []) 1 = some (0xFFFFFFFF, 0x00000008) := by decide

/-- `bge x1, x2, 8`: equal: taken. -/
theorem test_bge_1 : regAndPc (vector 0x0020D463 [(1, 0x00000005), (2, 0x00000005)] []) 1 = some (0x00000005, 0x00000008) := by decide

/-- `bltu x1, x2, 8`: unsigned: not taken. -/
theorem test_bltu_1 : regAndPc (vector 0x0020E463 [(1, 0xFFFFFFFF), (2, 0x00000001)] []) 1 = some (0xFFFFFFFF, 0x00000004) := by decide

/-- `bgeu x1, x2, 8`: unsigned: taken. -/
theorem test_bgeu_1 : regAndPc (vector 0x0020F463 [(1, 0xFFFFFFFF), (2, 0x00000001)] []) 1 = some (0xFFFFFFFF, 0x00000008) := by decide

/-- `jal x1, 12`. -/
theorem test_jal_1 : regAndPc (vector 0x00C000EF [] []) 1 = some (0x00000004, 0x0000000C) := by decide

/-- `jal x0, -8`: target wraps. -/
theorem test_jal_2 : regAndPc (vector 0xFF9FF06F [] []) 0 = some (0, 0xFFFFFFF8) := by decide

/-- `jalr x1, 5(x2)`: bit 0 of 0x105 cleared. -/
theorem test_jalr_1 : regAndPc (vector 0x005100E7 [(2, 0x00000100)] []) 1 = some (0x00000004, 0x00000104) := by decide

/-- `jalr x1, 0(x1)`: rd = rs1: target uses the old value. -/
theorem test_jalr_2 : regAndPc (vector 0x000080E7 [(1, 0x00000040)] []) 1 = some (0x00000004, 0x00000040) := by decide

/-- `ecall`. -/
theorem test_ecall_1 : signalsAndPc (vector 0x00000073 [] []) = some (true, false, 0x00000004) := by decide

/-- `ebreak`. -/
theorem test_ebreak_1 : signalsAndPc (vector 0x00100073 [] []) = some (false, true, 0x00000004) := by decide

/-- The stack pointer a program reads without setting it is the launch argument (92_eei_decisions.md D4). -/
theorem test_launch_arguments :
    (match construct { spInit := 0x1000, gpInit := 0x2000, code := [0x00010093], regMap := [(0, 7), (3, 9)] } with
      | .ok s => regAndPc s 1 == some (0x1000, 4) && s.reg 3 == 9 && s.reg 0 == 0
      | .error _ => false) = true := by decide

/-- 70_reset_and_hazards.md R303, R309: the register map is for construction only. -/
theorem test_setRegisters :
    (match setRegisters State.reset [(1, 5), (0, 6)] with
      | .ok s => s.reg 1 == 5 && s.reg 0 == 0 && s.reg 2 == State.reset.reg 2
      | .error _ => false) = true ∧
    setRegisters (tick (vector 0x0000006F [] [])) [(1, 5)] = .error .midRun ∧
    setCode (tick State.reset) [0x13] = .error .midRun := by decide

/-! ## Fatal conditions -/

theorem test_load_out_of_range :
    fatalOf (vector 0xFFF02183 [] []) = some (.memoryRange .data 0xFFFFFFFF 4 0) ∧
    fatalOf (vector 0xFFF01183 [] []) = some (.memoryRange .data 0xFFFFFFFF 2 0) := by decide

theorem test_store_out_of_range :
    fatalOf (vector 0xFE202F23 [(2, 0x12345678)] []) = some (.memoryRange .data 0xFFFFFFFE 4 0) := by decide

/-- 95_test_vectors.md section 2.2: one tick gives done, the next reads zeros. -/
theorem test_tick_past_the_end :
    (tick State.reset).pc = 4 ∧ isDone (tick State.reset) = true ∧ (tick State.reset).status = .done ∧
    (tick (tick State.reset)).status = .faulted (.decodeNoMatch (.controlMain 0) 4 0) ∧
    (tick (tick State.reset)).pc = 4 := by decide

/-- 95_test_vectors.md section 2.2: the fetch straddles the end of the code. -/
theorem test_fetch_straddles_the_end :
    (tick (vector 0x00200067 [] [])).pc = 2 ∧ isDone (tick (vector 0x00200067 [] [])) = false ∧
    fatalOf (tick (vector 0x00200067 [] [])) = some (.decodeNoMatch (.controlMain 0b0100000) 2 0x20) := by decide

theorem test_fetch_at_the_top :
    fatalOf { State.reset with pc := 0xFFFFFFFD } = some (.memoryRange .instruction 0xFFFFFFFD 4 0xFFFFFFFD) ∧
    fatalOf { State.reset with pc := 0xFFFFFFFC } = some (.decodeNoMatch (.controlMain 0) 0xFFFFFFFC 0) := by decide

/-- 92_eei_decisions.md D25, 10_state.md R37: a faulted core takes no step. -/
theorem test_faulted_core_is_stuck :
    tick (tick (vector 0xFFFFFFFF [] [])) = tick (vector 0xFFFFFFFF [] []) := by decide

/-- With N = 0 the core is done at launch (70_reset_and_hazards.md R305). -/
theorem test_no_code_is_done :
    (match construct { code := [] } with
      | .ok s => isDone s && decide (run s 0 = .done s)
      | .error _ => false) = true := by decide

/-- A code word of more than 32 bits is refused (70_reset_and_hazards.md R301). -/
theorem test_setCode_refuses_wide_word : construct { code := [0x100000000] } = .error (.memoryValue 0x100000000 4) := by decide

/-- The fatal codes of 60_exceptions.md R260. -/
theorem test_fatal_codes :
    ([.decodeNoMatch (.controlMain 0) 0 0, .memoryRange .data 0 4 0, .memoryValue 0 4, .memReadWrite 0, .memSizeInvalid 3,
      .muxSelect .aluSrc 2] : List Fatal).map Fatal.code = [1, 2, 3, 4, 5, 6] := by decide

/-! ## Components (95_test_vectors.md V5, V6; 40_datapath.md R132; 20_memory.md R55) -/

theorem test_alu_int32_min : alu 0b0001 0x80000000 0x80000000 0 0 = .ok (0, true) := by decide

theorem test_truth_table :
    tableMatch1 [(⟨0b100#3, 0b100#3⟩, 'A'), (⟨0b110#3, 0b100#3⟩, 'B')] 0b101#3 = some 'A' ∧
    patternMatches ⟨0b101#3, 0b100#3⟩ 0b100#3 = true ∧ patternMatches ⟨0b101#3, 0b100#3⟩ 0b110#3 = true ∧
    patternMatches ⟨0b101#3, 0b100#3⟩ 0b101#3 = false := by decide

theorem test_unreachable_conditions :
    memoryWrapper .data 0 [] ⟨8, true, true, 0, 0, false⟩ = .error (.memReadWrite 8) ∧
    memoryWrapper .data 0 [] ⟨8, true, false, 0, 3, false⟩ = .error (.memSizeInvalid 3) ∧
    mux .aluSrc [1, 2] 2 = .error (.muxSelect .aluSrc 2) ∧
    alu 0b1011 0 0 4 5 = .error (.decodeNoMatch (.aluOp 0b1011) 4 5) := by decide

/-- 20_memory.md R58 and 95_test_vectors.md V6: the bytes of a stored word. -/
theorem test_byte_order :
    storeBytes .data 0 [] 0x10 4 0xDEADBEEF = .ok [(0x10, 0xEF), (0x11, 0xBE), (0x12, 0xAD), (0x13, 0xDE)] ∧
    storeBytes .data 0 [(0x10, 1)] 0x10 1 0 = .ok [] := by decide

/-! ## The assembler (95_test_vectors.md V1 to V3 and section 2.3) -/

theorem test_assemble_source_examples :
    assemble "add x0, x1, x2".toList = .ok [(1, 0x00208033)] ∧
    assemble "beq x11, x12, next\nnext:".toList = .ok [(1, 0x00C58263)] ∧
    assemble "j prev\nprev:".toList = .ok [(1, 0x0040006F)] ∧
    assemble "prev:\nj prev".toList = .ok [(2, 0x0000006F)] ∧
    assemble "prev:\naddi x0, x0, 0\nj prev".toList = .ok [(2, 0x00000013), (3, 0xFFDFF06F)] := by decide

theorem test_assemble_pseudo_and_literals :
    assemble "jal back\nback:".toList = .ok [(1, 0x004000EF)] ∧ assemble "li a0, -2048".toList = .ok [(1, 0x80000513)] ∧
    assemble "mv a1, a0".toList = .ok [(1, 0x00050593)] ∧ assemble "LW A0, 0X10(SP)".toList = .ok [(1, 0x01012503)] ∧
    assemble "sw ra, -4(sp) # save".toList = .ok [(1, 0xFE112E23)] ∧
    assemble "addi x1, x0, 0b101".toList = .ok [(1, 0x00500093)] := by decide

theorem test_assemble_range_errors :
    assemble "addi x1, x0, 2048".toList = .error ⟨.outOfRange 12, 1⟩ ∧
    assemble "li x1, 0x12345678".toList = .error ⟨.outOfRange 12, 1⟩ ∧
    assemble "slli x1, x1, 32".toList = .error ⟨.outOfRange 5, 1⟩ ∧
    assemble "beq x0, x0, 3".toList = .error ⟨.oddDisplacement, 1⟩ := by decide

/-- Two errors on one line: the model's order (log entry 16), and no words either way. -/
theorem test_assemble_error_order :
    assemble "beq q1, x2, 0(x3)".toList = .error ⟨.unmatchedShape, 1⟩ ∧
    assemble "beq q1, x2, 4097".toList = .error ⟨.unknownRegister, 1⟩ ∧
    assemble "jal x0, 1048577".toList = .error ⟨.outOfRange 21, 1⟩ := by decide

theorem test_assemble_name_errors :
    assemble "add x1, x2".toList = .error ⟨.unmatchedShape, 1⟩ ∧ assemble "lw x1, 0(q1)".toList = .error ⟨.unknownRegister, 1⟩ ∧
    assemble "j nowhere".toList = .error ⟨.unknownLabel, 1⟩ ∧ assemble "a:\na:".toList = .error ⟨.duplicateLabel, 2⟩ ∧
    assemble "nop".toList = .error ⟨.unmatchedShape, 1⟩ ∧
    assemble "add x1, fp, x2".toList = .error ⟨.unknownRegister, 1⟩ := by decide

/-! ## Witnesses: the hypotheses of each statement can be met -/

theorem notFaulted_reset : NotFaulted State.reset := fun _ h => nomatch h

/-- DecodeOfEncodeIsTheInstruction, SplitterAndImmGenReadTheOperandsBack: the ends of the displacement fields. -/
theorem witness_wellFormed :
    wellFormed (.beq 31 31 0x1000) = true ∧ wellFormed (.bgeu 1 2 0xFFE) = true ∧ wellFormed (.jal 31 0x100000) = true ∧
    wellFormed (.jal 0 0x0FFFFE) = true ∧ wellFormed (.srai 3 1 31) = true := by decide

/-- EncodeOfDecodeIsTheWord, DecodedWordBelongsToItsRow. -/
theorem witness_decoded_word : decode 0x80001063 = .ok (.bne 0 0 0x1000) ∧ decode 0x00008F73 = .ok (.ecall 30 1) := by decide

/-- OpcodeRowsDoNotOverlap. -/
theorem witness_row_admits :
    opcodeRow (.ecall 0 0) ∈ opcodeTable ∧ (opcodeRow (.ecall 0 0)).admits 0x00008F73 = true := by decide

/-- IllegalWordsAreThoseOutsideTheTable, CONTROL_MAIN and CONTROL_JUMP classes, at the ends of their ranges. -/
theorem witness_illegal_control_main_and_jump :
    (splitFields 0x0000000F).opcode ∉ [0b0110111, 0b0010111, 0b1101111, 0b1100111, 0b1100011, 0b0000011, 0b0100011, 0b0010011,
      0b0110011, 0b1110011] ∧
    (splitFields 0x00003063).opcode = 0b1100011 ∧ (splitFields 0x00003063).funct3 ∈ ([0b010, 0b011] : List (BitVec 3)) ∧
    (splitFields 0x00001067).opcode = 0b1100111 ∧ (splitFields 0x00001067).funct3 ≠ 0b000 ∧
    (splitFields 0x00007003).opcode = 0b0000011 ∧ (splitFields 0x00007003).funct3 ∈ ([0b011, 0b110, 0b111] : List (BitVec 3)) ∧
    (splitFields 0x00007023).opcode = 0b0100011 ∧
    (splitFields 0x00007023).funct3 ∈ ([0b011, 0b100, 0b101, 0b110, 0b111] : List (BitVec 3)) ∧
    (splitFields 0x00001073).opcode = 0b1110011 ∧ (splitFields 0x00001073).funct3 ≠ 0b000 := by decide

/-- The same, CONTROL_ECALL and ALUCONTROL classes. -/
theorem witness_illegal_control_ecall_and_alucontrol :
    ((splitFields 0x00200073).opcode = 0b1110011 ∧ (splitFields 0x00200073).funct3 = 0b000 ∧ immFieldI 0x00200073 = 2) ∧
    ((splitFields 0x40001033).opcode = 0b0110011 ∧ (splitFields 0x40001033).funct7 = 0b0100000 ∧
      (splitFields 0x40001033).funct3 = 0b001) ∧
    ((splitFields 0x02001013).opcode = 0b0010011 ∧ (splitFields 0x02001013).funct3 = 0b001 ∧
      (splitFields 0x02001013).funct7 ≠ 0b0000000) ∧
    ((splitFields 0x42005013).opcode = 0b0010011 ∧ (splitFields 0x42005013).funct3 = 0b101 ∧
      (splitFields 0x42005013).funct7 ≠ 0b0000000 ∧ (splitFields 0x42005013).funct7 ≠ 0b0100000) := by decide

/-- DecodeTablesRejectTheSameWords. -/
theorem witness_rejected_word : decode 0x02208033 = .error (.aluControl 0b010 0b0000001 0b000) := by decide

/-- StepRunsTheDecodedInstruction: at reset, and at the last address a fetch can start at. -/
theorem witness_step_runs :
    (State.reset.pc.toNat + 4 ≤ 2 ^ 32 ∧
      decode (wordOfBytes (State.reset.imem.read 0) (State.reset.imem.read 1) (State.reset.imem.read 2)
        (State.reset.imem.read 3)) = .ok (.addi 0 0 0)) ∧
    (let s : State := { State.reset with pc := 0xFFFFFFFC, imem := [(0xFFFFFFFC, 0x37)] }
     s.pc.toNat + 4 ≤ 2 ^ 32 ∧
      decode (wordOfBytes (s.imem.read 0xFFFFFFFC) (s.imem.read 0xFFFFFFFD) (s.imem.read 0xFFFFFFFE)
        (s.imem.read 0xFFFFFFFF)) = .ok (.lui 0 0)) := by decide

/-- WideLoadsReadLittleEndianBytes, StoresWriteTheLowBytesAndNothingElse: the last halfword and the last word. -/
theorem witness_access_in_range :
    (effectiveAddress State.reset 0 0xFFE).toNat + 2 ≤ 2 ^ 32 ∧ (effectiveAddress State.reset 0 0xFFC).toNat + 4 ≤ 2 ^ 32 := by
  decide

/-- DataAccessRangeRule: both outcomes of its first clause, at the boundary. -/
theorem witness_access_range :
    accessOf (.sw 2 0 0xFFC) State.reset = some (0xFFFFFFFC, 4) ∧ ¬ 2 ^ 32 < (0xFFFFFFFC#32).toNat + 4 ∧
    accessOf (.sw 2 0 0xFFD) State.reset = some (0xFFFFFFFD, 4) ∧ 2 ^ 32 < (0xFFFFFFFD#32).toNat + 4 := by decide

/-- StoreThenLoadReturnsTheValue: the last word of the address space. -/
theorem witness_store :
    ∃ m', storeBytes .data 0 [(0xFFFFFFFD, 7)] 0xFFFFFFFC 4 (0xDEADBEEF#(8 * 4)).toNat = .ok m' := ⟨_, rfl⟩

/-- StoreChecksRangeThenValue: each clause at its boundary. -/
theorem witness_store_checks :
    (2 ^ 32 < 0xFFFFFFFD + 4) ∧ (0xFFFFFFFC + 4 ≤ 2 ^ 32 ∧ 2 ^ (8 * 4) ≤ 0x100000000) ∧
    (0xFFFFFFFC + 4 ≤ 2 ^ 32 ∧ 0xFFFFFFFF < 2 ^ (8 * 4)) := by decide

/-- PreloadedArrayReadsBack: the array of 95_test_vectors.md P1. -/
theorem witness_preload :
    ∃ t, preload State.reset 0x100 4 [3, 2, 1, 0, 0xFFFFFFFF, 0xFFFFFFFE, 0xFFFFFFFD] = .ok t := ⟨_, rfl⟩

/-- ConstructionSucceeds. -/
theorem witness_construction :
    let l : Launch := { code := [0x13, 0xFFFFFFFF], dmemInit := [(0xFFFFFFFF, 1)] }
    (∀ w ∈ l.code, w < 2 ^ 32) ∧ 4 * l.code.length ≤ 2 ^ 32 ∧ ∀ c ∈ l.dmemInit, c.1 < 2 ^ 32 := by decide

/-- ConstructionGivesTheLaunchState, with entries for its clauses. -/
theorem witness_construct :
    let l : Launch := { code := [0x13, 0xFFFFFFFF], regMap := [(0, 5), (2, 6), (10, 7)], dmemInit := [(0, 1), (0xFFFFFFFF, 2)] }
    (∃ s, construct l = .ok s) ∧ (l.regMap.map fun e => e.1).Nodup ∧ (10, 7) ∈ l.regMap ∧
    (l.dmemInit.map fun c => c.1).Nodup ∧ (0xFFFFFFFF, 2) ∈ l.dmemInit :=
  ⟨⟨_, rfl⟩, by decide, by decide, by decide, by decide⟩

/-- HostWritesOnlyBeforeTheFirstTick: a map with an entry for x0, and a core in the middle of a run. -/
theorem witness_host_writes :
    State.reset.status = .constructed ∧ (([(0, 6), (1, 5)] : List (RegIdx × Word)).map fun e => e.1).Nodup ∧
    (tick (vector 0x0000006F [] [])).status ≠ .constructed := by decide

/-- StepRaisesExactlyTheListedConditions: each of its three causes. -/
theorem witness_conditions :
    2 ^ 32 < (0xFFFFFFFD#32).toNat + 4 ∧
    ((vector 0xFFFFFFFF [] []).fetch = .ok 0xFFFFFFFF ∧ decode 0xFFFFFFFF = .error (.controlMain 0b1111111)) ∧
    ((vector 0xFFD02183 [] []).fetch = .ok 0xFFD02183 ∧ decode 0xFFD02183 = .ok (.lw 3 0 0xFFD) ∧
      accessOf (.lw 3 0 0xFFD) (vector 0xFFD02183 [] []) = some (0xFFFFFFFD, 4)) ∧
    ((vector 0xFFF01183 [] []).fetch = .ok 0xFFF01183 ∧ decode 0xFFF01183 = .ok (.lh 3 0 0xFFF) ∧
      accessOf (.lh 3 0 0xFFF) (vector 0xFFF01183 [] []) = some (0xFFFFFFFF, 2)) := by decide

/-- FatalTickIsTerminalAndWritesNothing. -/
theorem witness_fatal_tick :
    step (vector 0xFFFFFFFF [] []) = .fault (.fatal (.decodeNoMatch (.controlMain 0b1111111) 0 0xFFFFFFFF)) := rfl

/-- TickBeyondTheCodeIsDecodeNoMatch: both clauses. -/
theorem witness_beyond_the_code :
    construct { code := [0x00200067] } = .ok (vector 0x00200067 [] []) ∧
    (let s := tick (vector 0x00200067 [] [])
     s.imem = (vector 0x00200067 [] []).imem ∧ s.pc.toNat + 4 ≤ 2 ^ 32 ∧ s.pc.toNat + 2 = 4 * 1 ∧ s.status = .running) ∧
    4 * 1 ≤ (4#32).toNat ∧ ([0x00200067] : List Nat).getLast? = some 0x00200067 := by decide

/-- StepKeepsMemoryCanonical, SignalsDescribeTheTick: a store from a memory that lists bytes. -/
theorem witness_step_next :
    (vector 0x0020A023 [(1, 0x100)] vectorData).memoryWf = true ∧
    ∃ t, step (vector 0x0020A023 [(1, 0x100)] vectorData) = .next t := ⟨by decide, ⟨_, rfl⟩⟩

/-- StepIgnoresSignalsAndStatus, EveryTickEndsInANextStateOrCodeOneOrTwo. -/
theorem witness_not_faulted : NotFaulted State.reset ∧ ∀ f, Status.done ≠ .faulted f :=
  ⟨notFaulted_reset, fun _ h => nomatch h⟩

/-- OnlyStoresChangeDataMemory, OnlyTheDestinationRegisterChanges: a load, and ECALL, which writes no register. -/
theorem witness_no_store :
    (let s := vector 0x0000A183 [(1, 0x100)] vectorData
     s.fetch = .ok 0x0000A183 ∧ decode 0x0000A183 = .ok (.lw 3 1 0) ∧ isStore (.lw 3 1 0) = false ∧ ∃ t, step s = .next t) ∧
    (let s := vector 0x00000073 [] []
     s.fetch = .ok 0x00000073 ∧ decode 0x00000073 = .ok (.ecall 0 0) ∧ writesNoRegister (.ecall 0 0) = true ∧
     ∃ t, step s = .next t) :=
  ⟨⟨by decide, by decide, rfl, ⟨_, rfl⟩⟩, ⟨by decide, by decide, rfl, ⟨_, rfl⟩⟩⟩

/-- RunIsTicksUntilDoneOrFaulted: each way a run ends. -/
theorem witness_run :
    (∃ t, run State.reset 3 = .done t) ∧ (∃ t f, run (vector 0xFFFFFFFF [] []) 3 = .faulted t f) ∧
    (∃ t, run (vector 0x0000006F [] []) 3 = .outOfFuel t) := ⟨⟨_, rfl⟩, ⟨_, _, rfl⟩, ⟨_, rfl⟩⟩

/-- AssembledWordsDecodeInLineOrder. -/
theorem witness_assemble : ∃ out, assemble "mv a1, a0\necall".toList = .ok out := ⟨[(1, 0x00050593), (2, 0x00000073)], by decide⟩

/-- LabelOperandsAreWordDistances: the ends of a branch's range and the first distances beyond them. -/
theorem witness_label :
    labelIndex [("a".toList, 1023)] "a".toList = some 1023 ∧
    (-(2 ^ (13 - 1) : Int) ≤ ((1023 : Int) - 0) * 4 ∧ ((1023 : Int) - 0) * 4 < 2 ^ (13 - 1)) ∧
    labelIndex [("a".toList, 0)] "a".toList = some 0 ∧
    (-(2 ^ (13 - 1) : Int) ≤ ((0 : Int) - 1024) * 4 ∧ ((0 : Int) - 1024) * 4 < 2 ^ (13 - 1)) ∧
    labelIndex [("a".toList, 1024)] "a".toList = some 1024 ∧ ¬ ((1024 : Int) - 0) * 4 < 2 ^ (13 - 1) := by decide

/-- CanonicalLineAssemblesToItsInstruction. -/
theorem witness_canonical :
    hasSourceForm (.beq 31 0 0x1000) = true ∧ hasSourceForm (.lui 3 0xFFFFF) = true ∧ hasSourceForm (.ecall 0 0) = true := by
  decide

/-- ResetMemoryIsCanonical and ResetStatusAndSignalsAgree are met by the reset state itself; a tick from it gives `done`. -/
theorem witness_tick_status : (tick State.reset).status = .done ∧ (tick State.reset).sig.nextPC = 4 := by decide

end Sys2Proof.Tests
end

section
/-! PROOFS. Truth tables: a lookup is the library's `List.find?`, so it answers its first matching row (00_scope.md R11). -/

namespace Sys2Proof.Machine

open Sys2Proof.Claims

/-! ## A lookup as `List.find?` -/

theorem tableMatch1_eq_find? {u : Nat} {β : Type} (table : Table1 u β) (a : BitVec u) :
    tableMatch1 table a = (table.find? fun row => patternMatches row.1 a).map fun row => row.2 := by
  induction table with
  | nil => rfl
  | cons row rest ih =>
    simp only [tableMatch1, List.find?_cons, ih]
    cases patternMatches row.1 a <;> rfl

theorem tableMatch2_eq_find? {u v : Nat} {β : Type} (table : Table2 u v β) (a : BitVec u) (b : BitVec v) :
    tableMatch2 table a b =
      (table.find? fun row => patternMatches row.1 a && patternMatches row.2.1 b).map fun row => row.2.2 := by
  induction table with
  | nil => rfl
  | cons row rest ih =>
    simp only [tableMatch2, List.find?_cons, ih]
    cases patternMatches row.1 a && patternMatches row.2.1 b <;> rfl

theorem tableMatch3_eq_find? {u v w : Nat} {β : Type} (table : Table3 u v w β) (a : BitVec u) (b : BitVec v)
    (c : BitVec w) :
    tableMatch3 table a b c =
      (table.find? fun row => patternMatches row.1 a && patternMatches row.2.1 b && patternMatches row.2.2.1 c).map
        fun row => row.2.2.2 := by
  induction table with
  | nil => rfl
  | cons row rest ih =>
    simp only [tableMatch3, List.find?_cons, ih]
    cases patternMatches row.1 a && patternMatches row.2.1 b && patternMatches row.2.2.1 c <;> rfl

/-! ## What the lookup answers -/

/-- The pattern test of the model is the bitwise agreement of R11. -/
theorem patternMatches_iff_agreesWith {w : Nat} (p : Pattern w) (x : BitVec w) :
    patternMatches p x = true ↔ AgreesWith p x :=
  patternMatches_iff p x

/-- `find?` under any test of the rows answers the first row the test holds of. -/
theorem answersFirst_find? {α β : Type} (table : List α) (test : α → Bool) (rowMatches : α → Prop) (output : α → β)
    (h : ∀ row, test row = true ↔ rowMatches row) :
    AnswersFirst table rowMatches output ((table.find? test).map output) := by
  refine ⟨fun out => ?_, ?_⟩
  · simp only [Option.map_eq_some_iff, List.find?_eq_some_iff_append, ← h, Bool.not_eq_true, Bool.not_eq_true']
    constructor
    · rintro ⟨row, ⟨hrow, before, after, rfl, hbefore⟩, hout⟩
      exact ⟨before, row, after, rfl, hout, hrow, hbefore⟩
    · rintro ⟨before, row, after, rfl, hout, hrow, hbefore⟩
      exact ⟨row, ⟨hrow, before, after, rfl, hbefore⟩, hout⟩
  · simp only [Option.map_eq_none_iff, List.find?_eq_none, ← h]

/-- Settles O8: each lookup is a `find?` whose test is the agreement of every pattern of the row with its input. -/
theorem tableAnswersTheFirstMatchingRow : Obligations.TableAnswersTheFirstMatchingRow := by
  refine ⟨fun u β table a => ?_, fun u v β table a b => ?_, fun u v w β table a b c => ?_⟩
  · rw [tableMatch1_eq_find?]
    exact answersFirst_find? _ _ _ _ fun row => patternMatches_iff_agreesWith _ _
  · rw [tableMatch2_eq_find?]
    refine answersFirst_find? _ _ _ _ fun row => ?_
    simp only [Bool.and_eq_true, patternMatches_iff_agreesWith]
  · rw [tableMatch3_eq_find?]
    refine answersFirst_find? _ _ _ _ fun row => ?_
    simp only [Bool.and_eq_true, patternMatches_iff_agreesWith, and_assoc]

end Sys2Proof.Machine
end

section
/-! PROOFS. The rows of spec/opcode_table.json (00_scope.md R2, 30_encoding.md R93): no word belongs to two rows. -/

namespace Sys2Proof

/-- The fixed bits of two rows disagree somewhere both rows fix a bit. -/
def OpcodeRow.Disagree (a b : OpcodeRow) : Prop := a.bits &&& b.mask ≠ b.bits &&& a.mask

theorem OpcodeRow.admits_iff (row : OpcodeRow) (w : Word) : row.admits w = true ↔ w &&& row.mask = row.bits := by
  simp only [OpcodeRow.admits, decide_eq_true_eq]

theorem OpcodeRow.disagree_symm : Std.Symm OpcodeRow.Disagree := ⟨fun _ _ h e => h e.symm⟩

/-- A word of both rows has the fixed bits of both. -/
theorem OpcodeRow.not_disagree_of_admits {a b : OpcodeRow} {w : Word} (ha : a.admits w = true) (hb : b.admits w = true) :
    ¬ a.Disagree b := by
  rw [OpcodeRow.admits_iff] at ha hb
  intro h
  apply h
  calc a.bits &&& b.mask = w &&& a.mask &&& b.mask := by rw [ha]
    _ = w &&& b.mask &&& a.mask := by rw [BitVec.and_assoc, BitVec.and_comm a.mask, BitVec.and_assoc]
    _ = b.bits &&& a.mask := by rw [hb]

theorem opcodeTable_pairwise_disagree : opcodeTable.Pairwise OpcodeRow.Disagree := by
  unfold OpcodeRow.Disagree
  decide

/-- Settles O5: a word of two different rows would have the fixed bits of both, and those disagree. -/
theorem opcodeRowsDoNotOverlap : Obligations.OpcodeRowsDoNotOverlap := by
  intro w a b ha hb hwa hwb
  by_contra hne
  have := OpcodeRow.disagree_symm
  exact OpcodeRow.not_disagree_of_admits hwa hwb (opcodeTable_pairwise_disagree.forall ha hb hne)

end Sys2Proof
end

section
/-! PROOFS. The decoder's inverse: a word that decodes is the word of its instruction (30_encoding.md R80 to R91). -/

namespace Sys2Proof

open Laws.TableRow (encodeR_splitFields)

/-! ## A word from the fields and the immediate the decoder reads off it

In the scattered formats (SB, U, UJ) each of the 32 bits is looked up where the immediate field holds it. -/

theorem immFieldI_eq (w : Word) : immFieldI w = (splitFields w).funct7 ++ (splitFields w).rs2 := by
  conv_lhs => rw [← encodeR_splitFields w, immFieldI_encodeR]

/-- A shift's layout is the I layout with funct7 ++ shamt as its immediate (R82). -/
theorem encodeI_append (funct7 : BitVec 7) (rs2 rs1 : BitVec 5) (funct3 : BitVec 3) (rd : BitVec 5) (opcode : BitVec 7) :
    encodeI (funct7 ++ rs2) rs1 funct3 rd opcode = encodeR funct7 rs2 rs1 funct3 rd opcode := rfl

theorem encodeI_immFieldI (w : Word) :
    encodeI (immFieldI w) (splitFields w).rs1 (splitFields w).funct3 (splitFields w).rd (splitFields w).opcode = w := by
  rw [immFieldI_eq, encodeI_append, encodeR_splitFields]

theorem encodeS_immFieldS (w : Word) :
    encodeS (immFieldS w) (splitFields w).rs2 (splitFields w).rs1 (splitFields w).funct3 (splitFields w).opcode = w := by
  have hhigh : (immFieldS w).extractLsb' 5 7 = (splitFields w).funct7 := BitVec.extractLsb'_append_eq_left
  have hlow : (immFieldS w).extractLsb' 0 5 = (splitFields w).rd := BitVec.extractLsb'_append_eq_right
  rw [encodeS_eq_encodeR, hhigh, hlow, encodeR_splitFields]

theorem encodeSB_immFieldSB (w : Word) :
    encodeSB (immFieldSB w) (splitFields w).rs2 (splitFields w).rs1 (splitFields w).funct3 (splitFields w).opcode = w := by
  apply BitVec.eq_of_getLsbD_eq
  intro i hi
  simp only [encodeSB, immFieldSB, splitFields]
  change @BitVec.getLsbD (1 + 6 + 5 + 5 + 3 + 4 + 1 + 7) _ i = _
  simp only [BitVec.getLsbD_append, BitVec.getLsbD_extractLsb']
  interval_cases i <;> simp

theorem encodeU_immFieldU (w : Word) : encodeU (immFieldU w) (splitFields w).rd (splitFields w).opcode = w := by
  apply BitVec.eq_of_getLsbD_eq
  intro i hi
  simp only [encodeU, immFieldU, splitFields]
  change @BitVec.getLsbD (20 + 5 + 7) _ i = _
  simp only [BitVec.getLsbD_append, BitVec.getLsbD_extractLsb']
  interval_cases i <;> simp

theorem encodeUJ_immFieldUJ (w : Word) : encodeUJ (immFieldUJ w) (splitFields w).rd (splitFields w).opcode = w := by
  apply BitVec.eq_of_getLsbD_eq
  intro i hi
  simp only [encodeUJ, immFieldUJ, splitFields]
  change @BitVec.getLsbD (1 + 10 + 1 + 8 + 5 + 7) _ i = _
  simp only [BitVec.getLsbD_append, BitVec.getLsbD_extractLsb']
  interval_cases i <;> simp

theorem evenBranchOffset_immFieldSB (w : Word) : evenBranchOffset (immFieldSB w) = true := by
  have h : (immFieldSB w).getLsbD 0 = false := BitVec.getLsbD_append
  rw [evenBranchOffset, h]; rfl

theorem evenJumpOffset_immFieldUJ (w : Word) : evenJumpOffset (immFieldUJ w) = true := by
  have h : (immFieldUJ w).getLsbD 0 = false := BitVec.getLsbD_append
  rw [evenJumpOffset, h]; rfl

/-! ## What each opcode's decoder accepts -/

section
variable {f : Fields} {i : Instr}

theorem encode_of_decodeOp (h : decodeOp f = .ok i) :
    encode i = encodeR f.funct7 f.rs2 f.rs1 f.funct3 f.rd 0b0110011#7 ∧ wellFormed i = true := by
  unfold decodeOp at h
  split at h <;> cases h <;> simp [encode, wellFormed, *]

/-- The last case of `decodeOpImm`, which names no funct3, is that of the right shifts. -/
theorem funct3_eq_five {x : BitVec 3} (h0 : x ≠ 0#3) (h2 : x ≠ 2#3) (h3 : x ≠ 3#3) (h4 : x ≠ 4#3) (h6 : x ≠ 6#3)
    (h7 : x ≠ 7#3) (h1 : x ≠ 1#3) : x = 5#3 := by
  bv_omega

theorem encode_of_decodeOpImm (h : decodeOpImm f (f.funct7 ++ f.rs2) = .ok i) :
    encode i = encodeI (f.funct7 ++ f.rs2) f.rs1 f.funct3 f.rd 0b0010011#7 ∧ wellFormed i = true := by
  unfold decodeOpImm at h
  split at h
  case h_7 =>
    split at h <;> cases h
    simp [encode, wellFormed, encodeI_append, *]
  case h_8 =>
    have hf3 : f.funct3 = 5#3 := funct3_eq_five ‹_› ‹_› ‹_› ‹_› ‹_› ‹_› ‹_›
    split at h <;> cases h <;> simp [encode, wellFormed, encodeI_append, *]
  all_goals cases h; simp [encode, wellFormed, *]

theorem encode_of_decodeLoad {imm : BitVec 12} (h : decodeLoad f imm = .ok i) :
    encode i = encodeI imm f.rs1 f.funct3 f.rd 0b0000011#7 ∧ wellFormed i = true := by
  unfold decodeLoad at h
  split at h <;> cases h <;> simp [encode, wellFormed, *]

theorem encode_of_decodeStore {imm : BitVec 12} (h : decodeStore f imm = .ok i) :
    encode i = encodeS imm f.rs2 f.rs1 f.funct3 0b0100011#7 ∧ wellFormed i = true := by
  unfold decodeStore at h
  split at h <;> cases h <;> simp [encode, wellFormed, *]

theorem encode_of_decodeBranch {offset : BitVec 13} (h : decodeBranch f offset = .ok i) :
    encode i = encodeSB offset f.rs2 f.rs1 f.funct3 0b1100011#7 ∧ wellFormed i = evenBranchOffset offset := by
  unfold decodeBranch at h
  split at h <;> cases h <;> simp [encode, wellFormed, *]

theorem encode_of_decodeJalr {imm : BitVec 12} (h : decodeJalr f imm = .ok i) :
    encode i = encodeI imm f.rs1 f.funct3 f.rd 0b1100111#7 ∧ wellFormed i = true := by
  unfold decodeJalr at h
  split at h <;> cases h
  simp [encode, wellFormed, *]

theorem encode_of_decodeSystem {imm : BitVec 12} (h : decodeSystem f imm = .ok i) :
    encode i = encodeI imm f.rs1 f.funct3 f.rd 0b1110011#7 ∧ wellFormed i = true := by
  unfold decodeSystem at h
  split at h
  · split at h <;> cases h <;> simp [encode, wellFormed, *]
  · cases h

end

/-- No bit of an accepted word is lost: it is the word of the instruction it decodes to, which is well formed. -/
theorem encode_of_decode {w : Word} {i : Instr} (h : decode w = .ok i) : encode i = w ∧ wellFormed i = true := by
  unfold decode at h
  dsimp only at h
  split at h
  next hop =>
    obtain ⟨he, hwf⟩ := encode_of_decodeOp h
    exact ⟨by rw [he, ← hop, encodeR_splitFields], hwf⟩
  next hop =>
    obtain ⟨he, hwf⟩ := encode_of_decodeOpImm (immFieldI_eq w ▸ h)
    exact ⟨by rw [he, ← immFieldI_eq, ← hop, encodeI_immFieldI], hwf⟩
  next hop =>
    obtain ⟨he, hwf⟩ := encode_of_decodeLoad h
    exact ⟨by rw [he, ← hop, encodeI_immFieldI], hwf⟩
  next hop =>
    obtain ⟨he, hwf⟩ := encode_of_decodeStore h
    exact ⟨by rw [he, ← hop, encodeS_immFieldS], hwf⟩
  next hop =>
    obtain ⟨he, hwf⟩ := encode_of_decodeBranch h
    exact ⟨by rw [he, ← hop, encodeSB_immFieldSB], hwf.trans (evenBranchOffset_immFieldSB w)⟩
  next hop =>
    cases h
    have he := encodeUJ_immFieldUJ w
    rw [hop] at he
    exact ⟨he, evenJumpOffset_immFieldUJ w⟩
  next hop =>
    obtain ⟨he, hwf⟩ := encode_of_decodeJalr h
    exact ⟨by rw [he, ← hop, encodeI_immFieldI], hwf⟩
  next hop =>
    cases h
    have he := encodeU_immFieldU w
    rw [hop] at he
    exact ⟨he, rfl⟩
  next hop =>
    cases h
    have he := encodeU_immFieldU w
    rw [hop] at he
    exact ⟨he, rfl⟩
  next hop =>
    obtain ⟨he, hwf⟩ := encode_of_decodeSystem h
    exact ⟨by rw [he, ← hop, encodeI_immFieldI], hwf⟩
  · cases h

/-! ## Every instruction's word is one of its row's words -/

theorem opcodeRow_mem_opcodeTable (i : Instr) : opcodeRow i ∈ opcodeTable := by
  cases i <;> simp [opcodeTable, opcodeRow]

theorem opcodeRow_admits_encode : ∀ i : Instr, (opcodeRow i).admits (encode i) = true
  | .add .. => Laws.TableRow.add ..
  | .sub .. => Laws.TableRow.sub ..
  | .sll .. => Laws.TableRow.sll ..
  | .slt .. => Laws.TableRow.slt ..
  | .sltu .. => Laws.TableRow.sltu ..
  | .xor .. => Laws.TableRow.xor ..
  | .srl .. => Laws.TableRow.srl ..
  | .sra .. => Laws.TableRow.sra ..
  | .or .. => Laws.TableRow.or ..
  | .and .. => Laws.TableRow.and ..
  | .addi .. => Laws.TableRow.addi ..
  | .slti .. => Laws.TableRow.slti ..
  | .sltiu .. => Laws.TableRow.sltiu ..
  | .xori .. => Laws.TableRow.xori ..
  | .ori .. => Laws.TableRow.ori ..
  | .andi .. => Laws.TableRow.andi ..
  | .slli .. => Laws.TableRow.slli ..
  | .srli .. => Laws.TableRow.srli ..
  | .srai .. => Laws.TableRow.srai ..
  | .lui .. => Laws.TableRow.lui ..
  | .auipc .. => Laws.TableRow.auipc ..
  | .lb .. => Laws.TableRow.lb ..
  | .lh .. => Laws.TableRow.lh ..
  | .lw .. => Laws.TableRow.lw ..
  | .lbu .. => Laws.TableRow.lbu ..
  | .lhu .. => Laws.TableRow.lhu ..
  | .sb .. => Laws.TableRow.sb ..
  | .sh .. => Laws.TableRow.sh ..
  | .sw .. => Laws.TableRow.sw ..
  | .beq .. => Laws.TableRow.beq ..
  | .bne .. => Laws.TableRow.bne ..
  | .blt .. => Laws.TableRow.blt ..
  | .bge .. => Laws.TableRow.bge ..
  | .bltu .. => Laws.TableRow.bltu ..
  | .bgeu .. => Laws.TableRow.bgeu ..
  | .jal .. => Laws.TableRow.jal ..
  | .jalr .. => Laws.TableRow.jalr ..
  | .ecall .. => Laws.TableRow.ecall ..
  | .ebreak .. => Laws.TableRow.ebreak ..

/-- Settles O6: the word is that of its instruction, whose row fixes no other bits than the encoder writes. -/
theorem decodedWordBelongsToItsRow : Obligations.DecodedWordBelongsToItsRow := by
  intro w i h
  obtain ⟨rfl, -⟩ := encode_of_decode h
  exact ⟨opcodeRow_mem_opcodeTable i, opcodeRow_admits_encode i⟩

end Sys2Proof
end

section
/-! PROOFS. The decode tables answer what `decode` answers (30_encoding.md R92, R93; 40_datapath.md R133 to R137, R148). -/

namespace Sys2Proof.Machine

open Sys2Proof.Claims

/-! ## Answers in sequence -/

@[simp] theorem ok_bind {ε α β : Type} (a : α) (f : α → Except ε β) : (Except.ok a >>= f) = f a := rfl

@[simp] theorem error_bind {ε α β : Type} (e : ε) (f : α → Except ε β) : (Except.error e >>= f) = .error e := rfl

@[simp] theorem rowOrFatal_some {β : Type} (out : β) (name : NoMatch) (pc inst : Word) :
    rowOrFatal (some out) name pc inst = .ok out := rfl

@[simp] theorem rowOrFatal_none {β : Type} (name : NoMatch) (pc inst : Word) :
    rowOrFatal (none : Option β) name pc inst = .error (.decodeNoMatch name pc inst) := rfl

/-! ## The tables of one opcode

For each of the ten opcodes, what `decodeTables` comes down to: the outputs its rows fix, and the lookups that still depend on
the word. -/

section
variable (pc w : Word)

theorem decodeTables_op (hop : (splitFields w).opcode = 0b0110011#7) :
    decodeTables pc w = (do
      let f := splitFields w
      let code ← rowOrFatal (tableMatch3 aluControlTable 0b010 f.funct7 f.funct3) (.aluControl 0b010 f.funct7 f.funct3) pc w
      Except.ok (⟨(rowOp .add).main, noBranch, memControlOf f.funct3, 0b00⟩, code, .r)) := by
  simp [decodeTables, hop, controlMainTable, controlJumpTable, controlEcallTable, immGenTable, tableMatch1, tableMatch2,
    tableMatch_controlMem, rowOp]

theorem decodeTables_opImm (hop : (splitFields w).opcode = 0b0010011#7) :
    decodeTables pc w = (do
      let f := splitFields w
      let code ← rowOrFatal (tableMatch3 aluControlTable 0b011 f.funct7 f.funct3) (.aluControl 0b011 f.funct7 f.funct3) pc w
      Except.ok (⟨(rowOpImm .add).main, noBranch, memControlOf f.funct3, 0b00⟩, code, .i)) := by
  simp [decodeTables, hop, controlMainTable, controlJumpTable, controlEcallTable, immGenTable, tableMatch1, tableMatch2,
    tableMatch_controlMem, rowOpImm]

theorem decodeTables_load (hop : (splitFields w).opcode = 0b0000011#7) :
    decodeTables pc w = (do
      let f := splitFields w
      let branch ← rowOrFatal (tableMatch2 controlJumpTable 0b0000011 f.funct3) (.controlJump f.opcode f.funct3) pc w
      Except.ok (⟨rowLoad.main, branch, memControlOf f.funct3, 0b00⟩, aluCode .add, .i)) := by
  simp [decodeTables, hop, controlMainTable, controlEcallTable, aluControlTable, immGenTable, tableMatch1, tableMatch2,
    tableMatch3, tableMatch_controlMem, rowLoad]

theorem decodeTables_store (hop : (splitFields w).opcode = 0b0100011#7) :
    decodeTables pc w = (do
      let f := splitFields w
      let branch ← rowOrFatal (tableMatch2 controlJumpTable 0b0100011 f.funct3) (.controlJump f.opcode f.funct3) pc w
      Except.ok (⟨rowStore.main, branch, memControlOf f.funct3, 0b00⟩, aluCode .add, .s)) := by
  simp [decodeTables, hop, controlMainTable, controlEcallTable, aluControlTable, immGenTable, tableMatch1, tableMatch2,
    tableMatch3, tableMatch_controlMem, rowStore]

theorem decodeTables_branch (hop : (splitFields w).opcode = 0b1100011#7) :
    decodeTables pc w = (do
      let f := splitFields w
      let branch ← rowOrFatal (tableMatch2 controlJumpTable 0b1100011 f.funct3) (.controlJump f.opcode f.funct3) pc w
      let code ← rowOrFatal (tableMatch3 aluControlTable 0b001 f.funct7 f.funct3) (.aluControl 0b001 f.funct7 f.funct3) pc w
      Except.ok (⟨(rowBranch branch .sub).main, branch, memControlOf f.funct3, 0b00⟩, code, .sb)) := by
  simp [decodeTables, hop, controlMainTable, controlEcallTable, immGenTable, tableMatch1, tableMatch2,
    tableMatch_controlMem, rowBranch]

theorem decodeTables_jal (hop : (splitFields w).opcode = 0b1101111#7) :
    decodeTables pc w =
      .ok (⟨(controlRow (.jal 0 0)).main, (controlRow (.jal 0 0)).branch, memControlOf (splitFields w).funct3, 0b00⟩,
        aluCode .add, .uj) := by
  simp [decodeTables, hop, controlMainTable, controlJumpTable, controlEcallTable, aluControlTable, immGenTable, tableMatch1,
    tableMatch2, tableMatch3, tableMatch_controlMem, controlRow]

theorem decodeTables_jalr (hop : (splitFields w).opcode = 0b1100111#7) :
    decodeTables pc w = (do
      let f := splitFields w
      let branch ← rowOrFatal (tableMatch2 controlJumpTable 0b1100111 f.funct3) (.controlJump f.opcode f.funct3) pc w
      Except.ok (⟨(controlRow (.jalr 0 0 0)).main, branch, memControlOf f.funct3, 0b00⟩, aluCode .add, .i)) := by
  simp [decodeTables, hop, controlMainTable, controlEcallTable, aluControlTable, immGenTable, tableMatch1, tableMatch2,
    tableMatch3, tableMatch_controlMem, controlRow]

theorem decodeTables_lui (hop : (splitFields w).opcode = 0b0110111#7) :
    decodeTables pc w =
      .ok (⟨(controlRow (.lui 0 0)).main, noBranch, memControlOf (splitFields w).funct3, 0b00⟩, aluCode .lui, .u) := by
  simp [decodeTables, hop, controlMainTable, controlJumpTable, controlEcallTable, aluControlTable, immGenTable, tableMatch1,
    tableMatch2, tableMatch3, tableMatch_controlMem, controlRow]

theorem decodeTables_auipc (hop : (splitFields w).opcode = 0b0010111#7) :
    decodeTables pc w =
      .ok (⟨(controlRow (.auipc 0 0)).main, noBranch, memControlOf (splitFields w).funct3, 0b00⟩, aluCode .add, .u) := by
  simp [decodeTables, hop, controlMainTable, controlJumpTable, controlEcallTable, aluControlTable, immGenTable, tableMatch1,
    tableMatch2, tableMatch3, tableMatch_controlMem, controlRow]

theorem decodeTables_system (hop : (splitFields w).opcode = 0b1110011#7) :
    decodeTables pc w = (do
      let f := splitFields w
      let branch ← rowOrFatal (tableMatch2 controlJumpTable 0b1110011 f.funct3) (.controlJump f.opcode f.funct3) pc w
      let ecall ← rowOrFatal (tableMatch2 controlEcallTable 0b1110011 (immFieldI w)) (.controlEcall f.opcode (immFieldI w)) pc w
      Except.ok (⟨(rowSystem ecall).main, branch, memControlOf f.funct3, ecall⟩, aluCode .add, .i)) := by
  simp [decodeTables, hop, controlMainTable, aluControlTable, immGenTable, tableMatch1, tableMatch3,
    tableMatch_controlMem, rowSystem]

end

/-! ## Accepted words -/

/-- The tables give every instruction its own row of R148, its ALU operation's code and its immediate format. -/
theorem decodeTables_encode (pc : Word) (i : Instr) :
    decodeTables pc (encode i) =
      .ok (⟨(controlRow i).main, (controlRow i).branch, memControlOf (splitFields (encode i)).funct3, (controlRow i).ecall⟩,
        aluCode (controlRow i).op, formatOf i) := by
  cases i with
  | add _ _ _ | sub _ _ _ | sll _ _ _ | slt _ _ _ | sltu _ _ _ | xor _ _ _ | srl _ _ _ | sra _ _ _ | or _ _ _
  | and _ _ _ =>
    simp only [encode]
    rw [decodeTables_op _ _ (by simp [splitFields_encodeR])]
    simp only [splitFields_encodeR]
    rfl
  | slli _ _ _ | srli _ _ _ | srai _ _ _ =>
    simp only [encode]
    rw [decodeTables_opImm _ _ (by simp [splitFields_encodeR])]
    simp only [splitFields_encodeR]
    rfl
  | addi _ _ _ | slti _ _ _ | sltiu _ _ _ | xori _ _ _ | ori _ _ _ | andi _ _ _ =>
    simp only [encode]
    rw [decodeTables_opImm _ _ (by simp [splitFields_encodeI])]
    simp [splitFields_encodeI, aluControlTable, tableMatch3, controlRow, rowOpImm, formatOf]
  | lui _ _ =>
    exact decodeTables_lui _ _ (by simp [encode, splitFields_encodeU])
  | auipc _ _ =>
    exact decodeTables_auipc _ _ (by simp [encode, splitFields_encodeU])
  | lb _ _ _ | lh _ _ _ | lw _ _ _ | lbu _ _ _ | lhu _ _ _ =>
    simp only [encode]
    rw [decodeTables_load _ _ (by simp [splitFields_encodeI])]
    simp only [splitFields_encodeI]
    rfl
  | sb _ _ _ | sh _ _ _ | sw _ _ _ =>
    simp only [encode]
    rw [decodeTables_store _ _ (by simp [splitFields_encodeS])]
    simp only [splitFields_encodeS]
    rfl
  | beq _ _ _ | bne _ _ _ | blt _ _ _ | bge _ _ _ | bltu _ _ _ | bgeu _ _ _ =>
    simp only [encode]
    rw [decodeTables_branch _ _ (by simp [splitFields_encodeSB])]
    simp [splitFields_encodeSB, controlJumpTable, tableMatch2, aluControlTable, tableMatch3, controlRow, rowBranch, formatOf]
  | jal _ _ =>
    exact decodeTables_jal _ _ (by simp [encode, splitFields_encodeUJ])
  | jalr _ _ _ =>
    simp only [encode]
    rw [decodeTables_jalr _ _ (by simp [splitFields_encodeI])]
    simp only [splitFields_encodeI]
    rfl
  | ecall _ _ | ebreak _ _ =>
    simp only [encode]
    rw [decodeTables_system _ _ (by simp [splitFields_encodeI])]
    simp only [splitFields_encodeI, immFieldI_encodeI]
    rfl

/-! ## Rejected words -/

section
variable {f : Fields} {m : NoMatch}

theorem decodeOp_error (h : decodeOp f = .error m) :
    m = .aluControl 0b010 f.funct7 f.funct3 ∧ tableMatch3 aluControlTable 0b010 f.funct7 f.funct3 = none := by
  unfold decodeOp at h
  split at h <;> cases h
  refine ⟨rfl, ?_⟩
  simp only [imp_false, ← not_and] at *
  simp [aluControlTable, tableMatch3, *]

theorem decodeOpImm_error {imm : BitVec 12} (h : decodeOpImm f imm = .error m) :
    m = .aluControl 0b011 f.funct7 f.funct3 ∧ tableMatch3 aluControlTable 0b011 f.funct7 f.funct3 = none := by
  unfold decodeOpImm at h
  split at h
  case h_7 hf3 =>
    split at h <;> cases h
    refine ⟨rfl, ?_⟩
    simp only [imp_false] at *
    simp [aluControlTable, tableMatch3, *]
  case h_8 =>
    have hf3 : f.funct3 = 5#3 := funct3_eq_five ‹_› ‹_› ‹_› ‹_› ‹_› ‹_› ‹_›
    split at h <;> cases h
    refine ⟨rfl, ?_⟩
    simp only [imp_false] at *
    simp [aluControlTable, tableMatch3, *]
  all_goals cases h

theorem decodeLoad_error {imm : BitVec 12} (h : decodeLoad f imm = .error m) :
    m = .controlJump f.opcode f.funct3 ∧ tableMatch2 controlJumpTable 0b0000011 f.funct3 = none := by
  unfold decodeLoad at h
  split at h <;> cases h
  refine ⟨rfl, ?_⟩
  simp only [imp_false] at *
  simp [controlJumpTable, tableMatch2, *]

theorem decodeStore_error {imm : BitVec 12} (h : decodeStore f imm = .error m) :
    m = .controlJump f.opcode f.funct3 ∧ tableMatch2 controlJumpTable 0b0100011 f.funct3 = none := by
  unfold decodeStore at h
  split at h <;> cases h
  refine ⟨rfl, ?_⟩
  simp only [imp_false] at *
  simp [controlJumpTable, tableMatch2, *]

theorem decodeBranch_error {offset : BitVec 13} (h : decodeBranch f offset = .error m) :
    m = .controlJump f.opcode f.funct3 ∧ tableMatch2 controlJumpTable 0b1100011 f.funct3 = none := by
  unfold decodeBranch at h
  split at h <;> cases h
  refine ⟨rfl, ?_⟩
  simp only [imp_false] at *
  simp [controlJumpTable, tableMatch2, *]

theorem decodeJalr_error {imm : BitVec 12} (h : decodeJalr f imm = .error m) :
    m = .controlJump f.opcode f.funct3 ∧ tableMatch2 controlJumpTable 0b1100111 f.funct3 = none := by
  unfold decodeJalr at h
  split at h <;> cases h
  refine ⟨rfl, ?_⟩
  simp only [imp_false] at *
  simp [controlJumpTable, tableMatch2, *]

theorem decodeSystem_error {imm : BitVec 12} (h : decodeSystem f imm = .error m) :
    (m = .controlJump f.opcode f.funct3 ∧ tableMatch2 controlJumpTable 0b1110011 f.funct3 = none) ∨
    (m = .controlEcall f.opcode imm ∧ tableMatch2 controlJumpTable 0b1110011 f.funct3 = some noBranch ∧
      tableMatch2 controlEcallTable 0b1110011 imm = none) := by
  unfold decodeSystem at h
  split at h
  next hf3 =>
    split at h <;> cases h
    refine .inr ⟨rfl, by rw [hf3]; rfl, ?_⟩
    simp only [imp_false] at *
    simp [controlEcallTable, tableMatch2, *]
  · cases h
    refine .inl ⟨rfl, ?_⟩
    simp only [imp_false] at *
    simp [controlJumpTable, tableMatch2, *]

end

/-- A word the decoder rejects is rejected by the tables, in the order of R92, at the same table with the same inputs. -/
theorem decodeTables_of_decode_error (pc w : Word) (m : NoMatch) (h : decode w = .error m) :
    decodeTables pc w = .error (.decodeNoMatch m pc w) := by
  unfold decode at h
  dsimp only at h
  split at h
  next hop =>
    obtain ⟨rfl, hnone⟩ := decodeOp_error h
    simp only [decodeTables_op pc w hop, hnone, rowOrFatal_none, error_bind]
  next hop =>
    obtain ⟨rfl, hnone⟩ := decodeOpImm_error h
    simp only [decodeTables_opImm pc w hop, hnone, rowOrFatal_none, error_bind]
  next hop =>
    obtain ⟨rfl, hnone⟩ := decodeLoad_error h
    simp only [decodeTables_load pc w hop, hnone, rowOrFatal_none, error_bind]
  next hop =>
    obtain ⟨rfl, hnone⟩ := decodeStore_error h
    simp only [decodeTables_store pc w hop, hnone, rowOrFatal_none, error_bind]
  next hop =>
    obtain ⟨rfl, hnone⟩ := decodeBranch_error h
    simp only [decodeTables_branch pc w hop, hnone, rowOrFatal_none, error_bind]
  · cases h
  next hop =>
    obtain ⟨rfl, hnone⟩ := decodeJalr_error h
    simp only [decodeTables_jalr pc w hop, hnone, rowOrFatal_none, error_bind]
  · cases h
  · cases h
  next hop =>
    obtain ⟨rfl, hnone⟩ | ⟨rfl, hsome, hnone⟩ := decodeSystem_error h
    · simp only [decodeTables_system pc w hop, hnone, rowOrFatal_none, error_bind]
    · simp only [decodeTables_system pc w hop, hsome, rowOrFatal_some, ok_bind, hnone, rowOrFatal_none, error_bind]
  · cases h
    simp only [imp_false] at *
    have hnone : tableMatch1 controlMainTable (splitFields w).opcode = none := by
      simp [controlMainTable, tableMatch1, *]
    simp only [decodeTables, hnone, rowOrFatal_none, error_bind]

end Sys2Proof.Machine
end

section
/-! PROOFS. The tick through the components (40_datapath.md R130) in closed form, and its agreement with the instructions' own
meanings. -/

namespace Sys2Proof.Machine

open Sys2Proof.Claims

/-! ## The components -/

/-- The InstructionMemory is the fetch of R54. -/
theorem instructionMemory_eq_fetch (s : State) : instructionMemory s.pc s.imem = s.fetch := by
  have hwidth : widthOfSize 0b10#2 = some 4 := rfl
  unfold instructionMemory memoryWrapper State.fetch
  simp only [hwidth]
  cases loadBytes .instruction s.pc s.imem s.pc.toNat 4 with
  | error f => rfl
  | ok v => simp [extendLoaded]

theorem mux_selectOf (name : MuxId) (a b : Word) (c : Bool) : mux name [a, b] (selectOf c) = .ok (if c then b else a) := by
  cases c <;> rfl

/-- The write-back mux never selects beyond its four inputs (R146). -/
theorem mux_writeSrc (name : MuxId) (result memData link auipc : Word) (writeSrc : BitVec 2) :
    mux name [result, memData, link, auipc] writeSrc.toNat = .ok (writeBackValue writeSrc result memData link auipc) := by
  have hcases : ∀ x : BitVec 2, x = 0b00 ∨ x = 0b01 ∨ x = 0b10 ∨ x = 0b11 := by decide
  obtain rfl | rfl | rfl | rfl := hcases writeSrc <;> rfl

theorem alu_aluCode (op : AluOp) (in1 in2 pc inst : Word) :
    alu (aluCode op) in1 in2 pc inst = .ok (aluResult op in1 in2, zeroOf (aluResult op in1 in2)) := by
  unfold alu
  rw [tableMatch_aluOp, rowOrFatal_some]

/-- The ImmGen reads an instruction's own immediate off its word. -/
theorem extractImm_encode (i : Instr) (h : wellFormed i = true) : extractImm (formatOf i) (encode i) = immediateOf i := by
  cases i with
  | add _ _ _ | sub _ _ _ | sll _ _ _ | slt _ _ _ | sltu _ _ _ | xor _ _ _ | srl _ _ _ | sra _ _ _ | or _ _ _
  | and _ _ _ => rfl
  | slli _ _ _ | srli _ _ _ | srai _ _ _ => exact congrArg imm12 (immFieldI_encodeR ..)
  | addi _ _ _ | slti _ _ _ | sltiu _ _ _ | xori _ _ _ | ori _ _ _ | andi _ _ _ | lb _ _ _ | lh _ _ _ | lw _ _ _
  | lbu _ _ _ | lhu _ _ _ | jalr _ _ _ | ecall _ _ | ebreak _ _ => exact congrArg imm12 (immFieldI_encodeI ..)
  | sb _ _ _ | sh _ _ _ | sw _ _ _ => exact congrArg imm12 (immFieldS_encodeS ..)
  | beq _ _ _ | bne _ _ _ | blt _ _ _ | bge _ _ _ | bltu _ _ _ | bgeu _ _ _ =>
    exact congrArg immBranch (immFieldSB_encodeSB _ _ _ _ _ (by simpa [wellFormed, evenBranchOffset] using h))
  | lui _ _ | auipc _ _ => exact congrArg immUpper (immFieldU_encodeU ..)
  | jal _ _ => exact congrArg immJump (immFieldUJ_encodeUJ _ _ _ (by simpa [wellFormed, evenJumpOffset] using h))

/-! ## The tick of an accepted word -/

/-- What the datapath drives the DataMemory with in the tick of `i` (R130 step 9). -/
def dataPort (i : Instr) (s : State) : MemoryPort :=
  let g := signalsOf i idleMemData s
  ⟨g.result, g.control.main.memRead, g.control.main.memWrite, g.readData2, g.control.mem.memSize, g.control.mem.memSigned⟩

/-- Step 11 of R130 in the tick of `i`, given the DataMemory's output and contents. -/
def writeBack (i : Instr) (s : State) (access : Word × Memory) : State :=
  let g := signalsOf i access.1 s
  (registerWrite g.control.main.regWrite g.fields.rd g.writeData { s with dmem := access.2 }).retire g.nextPC g

/-- The closed form of an accepted word's tick: the one component left that can raise a condition is the DataMemory. -/
def acceptedCycle (i : Instr) (s : State) : Except Fatal State :=
  (memoryWrapper .data s.pc s.dmem (dataPort i s)).map (writeBack i s)

theorem datapathCycle_of_decode (s : State) (w : Word) (i : Instr) (hf : s.fetch = .ok w) (hd : decode w = .ok i) :
    datapathCycle s = acceptedCycle i s := by
  obtain ⟨rfl, hwf⟩ := encode_of_decode hd
  unfold datapathCycle
  simp only [instructionMemory_eq_fetch, hf, ok_bind, decodeTables_encode, extractImm_encode i hwf, mux_selectOf, alu_aluCode,
    mux_writeSrc]
  rfl

/-- A rejected word's tick ends at the table that rejects it. -/
theorem datapathCycle_of_decode_error (s : State) (w : Word) (m : NoMatch) (hf : s.fetch = .ok w)
    (hd : decode w = .error m) : datapathCycle s = .error (.decodeNoMatch m s.pc w) := by
  unfold datapathCycle
  simp only [instructionMemory_eq_fetch, hf, ok_bind, decodeTables_of_decode_error s.pc w m hd, error_bind]

theorem datapathCycle_of_fetch_error (s : State) (e : Fatal) (hf : s.fetch = .error e) : datapathCycle s = .error e := by
  unfold datapathCycle
  simp only [instructionMemory_eq_fetch, hf, error_bind]

/-! ## Comparisons on the zero output (R144) -/

@[simp] theorem jumpControl_takeOnZero (zero : Bool) : jumpControl takeOnZero zero = zero := by
  simp [jumpControl, takeOnZero]

@[simp] theorem jumpControl_takeOnNotZero (zero : Bool) : jumpControl takeOnNotZero zero = !zero := by
  simp [jumpControl, takeOnNotZero]

@[simp] theorem zeroOf_sub (a b : Word) : zeroOf (a - b) = decide (a = b) := by
  simp only [zeroOf, decide_eq_decide]
  exact sub_eq_zero

@[simp] theorem zeroOf_boolWord (c : Bool) : zeroOf (boolWord c) = !c := by
  cases c <;> rfl

/-! ## The closed form is the instruction's own meaning -/

/-- A cycle's answer as a step's. -/
def stepAnswer : Except Fatal State → StepOutcome
  | .error f => .fault (.fatal f)
  | .ok s' => .next s'

section
variable {i : Instr} {s : State} {opcode : BitVec 7} {rd rs1 rs2 : RegIdx} {funct3 : BitVec 3} {funct7 : BitVec 7}
  {imm : BitVec 12} {n : Nat} {size : BitVec 2} {signed : Bool}

/-- An instruction that drives neither memRead nor memWrite completes. -/
theorem complete_eq_stepAnswer {after : State} {nextPC : Word} (hread : (controlRow i).main.memRead = false)
    (hwrite : (controlRow i).main.memWrite = false)
    (hafter : registerWrite (controlRow i).main.regWrite (splitFields (encode i)).rd (signalsOf i idleMemData s).writeData s =
      after)
    (hnext : (signalsOf i idleMemData s).nextPC = nextPC) :
    complete i idleMemData s after nextPC = stepAnswer (acceptedCycle i s) := by
  have hport : memoryWrapper .data s.pc s.dmem (dataPort i s) = .ok (idleMemData, s.dmem) := by
    simp [memoryWrapper, dataPort, signalsOf, hread, hwrite]
  subst hafter hnext
  unfold acceptedCycle
  rw [hport]
  rfl

/-- A load drives memRead alone: the DataMemory's condition is the load's, and its output is the value loaded. -/
theorem loadTo_eq_stepAnswer (hfields : splitFields (encode i) = ⟨opcode, rd, funct3, rs1, rs2, funct7⟩)
    (hrow : controlRow i = rowLoad) (himm : immediateOf i = imm12 imm) (hmem : memControlOf funct3 = ⟨size, signed⟩)
    (hsize : widthOfSize size = some n) : loadTo i n signed rd rs1 imm s = stepAnswer (acceptedCycle i s) := by
  have hport : dataPort i s = ⟨effectiveAddress s rs1 imm, true, false, s.reg rs2, size, signed⟩ := by
    simp [dataPort, signalsOf, hfields, hrow, rowLoad, himm, hmem, aluResult, effectiveAddress]
  have hback : ∀ v : Word, complete i v s (s.setReg rd v) (pcPlus4 s.pc) = .next (writeBack i s (v, s.dmem)) := by
    intro v
    simp [complete, writeBack, registerWrite, signalsOf, hfields, hrow, rowLoad, writeBackValue, jumpControl, noBranch]
  unfold acceptedCycle loadTo State.memRead memoryWrapper
  simp only [hport, hsize]
  cases loadBytes .data s.pc s.dmem (effectiveAddress s rs1 imm).toNat n with
  | error f => rfl
  | ok v => exact hback _

/-- A store drives memWrite alone: the DataMemory's condition is the store's, and its contents are those stored. -/
theorem storeFrom_eq_stepAnswer (hfields : splitFields (encode i) = ⟨opcode, rd, funct3, rs1, rs2, funct7⟩)
    (hrow : controlRow i = rowStore) (himm : immediateOf i = imm12 imm) (hmem : memControlOf funct3 = ⟨size, true⟩)
    (hsize : widthOfSize size = some n) : storeFrom i n size rs2 rs1 imm s = stepAnswer (acceptedCycle i s) := by
  have hport : dataPort i s = ⟨effectiveAddress s rs1 imm, false, true, s.reg rs2, size, true⟩ := by
    simp [dataPort, signalsOf, hfields, hrow, rowStore, himm, hmem, aluResult, effectiveAddress]
  have hback : ∀ (v : Word) (m : Memory),
      complete i v s { s with dmem := m } (pcPlus4 s.pc) = .next (writeBack i s (v, m)) := by
    intro v m
    simp [complete, writeBack, registerWrite, signalsOf, hfields, hrow, rowStore, jumpControl, noBranch]
  unfold acceptedCycle storeFrom State.memWrite memoryWrapper
  simp only [hport, hsize]
  cases storeBytes .data s.pc s.dmem (effectiveAddress s rs1 imm).toNat n ((s.reg rs2).setWidth (8 * n)).toNat with
  | error f => rfl
  | ok m => exact hback _ _

/-- A branch is taken as JumpControl says of the ALU's zero output (R144). -/
theorem branchIf_eq_stepAnswer {branch : BranchControl} {op : AluOp} {offset : BitVec 13} {taken : Bool}
    (hfields : splitFields (encode i) = ⟨opcode, rd, funct3, rs1, rs2, funct7⟩) (hrow : controlRow i = rowBranch branch op)
    (himm : immediateOf i = immBranch offset) (hjalr : branch.jalr = false)
    (htaken : jumpControl branch (zeroOf (aluResult op (s.reg rs1) (s.reg rs2))) = taken) :
    branchIf taken i offset s = stepAnswer (acceptedCycle i s) := by
  refine complete_eq_stepAnswer (by rw [hrow]; rfl) (by rw [hrow]; rfl) (by rw [hrow]; rfl) ?_
  simp [signalsOf, hfields, hrow, rowBranch, himm, hjalr, htaken]

end

/-- Each instruction's own meaning is the closed form: its write and its next PC are those of its control row (R148). -/
theorem exec_eq_stepAnswer (i : Instr) (s : State) : exec i s = stepAnswer (acceptedCycle i s) := by
  cases i with
  | add _ _ _ | sub _ _ _ | sll _ _ _ | slt _ _ _ | sltu _ _ _ | xor _ _ _ | srl _ _ _ | sra _ _ _ | or _ _ _
  | and _ _ _ | slli _ _ _ | srli _ _ _ | srai _ _ _ =>
    refine complete_eq_stepAnswer rfl rfl ?_ rfl
    simp only [signalsOf, encode, splitFields_encodeR]
    rfl
  | addi _ _ _ | slti _ _ _ | sltiu _ _ _ | xori _ _ _ | ori _ _ _ | andi _ _ _ =>
    refine complete_eq_stepAnswer rfl rfl ?_ rfl
    simp only [signalsOf, encode, splitFields_encodeI]
    rfl
  | lui _ _ | auipc _ _ =>
    refine complete_eq_stepAnswer rfl rfl ?_ rfl
    simp only [signalsOf, encode, splitFields_encodeU]
    rfl
  | jal _ _ =>
    refine complete_eq_stepAnswer rfl rfl ?_ rfl
    simp only [signalsOf, encode, splitFields_encodeUJ]
    rfl
  | jalr _ _ _ =>
    refine complete_eq_stepAnswer rfl rfl ?_ ?_ <;>
    · simp only [signalsOf, encode, splitFields_encodeI]
      rfl
  | ecall _ _ | ebreak _ _ =>
    exact complete_eq_stepAnswer rfl rfl rfl rfl
  | lb _ _ _ | lh _ _ _ | lw _ _ _ | lbu _ _ _ | lhu _ _ _ =>
    exact loadTo_eq_stepAnswer (splitFields_encodeI ..) rfl rfl rfl rfl
  | sb _ _ _ | sh _ _ _ | sw _ _ _ =>
    exact storeFrom_eq_stepAnswer (splitFields_encodeS ..) rfl rfl rfl rfl
  | beq _ _ _ | bne _ _ _ | blt _ _ _ | bge _ _ _ | bltu _ _ _ | bgeu _ _ _ =>
    exact branchIf_eq_stepAnswer (splitFields_encodeSB ..) rfl rfl rfl (by simp [aluResult])

/-! ## The step and the datapath's tick -/

theorem datapathStep_of_notFaulted (s : State) (hs : NotFaulted s) : datapathStep s = stepAnswer (datapathCycle s) := by
  unfold datapathStep
  split
  · exact absurd ‹_› (hs _)
  · cases datapathCycle s <;> rfl

/-- Where the core is not faulted, fetch, decode and execution answer what the cycle through the components answers. -/
theorem step_of_notFaulted (s : State) (hs : NotFaulted s) : step s = stepAnswer (datapathCycle s) := by
  unfold step
  split
  · exact absurd ‹_› (hs _)
  · cases hf : s.fetch with
    | error e => rw [datapathCycle_of_fetch_error s e hf]; rfl
    | ok w =>
      dsimp only
      cases hd : decode w with
      | error m => rw [datapathCycle_of_decode_error s w m hf hd]; rfl
      | ok i => rw [datapathCycle_of_decode s w i hf hd]; exact exec_eq_stepAnswer i s

/-- Settles O11: both answer the datapath's cycle, and a faulted core takes neither. -/
theorem stepIsTheDatapathTick : Obligations.StepIsTheDatapathTick := by
  intro s
  by_cases hs : NotFaulted s
  · rw [step_of_notFaulted s hs, datapathStep_of_notFaulted s hs]
  · obtain ⟨f, hf⟩ : ∃ f, s.status = .faulted f := by simpa [NotFaulted] using hs
    simp only [step, datapathStep, hf]

end Sys2Proof.Machine
end

section
/-! PROOFS. No tick reads a retained signal or the status of a core that is not faulted (00_scope.md R12, 10_state.md R35, R36):
no component of the datapath has one among its inputs. -/

namespace Sys2Proof.Machine

open Sys2Proof.Claims

/-- The end of a tick overwrites the signals and the status it is given. -/
theorem retire_registerWrite_congr (s : State) (g : Signals) (st : Status) (m : Memory) (regWrite : Bool) (rd : RegIdx)
    (data nextPC : Word) (sig : Signals) :
    (registerWrite regWrite rd data { s with dmem := m, sig := g, status := st }).retire nextPC sig =
      (registerWrite regWrite rd data { s with dmem := m }).retire nextPC sig := by
  unfold registerWrite State.setReg
  split_ifs <;> rfl

theorem datapathCycle_congr (s : State) (g : Signals) (st : Status) :
    datapathCycle { s with sig := g, status := st } = datapathCycle s := by
  unfold datapathCycle
  simp only [retire_registerWrite_congr]
  rfl

/-- Settles O46: the step of either state is the datapath's cycle, which neither state's signals nor status enter. -/
theorem stepIgnoresSignalsAndStatus : Obligations.StepIgnoresSignalsAndStatus := by
  intro s g st hs hst
  rw [step_of_notFaulted s hs, step_of_notFaulted { s with sig := g, status := st } hst, datapathCycle_congr]

end Sys2Proof.Machine
end

section
/-! PROOFS. What a tick leaves behind: a completed one the write-back of its instruction, under the signals of that tick
(40_datapath.md R130, 10_state.md R27, R35, R36), a fatal one its record alone (60_exceptions.md R261). -/

namespace Sys2Proof.Machine

open Sys2Proof.Claims

/-! ## The state a completed tick leaves -/

theorem stepAnswer_next_iff (answer : Except Fatal State) (t : State) : stepAnswer answer = .next t ↔ answer = .ok t := by
  cases answer <;> simp [stepAnswer]

theorem acceptedCycle_ok {i : Instr} {s t : State} (h : acceptedCycle i s = .ok t) : ∃ access, t = writeBack i s access := by
  unfold acceptedCycle at h
  cases hport : memoryWrapper .data s.pc s.dmem (dataPort i s) with
  | error f => rw [hport] at h; cases h
  | ok access => rw [hport] at h; cases h; exact ⟨access, rfl⟩

/-- Everything a completed step can do: the write-back of the instruction at the PC, for some answer of the DataMemory. -/
theorem step_next_writeBack {s t : State} (h : step s = .next t) :
    ∃ i access, s.fetch = .ok (encode i) ∧ decode (encode i) = .ok i ∧ t = writeBack i s access := by
  obtain ⟨inst, i, hf, hd, he⟩ := step_next s t h
  obtain ⟨rfl, -⟩ := encode_of_decode hd
  rw [exec_eq_stepAnswer, stepAnswer_next_iff] at he
  obtain ⟨access, rfl⟩ := acceptedCycle_ok he
  exact ⟨i, access, hf, hd, rfl⟩

theorem reg_registerWrite (regWrite : Bool) (rd r : RegIdx) (data : Word) (s : State) :
    (registerWrite regWrite rd data s).reg r = if regWrite = true ∧ r = rd ∧ r ≠ 0#5 then data else s.reg r := by
  cases regWrite <;> simp [registerWrite, State.reg_setReg]

theorem writeBack_pc (i : Instr) (s : State) (access : Word × Memory) :
    (writeBack i s access).pc = (writeBack i s access).sig.nextPC := rfl

/-- The register file after the write-back: writeData at rd where regWrite is 1 and rd is not x0 (10_state.md R22). -/
theorem reg_writeBack (i : Instr) (s : State) (access : Word × Memory) (r : RegIdx) :
    (writeBack i s access).reg r =
      if (controlRow i).main.regWrite = true ∧ r = (splitFields (encode i)).rd ∧ r ≠ 0#5 then
        (signalsOf i access.1 s).writeData
      else s.reg r :=
  reg_registerWrite _ _ _ _ _

theorem reg_writeBack_of_not_regWrite {i : Instr} (s : State) (access : Word × Memory) (r : RegIdx)
    (h : (controlRow i).main.regWrite = false) : (writeBack i s access).reg r = s.reg r := by
  rw [reg_writeBack, if_neg (by simp [h])]

/-! ## The signals and the registers of a completed tick -/

/-- Settles O45: the state is the write-back of the instruction fetched, which retains the signals it writes by. -/
theorem signalsDescribeTheTick : Obligations.SignalsDescribeTheTick := by
  intro s t h
  obtain ⟨i, access, hf, -, rfl⟩ := step_next_writeBack h
  refine ⟨rfl, hf, rfl, rfl, rfl, rfl, fun hwrite hrd => ?_, fun hwrite r => ?_⟩
  · exact (reg_writeBack i s access _).trans (if_pos ⟨hwrite, rfl, hrd⟩)
  · exact reg_writeBack_of_not_regWrite s access r hwrite

/-- The instructions R23 lists are those whose control row has regWrite 0. -/
theorem writesNoRegister_eq (i : Instr) : writesNoRegister i = !(controlRow i).main.regWrite := by
  cases i <;> rfl

/-- Settles O49: the write-back touches rd alone, and no register where regWrite is 0. -/
theorem onlyTheDestinationRegisterChanges : Obligations.OnlyTheDestinationRegisterChanges := by
  intro s t inst i hf hd h
  obtain ⟨j, access, hf', hd', rfl⟩ := step_next_writeBack h
  obtain rfl : encode j = inst := Except.ok.inj (hf'.symm.trans hf)
  obtain rfl : j = i := Except.ok.inj (hd'.symm.trans hd)
  refine ⟨fun hnone r => ?_, fun r hr => ?_, State.reg_zero _⟩
  · exact reg_writeBack_of_not_regWrite s access r (by simpa [writesNoRegister_eq] using hnone)
  · rw [reg_writeBack, if_neg (by simp [hr])]

/-! ## Fatal ticks -/

theorem step_of_faulted {s : State} {f : Fatal} (h : s.status = .faulted f) : step s = .fault (.faultedCore f) := by
  simp only [step, h]

theorem tick_of_faulted {s : State} {f : Fatal} (h : s.status = .faulted f) : tick s = s := by
  simp only [tick, step_of_faulted h]

theorem tick_of_fatal {s : State} {f : Fatal} (h : step s = .fault (.fatal f)) : tick s = s.enterFaulted f := by
  simp only [tick, h]

/-- Settles O39: the tick records the condition and nothing else, and a faulted core is a fixed point of `tick`. -/
theorem fatalTickIsTerminalAndWritesNothing : Obligations.FatalTickIsTerminalAndWritesNothing := by
  intro s f h
  have hstatus : (s.enterFaulted f).status = .faulted f := State.enterFaulted_status s f
  rw [tick_of_fatal h]
  refine ⟨rfl, fun r => State.reg_congr rfl r, rfl, rfl, rfl, rfl, hstatus, fun n => ?_⟩
  rw [Function.iterate_fixed (tick_of_faulted hstatus)]
  exact ⟨rfl, step_of_faulted hstatus⟩

/-! ## The status after a tick -/

theorem tick_eq_writeBack_or_faulted (s : State) :
    (∃ i access, tick s = writeBack i s access) ∨ ∃ f, (tick s).status = .faulted f := by
  by_cases hs : NotFaulted s
  · cases hcycle : datapathCycle s with
    | error f =>
      have hstep : step s = .fault (.fatal f) := by rw [step_of_notFaulted s hs, hcycle]; rfl
      exact .inr ⟨f, by rw [tick_of_fatal hstep, State.enterFaulted_status]⟩
    | ok t =>
      have hstep : step s = .next t := by rw [step_of_notFaulted s hs, hcycle]; rfl
      obtain ⟨i, access, -, -, rfl⟩ := step_next_writeBack hstep
      exact .inl ⟨i, access, by simp only [tick, hstep]⟩
  · obtain ⟨f, hf⟩ : ∃ f, s.status = .faulted f := by simpa [NotFaulted] using hs
    exact .inr ⟨f, by rw [tick_of_faulted hf, hf]⟩

theorem writeBack_status (i : Instr) (s : State) (access : Word × Memory) :
    (writeBack i s access).status = if isDone (writeBack i s access) then .done else .running := rfl

theorem State.statusWf_of_status {s : State} (h : s.status = if isDone s then .done else .running) : s.statusWf = true := by
  unfold State.statusWf
  cases hdone : isDone s <;> simp [h, hdone]

theorem State.signalsWf_of_pc {s : State} (h : s.pc = s.sig.nextPC) : s.signalsWf = true := by
  unfold State.signalsWf
  cases s.status <;> simp [h]

/-- Settles O44: a completed tick takes its status from `isDone()` and its pc from the signals; of a faulted core nothing is
claimed. -/
theorem tickKeepsStatusAndSignalsInAgreement : Obligations.TickKeepsStatusAndSignalsInAgreement := by
  intro s
  obtain ⟨i, access, ht⟩ | ⟨f, hf⟩ := tick_eq_writeBack_or_faulted s
  · rw [ht]
    exact ⟨State.statusWf_of_status (writeBack_status i s access), State.signalsWf_of_pc (writeBack_pc i s access)⟩
  · simp only [State.statusWf, State.signalsWf, hf, and_self]

theorem tick_status_ne_constructed (s : State) : (tick s).status ≠ .constructed := by
  obtain ⟨i, access, ht⟩ | ⟨f, hf⟩ := tick_eq_writeBack_or_faulted s
  · rw [ht, writeBack_status]
    split <;> nofun
  · rw [hf]; nofun

/-- Settles O43: before the first tick neither predicate claims anything. -/
theorem resetStatusAndSignalsAgree : Obligations.ResetStatusAndSignalsAgree := ⟨rfl, rfl⟩

end Sys2Proof.Machine
end

section
/-! PROOFS. What the host writes before the first tick: register maps (70_reset_and_hazards.md R303), arrays of words and bytes in
a memory (20_memory.md R53), and the launch state construction makes of them (10_state.md R25, R31, R39). -/

namespace Sys2Proof.Machine

open Sys2Proof.Claims

/-! ## Register maps -/

theorem reg_writeRegisters_of_notMem (regMap : List (RegIdx × Word)) (s : State) (r : RegIdx)
    (h : ∀ v, (r, v) ∉ regMap) : (writeRegisters s regMap).reg r = s.reg r := by
  induction regMap generalizing s with
  | nil => rfl
  | cons e rest ih =>
    obtain ⟨x, v⟩ := e
    have hx : r ≠ x := fun hr => h v (by simp [hr])
    rw [writeRegisters, ih _ fun v' hv => h v' (List.mem_cons_of_mem _ hv), State.reg_setReg_other _ _ _ _ hx]

theorem reg_writeRegisters_of_mem (regMap : List (RegIdx × Word)) (s : State) (r : RegIdx) (v : Word)
    (hnodup : (regMap.map fun e => e.1).Nodup) (h : (r, v) ∈ regMap) (hr : r ≠ 0#5) :
    (writeRegisters s regMap).reg r = v := by
  induction regMap generalizing s with
  | nil => cases h
  | cons e rest ih =>
    obtain ⟨hhead, hrest⟩ := List.nodup_cons.1 hnodup
    obtain rfl | hmem := List.mem_cons.1 h
    · have hlater : ∀ v', (r, v') ∉ rest := fun v' hv => hhead (List.mem_map_of_mem (f := fun e => e.1) hv)
      rw [writeRegisters, reg_writeRegisters_of_notMem rest _ r hlater, State.reg_setReg_same _ _ _ hr]
    · exact ih _ hrest hmem

/-! ## The host's moves -/

theorem setRegisters_of_constructed {s : State} (regMap : List (RegIdx × Word)) (h : s.status = .constructed) :
    setRegisters s regMap = .ok (writeRegisters s regMap) :=
  (beforeFirstTick_ok_iff _ _ _).2 ⟨h, rfl⟩

theorem beforeFirstTick_of_not_constructed {s : State} (written : Except Fatal State) (h : s.status ≠ .constructed) :
    beforeFirstTick s written = .error .midRun := by
  unfold beforeFirstTick
  cases hs : s.status with
  | constructed => exact absurd hs h
  | running | done | faulted f => rfl

/-- Settles O36: before the first tick the register map is written and nothing else; afterwards `beforeFirstTick` turns every
move away, and no tick leads back. -/
theorem hostWritesOnlyBeforeTheFirstTick : Obligations.HostWritesOnlyBeforeTheFirstTick := by
  refine ⟨fun s regMap hs => ⟨writeRegisters s regMap, setRegisters_of_constructed regMap hs, ?_, ?_, ?_⟩, ?_,
    tick_status_ne_constructed⟩
  · exact fun hnodup r v hmem hr => reg_writeRegisters_of_mem regMap s r v hnodup hmem hr
  · exact fun r hr => reg_writeRegisters_of_notMem regMap s r hr
  · obtain ⟨regs, hframe⟩ := writeRegisters_frame s regMap
    rw [hframe]
    exact ⟨State.reg_zero _, rfl, rfl, rfl, rfl, rfl, rfl⟩
  · exact fun s regMap words addr w values hs => ⟨beforeFirstTick_of_not_constructed _ hs,
      beforeFirstTick_of_not_constructed _ hs, beforeFirstTick_of_not_constructed _ hs⟩

/-! ## Arrays in memory -/

/-- The low w bytes of a stored value read back (20_memory.md R51, R52, R71). -/
theorem Memory.readNat_writeNat (m : Memory) (addr w value : Nat) :
    (m.writeNat addr w value).readNat addr w = value % 2 ^ (8 * w) := by
  induction w generalizing m addr value with
  | zero => simp [Memory.readNat, Nat.mod_one]
  | succ w ih =>
    have hfirst : ((m.write addr (BitVec.ofNat 8 value)).writeNat (addr + 1) w (value / 256)).read addr =
        BitVec.ofNat 8 value := by
      rw [Memory.read_writeNat, if_neg (by omega), Memory.read_write_same]
    rw [Memory.writeNat, Memory.readNat, hfirst, ih, BitVec.toNat_ofNat, Nat.mul_succ, Nat.add_comm, Nat.pow_add,
      Nat.mul_comm (2 ^ (8 * w)), Nat.mod_mul, Nat.add_comm]

section
variable {id : MemoryId} {pc : Word} {m m' : Memory} {addr w : Nat}

theorem storeArray_cons_ok {v : Nat} {vs : List Nat} (h : storeArray id pc m addr w (v :: vs) = .ok m') :
    addr + w ≤ memorySize id ∧ v < 2 ^ (8 * w) ∧ storeArray id pc (m.writeNat addr w v) (addr + w) w vs = .ok m' := by
  unfold storeArray at h
  split at h
  · cases h
  · rename_i m₁ hstore
    obtain ⟨hrange, hvalue, rfl⟩ := (storeBytes_ok_iff _ _ _ _ _ _ _).1 hstore
    exact ⟨hrange, hvalue, h⟩

/-- An array changes no byte outside its own (R53). -/
theorem read_storeArray_outside {values : List Nat} (h : storeArray id pc m addr w values = .ok m') {a : Nat}
    (ha : a < addr ∨ addr + w * values.length ≤ a) : m'.read a = m.read a := by
  induction values generalizing m addr with
  | nil => cases h; rfl
  | cons v vs ih =>
    obtain ⟨-, -, hrest⟩ := storeArray_cons_ok h
    rw [List.length_cons, Nat.mul_succ] at ha
    rw [ih hrest (by omega), Memory.read_writeNat, if_neg (by omega)]

/-- Every element of a stored array reads back (R53, R71). -/
theorem loadBytes_storeArray {values : List Nat} (h : storeArray id pc m addr w values = .ok m') (pc' : Word) {i : Nat}
    (hi : i < values.length) :
    loadBytes id pc' m' (addr + w * i) w = .ok (BitVec.ofNat (8 * w) values[i]) := by
  induction values generalizing m addr i with
  | nil => cases hi
  | cons v vs ih =>
    obtain ⟨hrange, hvalue, hrest⟩ := storeArray_cons_ok h
    cases i with
    | zero =>
      have hkept : m'.readNat addr w = (m.writeNat addr w v).readNat addr w :=
        Memory.readNat_congr _ _ _ _ fun a _ ha => read_storeArray_outside hrest (.inl ha)
      rw [loadBytes_ok_iff, Nat.mul_zero, Nat.add_zero, hkept, Memory.readNat_writeNat, Nat.mod_eq_of_lt hvalue]
      exact ⟨hrange, rfl⟩
    | succ i =>
      have haddr : addr + w * (i + 1) = addr + w + w * i := by rw [Nat.mul_succ]; omega
      rw [haddr]
      exact ih hrest (Nat.lt_of_succ_lt_succ hi)

end

/-! ## DMEM_INIT -/

section
variable {m m' : Memory} {cells : List Host.Cell} {a : Nat}

theorem storeInitBytes_cons_ok {c : Host.Cell} (h : storeInitBytes m (c :: cells) = .ok m') :
    storeInitBytes (m.write c.1 c.2) cells = .ok m' := by
  unfold storeInitBytes at h
  split at h
  · cases h
  · rename_i m₁ hstore
    obtain ⟨-, -, rfl⟩ := (storeBytes_ok_iff _ _ _ _ _ _ _).1 hstore
    simpa [Memory.writeNat] using h

theorem read_storeInitBytes_of_notMem (h : storeInitBytes m cells = .ok m') (ha : ∀ b, (a, b) ∉ cells) :
    m'.read a = m.read a := by
  induction cells generalizing m with
  | nil => cases h; rfl
  | cons c rest ih =>
    have hc : a ≠ c.1 := fun hac => ha c.2 (by simp [hac])
    rw [ih (storeInitBytes_cons_ok h) fun b hb => ha b (List.mem_cons_of_mem _ hb), Memory.read_write_other _ _ _ _ hc]

theorem read_storeInitBytes_of_mem {b : Byte} (h : storeInitBytes m cells = .ok m')
    (hnodup : (cells.map fun c => c.1).Nodup) (hmem : (a, b) ∈ cells) : m'.read a = b := by
  induction cells generalizing m with
  | nil => cases hmem
  | cons c rest ih =>
    obtain ⟨hhead, hrest⟩ := List.nodup_cons.1 hnodup
    obtain rfl | hmem := List.mem_cons.1 hmem
    · have hlater : ∀ b', (a, b') ∉ rest := fun b' hb => hhead (List.mem_map_of_mem (f := fun c => c.1) hb)
      rw [read_storeInitBytes_of_notMem (storeInitBytes_cons_ok h) hlater, Memory.read_write_same]
    · exact ih (storeInitBytes_cons_ok h) hrest hmem

end

/-! ## The launch state -/

/-- The registers before REGMAP: SP_INIT in x2, GP_INIT in x3, 0 elsewhere (10_state.md R25). -/
theorem reg_blank (spInit gpInit : Word) (r : RegIdx) :
    (State.blank spInit gpInit).reg r = if r = 2 then spInit else if r = 3 then gpInit else 0 := by
  by_cases h0 : r = 0#5
  · subst h0; rfl
  · have hslot : ∀ k : RegIdx, k.toNat = r.toNat ↔ r = k := fun k => by rw [BitVec.toNat_inj, eq_comm]
    simp only [State.reg, if_neg h0, State.blank, Vector.getElem_set, Vector.getElem_replicate,
      show 2 = r.toNat ↔ r = 2 from hslot 2, show 3 = r.toNat ↔ r = 3 from hslot 3]
    by_cases h3 : r = 3
    · subst h3; rfl
    · simp only [if_neg h3]

/-- Everything a construction that answers has done: REGMAP over the blank registers, the code at 0, DMEM_INIT's bytes. -/
theorem construct_ok {l : Launch} {s : State} (h : construct l = .ok s) :
    ∃ imem dmem, storeArray .instruction Config.resetPc [] Config.codeBase 4 l.code = .ok imem ∧
      storeInitBytes [] l.dmemInit = .ok dmem ∧
      s = { State.blank l.spInit l.gpInit with
        regs := (writeRegisters (State.blank l.spInit l.gpInit) l.regMap).regs
        imem := imem
        dmem := dmem
        codeLen := l.code.length } := by
  obtain ⟨regs, hregs⟩ := writeRegisters_frame (State.blank l.spInit l.gpInit) l.regMap
  unfold construct loadCode at h
  rw [hregs] at h ⊢
  cases hcode : storeArray .instruction Config.resetPc [] Config.codeBase 4 l.code with
  | error f => rw [hcode] at h; cases h
  | ok imem =>
    rw [hcode] at h
    dsimp only at h
    split at h
    · cases h
    · rename_i dmem hdata
      cases h
      exact ⟨imem, dmem, rfl, hdata, rfl⟩

/-- Settles O35: the registers are those of `writeRegisters`, the memories those of `storeArray` and `storeInitBytes`, and the
other fields those of the blank state. -/
theorem constructionGivesTheLaunchState : Obligations.ConstructionGivesTheLaunchState := by
  intro l s h
  obtain ⟨imem, dmem, hcode, hdata, rfl⟩ := construct_ok h
  refine ⟨rfl, State.reg_zero _, fun hnodup r v hmem hr => ?_, fun r _ hr => ?_, fun i hi => ?_, fun a ha => ?_,
    fun hnodup a b hmem => ?_, fun a ha => ?_, rfl, rfl, rfl, rfl⟩
  · exact (State.reg_congr rfl r).trans (reg_writeRegisters_of_mem _ _ r v hnodup hmem hr)
  · exact (State.reg_congr rfl r).trans ((reg_writeRegisters_of_notMem _ _ r hr).trans (reg_blank _ _ r))
  · have hload := loadBytes_storeArray hcode 0 hi
    rwa [Nat.zero_add] at hload
  · exact read_storeArray_outside hcode (.inr (by rwa [Nat.zero_add]))
  · exact read_storeInitBytes_of_mem hdata hnodup hmem
  · exact read_storeInitBytes_of_notMem hdata ha

/-- Settles O32: the registers are the blank ones, and the instruction memory lists the one byte of the NOP that is not 0. -/
theorem resetStateHoldsTheSpecsValues : Obligations.ResetStateHoldsTheSpecsValues := by
  refine ⟨rfl, fun r h2 h3 => ?_, fun a => ?_, fun a => rfl, rfl, rfl, rfl, rfl⟩
  · have hblank : State.reset.reg r = (State.blank Config.spInit Config.gpInit).reg r := State.reg_congr rfl r
    rw [hblank, reg_blank, if_neg h2, if_neg h3]
  · simp only [State.reset, Memory.read, eq_comm (a := 0)]
    rfl

end Sys2Proof.Machine
end

section
/-! PROOFS. What a memory holds after the operations of 20_memory.md section 1 (R51 to R53, R71), and when an instruction's access
to data memory is fatal (R64). -/

namespace Sys2Proof.Machine

open Sys2Proof.Claims

/-! ## One byte of a load or a store -/

@[simp] theorem Memory.readNat_one (m : Memory) (addr : Nat) : m.readNat addr 1 = (m.read addr).toNat := rfl

/-- Byte k of a value held in little-endian bytes (R58). -/
theorem extractLsb'_byte_eq_ofNat {n : Nat} (v : BitVec n) (k : Nat) :
    v.extractLsb' (8 * k) 8 = BitVec.ofNat 8 (v.toNat / 256 ^ k) := by
  have hpow : 2 ^ (8 * k) = 256 ^ k := Nat.pow_mul 2 8 k
  apply BitVec.eq_of_toNat_eq
  rw [BitVec.extractLsb'_toNat, Nat.shiftRight_eq_div_pow, hpow, BitVec.toNat_ofNat]

theorem toNat_append_byte {n : Nat} (v : BitVec n) (b : Byte) : (v ++ b).toNat = b.toNat + 256 * v.toNat := by
  rw [BitVec.toNat_append, ← Nat.shiftLeft_add_eq_or_of_lt b.isLt, Nat.shiftLeft_eq, Nat.mul_comm, Nat.add_comm]

/-- The four bytes at an address as a word (R54, R58). -/
theorem ofNat_readNat_four (m : Memory) (addr : Nat) :
    BitVec.ofNat 32 (m.readNat addr 4) =
      wordOfBytes (m.read addr) (m.read (addr + 1)) (m.read (addr + 2)) (m.read (addr + 3)) := by
  apply BitVec.eq_of_toNat_eq
  have hlt : m.readNat addr 4 < 2 ^ 32 := m.readNat_lt addr 4
  rw [BitVec.toNat_ofNat, Nat.mod_eq_of_lt hlt]
  simp only [wordOfBytes, toNat_append_byte, Memory.readNat, Nat.mul_zero, Nat.add_zero]

/-! ## Stores -/

/-- Settles O29: the bytes read are those of the value stored, at the width of the store and one by one. -/
theorem storeThenLoadReturnsTheValue : Obligations.StoreThenLoadReturnsTheValue := by
  intro id pc m m' addr w v h
  obtain ⟨hrange, hvalue, rfl⟩ := (storeBytes_ok_iff _ _ _ _ _ _ _).1 h
  refine ⟨(loadBytes_ok_iff _ _ _ _ _ _).2 ⟨hrange, ?_⟩, fun k hk => (loadBytes_ok_iff _ _ _ _ _ _).2 ⟨by omega, ?_⟩⟩
  · rw [Memory.readNat_writeNat, Nat.mod_eq_of_lt hvalue, BitVec.ofNat_toNat, BitVec.setWidth_eq]
  · rw [Memory.readNat_one, Memory.read_writeNat, if_pos (by omega), Nat.add_sub_cancel_left, BitVec.ofNat_toNat,
      BitVec.setWidth_eq, extractLsb'_byte_eq_ofNat]

theorem storeBytes_of_range {id : MemoryId} {addr w : Nat} (pc : Word) (m : Memory) (value : Nat)
    (h : memorySize id < addr + w) : storeBytes id pc m addr w value = .error (.memoryRange id addr w pc) :=
  if_pos h

theorem storeBytes_of_value {id : MemoryId} {addr w value : Nat} (pc : Word) (m : Memory)
    (hrange : addr + w ≤ memorySize id) (hvalue : 2 ^ (8 * w) ≤ value) :
    storeBytes id pc m addr w value = .error (.memoryValue value w) := by
  rw [storeBytes, if_neg (by omega), if_pos hvalue]

theorem memorySize_eq (id : MemoryId) : memorySize id = 2 ^ 32 := by
  cases id <;> rfl

/-- Settles O30: the two checks in the order `storeBytes` makes them, and the value of a MemWrite fits its width by its type. -/
theorem storeChecksRangeThenValue : Obligations.StoreChecksRangeThenValue := by
  intro id pc m addr w value
  rw [← memorySize_eq id]
  refine ⟨storeBytes_of_range pc m value, storeBytes_of_value pc m, fun hrange hvalue => ?_, fun s address n v x k h => ?_⟩
  · exact ⟨_, (storeBytes_ok_iff _ _ _ _ _ _ _).2 ⟨hrange, hvalue, rfl⟩, m.read_writeNat addr w value⟩
  · obtain ⟨-, hrecord⟩ := (storeBytes_error_iff _ _ _ _ _ _ _).1 h
    cases hrecord

/-! ## Arrays -/

theorem loadArray_storeArray {id : MemoryId} {pc : Word} {m m' : Memory} {addr w : Nat} {values : List Nat}
    (h : storeArray id pc m addr w values = .ok m') (pc' : Word) :
    loadArray id pc' m' addr w values.length = .ok (values.map fun v => BitVec.ofNat (8 * w) v) := by
  induction values generalizing m addr with
  | nil => rfl
  | cons v vs ih =>
    have hhead : loadBytes id pc' m' addr w = .ok (BitVec.ofNat (8 * w) v) :=
      loadBytes_storeArray h pc' (i := 0) (Nat.succ_pos _)
    obtain ⟨-, -, hrest⟩ := storeArray_cons_ok h
    simp only [List.length_cons, loadArray, hhead, ih hrest, List.map_cons]

/-- An array access of the host that succeeds has stored the array in data memory and changed nothing else. -/
theorem writeArray_ok {s t : State} {addr w : Nat} {values : List Nat} (h : writeArray s addr w values = .ok t) :
    ∃ m, storeArray .data s.pc s.dmem addr w values = .ok m ∧ t = { s with dmem := m } := by
  unfold writeArray at h
  split at h
  · cases h
  · cases h
    exact ⟨_, ‹_›, rfl⟩

/-- Settles O31: a preload is a `storeArray` of data memory, which reads back and changes no other byte. -/
theorem preloadedArrayReadsBack : Obligations.PreloadedArrayReadsBack := by
  intro s t addr w values h
  obtain ⟨-, hwritten⟩ := (beforeFirstTick_ok_iff _ _ _).1 h
  obtain ⟨m, hstore, rfl⟩ := writeArray_ok hwritten
  exact ⟨loadArray_storeArray hstore s.pc, fun a ha => read_storeArray_outside hstore ha, rfl, rfl, rfl, rfl, rfl, rfl⟩

/-! ## The accesses of the instructions -/

/-- The statements' little-endian number is the model's. -/
theorem dataBytes_eq_readNat (s : State) (addr n : Nat) : dataBytes s addr n = s.dmem.readNat addr n := by
  induction n generalizing addr with
  | zero => rfl
  | succ n ih => rw [dataBytes, ih, Memory.readNat]

/-- The effective address is a 32-bit sum, so it wraps (44_loads_stores.md R205). -/
theorem effectiveAddress_eq_bits32i (s : State) (rs1 : RegIdx) (imm : BitVec 12) :
    effectiveAddress s rs1 imm = bits32i (((s.reg rs1).toNat : Int) + imm.toInt) := by
  have hsext : imm12 imm = BitVec.ofInt 32 imm.toInt := rfl
  rw [bits32i, BitVec.ofInt_add, BitVec.ofInt_natCast, BitVec.ofNat_toNat, BitVec.setWidth_eq, ← hsext, effectiveAddress]

/-- Everything a load or a store can do: it completes where its bytes lie in the data memory, and is fatal elsewhere. -/
theorem exec_of_accessOf {i : Instr} {s : State} {addr : Word} {n : Nat} (h : accessOf i s = some (addr, n)) :
    ∃ memData after nextPC, exec i s =
      if addr.toNat + n ≤ 2 ^ 32 then complete i memData s after nextPC
      else .fault (.fatal (.memoryRange .data addr.toNat n s.pc)) := by
  cases i with
  | lb _ _ _ | lh _ _ _ | lw _ _ _ | lbu _ _ _ | lhu _ _ _ => cases h; exact ⟨_, _, _, loadTo_eq ..⟩
  | sb _ _ _ | sh _ _ _ | sw _ _ _ => cases h; exact ⟨_, _, _, storeFrom_eq ..⟩
  | _ => cases h

theorem exec_fatal_iff_of_accessOf {i : Instr} {s : State} {addr : Word} {n : Nat} (h : accessOf i s = some (addr, n))
    (f : Fatal) :
    exec i s = .fault (.fatal f) ↔ 2 ^ 32 < addr.toNat + n ∧ f = .memoryRange .data addr.toNat n s.pc := by
  obtain ⟨memData, after, nextPC, hexec⟩ := exec_of_accessOf h
  rw [hexec]
  split
  · simp [complete]; omega
  · simp only [Host.Outcome.fault.injEq, Fault.fatal.injEq, eq_comm (b := f)]
    exact (and_iff_right (by omega)).symm

/-- A word load in range writes the four bytes to rd, whole (R209). -/
theorem exec_lw_of_range {s : State} {rd rs1 : RegIdx} {imm : BitVec 12} (hrd : rd ≠ 0#5)
    (h : (effectiveAddress s rs1 imm).toNat + 4 ≤ 2 ^ 32) :
    ∃ t, exec (.lw rd rs1 imm) s = .next t ∧ t.reg rd = bits32 (dataBytes s (effectiveAddress s rs1 imm).toNat 4) := by
  refine ⟨_, (loadTo_eq ..).trans (if_pos h), ?_⟩
  rw [State.reg_retire, State.reg_setReg_same _ _ _ hrd, dataBytes_eq_readNat]
  exact BitVec.signExtend_eq _

/-- Settles O25: every access answers by its range alone, and `-4(x0)` wraps to the last word of the address space. -/
theorem dataAccessRangeRule : Obligations.DataAccessRangeRule := by
  refine ⟨fun s i addr n h f => exec_fatal_iff_of_accessOf h f, fun addr => ?_, effectiveAddress_eq_bits32i, fun s => ?_⟩
  · constructor <;> bv_omega
  · have hea : effectiveAddress s 0 0xFFC = 0xFFFFFFFC := by rw [effectiveAddress_eq_bits32i]; rfl
    have hlw := exec_lw_of_range (s := s) (rd := 1) (rs1 := 0) (imm := 0xFFC) (by decide) (by rw [hea]; decide)
    rw [hea] at hlw
    exact ⟨hea, hlw⟩

end Sys2Proof.Machine
end

section
/-! PROOFS. What a step keeps of the two memories (20_memory.md R50, R52, R57, R61, R69). -/

namespace Sys2Proof.Machine

open Sys2Proof.Claims

/-! ## The canonical form -/

theorem State.memoryWf_iff (s : State) :
    s.memoryWf = true ↔ (s.imem.wf = true ∧ s.imem.within Config.imemSize = true) ∧
      s.dmem.wf = true ∧ s.dmem.within Config.dmemSize = true := by
  simp only [State.memoryWf, Bool.and_eq_true]
  tauto

theorem State.memoryWf_retire (s : State) (nextPC : Word) (sig : Signals) : (s.retire nextPC sig).memoryWf = s.memoryWf := rfl

/-- The one write of an instruction keeps the canonical form. -/
theorem InstrWrite.memoryWf {s after : State} (h : InstrWrite s after) (hs : s.memoryWf = true) : after.memoryWf = true := by
  rw [State.memoryWf_iff] at *
  obtain ⟨himem, hwf, hwithin⟩ := hs
  cases h with
  | nothing => exact ⟨himem, hwf, hwithin⟩
  | register rd v => rw [State.setReg_imem, State.setReg_dmem]; exact ⟨himem, hwf, hwithin⟩
  | memory addr n value hrange =>
    exact ⟨himem, s.dmem.writeNat_wf _ _ _ hwf, s.dmem.writeNat_within _ _ _ _ hwithin hrange⟩

/-- What a completed step leaves is its instruction's one write, with the PC, the signals and the status taken anew. -/
theorem step_next_instrWrite {s t : State} (h : step s = .next t) :
    ∃ after nextPC sig, InstrWrite s after ∧ t = after.retire nextPC sig := by
  obtain ⟨inst, i, -, -, hexec⟩ := step_next s t h
  obtain ⟨after, memData, nextPC, hwrite, rfl⟩ := exec_next i s t hexec
  exact ⟨after, nextPC, _, hwrite, rfl⟩

/-- Settles O42: the step's one write keeps the canonical form, and the end of the tick writes no memory. -/
theorem stepKeepsMemoryCanonical : Obligations.StepKeepsMemoryCanonical := by
  intro s t hs h
  obtain ⟨after, nextPC, sig, hwrite, rfl⟩ := step_next_instrWrite h
  rw [State.memoryWf_retire]
  exact hwrite.memoryWf hs

/-- Settles O41: the one byte listed is the NOP's, at address 0. -/
theorem resetMemoryIsCanonical : Obligations.ResetMemoryIsCanonical := by
  unfold Obligations.ResetMemoryIsCanonical
  decide

/-! ## The instruction memory -/

theorem InstrWrite.imem_codeLen {s after : State} (h : InstrWrite s after) :
    after.imem = s.imem ∧ after.codeLen = s.codeLen := by
  cases h with
  | nothing => exact ⟨rfl, rfl⟩
  | register rd v => exact ⟨s.setReg_imem rd v, s.setReg_codeLen rd v⟩
  | memory addr n value hrange => exact ⟨rfl, rfl⟩

theorem tick_imem_codeLen (s : State) : (tick s).imem = s.imem ∧ (tick s).codeLen = s.codeLen := by
  obtain ⟨t, hstep, ht⟩ | ⟨f, -, ht⟩ | ⟨f, -, ht⟩ | ⟨r, -, ht⟩ := tick_cases s
  · obtain ⟨after, nextPC, sig, hwrite, rfl⟩ := step_next_instrWrite hstep
    rw [ht]
    exact hwrite.imem_codeLen
  all_goals rw [ht]; exact ⟨rfl, rfl⟩

theorem iterate_tick_imem_codeLen (s : State) (n : Nat) :
    (tick^[n] s).imem = s.imem ∧ (tick^[n] s).codeLen = s.codeLen := by
  induction n with
  | zero => exact ⟨rfl, rfl⟩
  | succ n ih =>
    obtain ⟨himem, hlen⟩ := tick_imem_codeLen (tick^[n] s)
    rw [Function.iterate_succ_apply']
    exact ⟨himem.trans ih.1, hlen.trans ih.2⟩

/-- A fetch reads the instruction memory alone (R54). -/
theorem State.fetch_congr {s t : State} (himem : s.imem = t.imem) (hpc : s.pc = t.pc) : s.fetch = t.fetch := by
  rw [State.fetch, State.fetch, himem, hpc]

/-- Settles O47: no tick writes the instruction memory, by induction on their number. -/
theorem instructionMemoryNeverChanges : Obligations.InstructionMemoryNeverChanges := by
  intro s n
  obtain ⟨himem, hlen⟩ := iterate_tick_imem_codeLen s n
  exact ⟨himem, hlen, fun pc => State.fetch_congr himem rfl⟩

theorem step_of_decode {s : State} {w : Word} {i : Instr} (hs : NotFaulted s) (hfetch : s.fetch = .ok w)
    (hdecode : decode w = .ok i) : step s = exec i s := by
  unfold step
  split
  · exact absurd ‹_› (hs _)
  · simp only [hfetch, hdecode]

/-- Settles O12: the word fetched is that of the four bytes, and what `step` does around `exec` is to find it. -/
theorem stepRunsTheDecodedInstruction : Obligations.StepRunsTheDecodedInstruction := by
  intro s i hs hrange hdecode
  have hfetch := s.fetch_eq
  rw [if_pos hrange, ofNat_readNat_four] at hfetch
  exact step_of_decode hs hfetch hdecode

/-! ## The data memory -/

/-- A memory driven without memWrite keeps its contents (R55). -/
theorem memoryWrapper_keeps_contents {id : MemoryId} {pc : Word} {m : Memory} {p : MemoryPort} {access : Word × Memory}
    (h : memoryWrapper id pc m p = .ok access) (hwrite : p.memWrite = false) : access.2 = m := by
  unfold memoryWrapper at h
  cases hread : p.memRead with
  | false =>
    rw [hread, hwrite] at h
    cases h
    rfl
  | true =>
    rw [hread, hwrite, if_neg (by decide), if_neg (by decide)] at h
    cases hsize : widthOfSize p.size with
    | none => rw [hsize] at h; cases h
    | some n =>
      simp only [hsize, if_true] at h
      split at h <;> cases h
      rfl

theorem registerWrite_dmem (regWrite : Bool) (rd : RegIdx) (data : Word) (s : State) :
    (registerWrite regWrite rd data s).dmem = s.dmem := by
  cases regWrite
  · rfl
  · exact s.setReg_dmem rd data

theorem writeBack_dmem (i : Instr) (s : State) (access : Word × Memory) : (writeBack i s access).dmem = access.2 :=
  registerWrite_dmem _ _ _ _

/-- The stores are the instructions whose control row has memWrite 1. -/
theorem memWrite_eq_isStore (i : Instr) : (controlRow i).main.memWrite = isStore i := by
  cases i <;> rfl

theorem exec_keeps_dmem {i : Instr} {s t : State} (h : exec i s = .next t) (hstore : isStore i = false) :
    t.dmem = s.dmem := by
  rw [exec_eq_stepAnswer, stepAnswer_next_iff, acceptedCycle] at h
  cases hport : memoryWrapper .data s.pc s.dmem (dataPort i s) with
  | error f => rw [hport] at h; cases h
  | ok access =>
    have hwrite : (dataPort i s).memWrite = false := (memWrite_eq_isStore i).trans hstore
    rw [hport] at h
    cases h
    rw [writeBack_dmem, memoryWrapper_keeps_contents hport hwrite]

/-- Settles O48: the step runs the instruction decoded, which drives memWrite only where it is a store. -/
theorem onlyStoresChangeDataMemory : Obligations.OnlyStoresChangeDataMemory := by
  intro s t inst i hfetch hdecode hstore h
  obtain ⟨inst', i', hfetch', hdecode', hexec⟩ := step_next s t h
  obtain rfl : inst' = inst := Except.ok.inj (hfetch'.symm.trans hfetch)
  obtain rfl : i' = i := Except.ok.inj (hdecode'.symm.trans hdecode)
  exact exec_keeps_dmem hexec hstore

end Sys2Proof.Machine
end

section
/-! PROOFS. The encoder's inverse: the word of a well-formed instruction decodes to it (30_encoding.md R80 to R91, R103, R104). -/

namespace Sys2Proof

/-- Decoding the word of a well-formed instruction gives the instruction back: its opcode, funct3 and funct7 lead the decoder to its
own row, where the operands are read off the fields. -/
theorem decode_encode (i : Instr) (h : wellFormed i = true) : decode (encode i) = .ok i := by
  cases i with
  | add _ _ _ | sub _ _ _ | sll _ _ _ | slt _ _ _ | sltu _ _ _ | xor _ _ _ | srl _ _ _ | sra _ _ _ | or _ _ _
  | and _ _ _ | slli _ _ _ | srli _ _ _ | srai _ _ _ =>
    simp only [encode, decode, splitFields_encodeR]
    rfl
  | addi _ _ _ | slti _ _ _ | sltiu _ _ _ | xori _ _ _ | ori _ _ _ | andi _ _ _ | lb _ _ _ | lh _ _ _ | lw _ _ _
  | lbu _ _ _ | lhu _ _ _ | jalr _ _ _ | ecall _ _ | ebreak _ _ =>
    simp only [encode, decode, splitFields_encodeI, immFieldI_encodeI]
    rfl
  | sb _ _ _ | sh _ _ _ | sw _ _ _ =>
    simp only [encode, decode, splitFields_encodeS, immFieldS_encodeS]
    rfl
  | beq _ _ _ | bne _ _ _ | blt _ _ _ | bge _ _ _ | bltu _ _ _ | bgeu _ _ _ =>
    simp only [wellFormed, evenBranchOffset, Bool.not_eq_true'] at h
    simp only [encode, decode, splitFields_encodeSB, immFieldSB_encodeSB _ _ _ _ _ h]
    rfl
  | lui _ _ | auipc _ _ =>
    simp only [encode, decode, splitFields_encodeU, immFieldU_encodeU]
    rfl
  | jal _ _ =>
    simp only [wellFormed, evenJumpOffset, Bool.not_eq_true'] at h
    simp only [encode, decode, splitFields_encodeUJ, immFieldUJ_encodeUJ _ _ _ h]
    rfl

/-- Settles O2: the encoder's layout is read back field by field. -/
theorem decodeOfEncodeIsTheInstruction : Obligations.DecodeOfEncodeIsTheInstruction :=
  decode_encode

/-- Settles O3: every field and immediate the decoder reads off a word is written back in its place. -/
theorem encodeOfDecodeIsTheWord : Obligations.EncodeOfDecodeIsTheWord :=
  fun _ _ h => encode_of_decode h

/-- Settles O1: the decoder evaluates to the instruction, or to the table that rejects, on each of the words. -/
theorem specWordsDecode : Obligations.SpecWordsDecode := by
  unfold Obligations.SpecWordsDecode
  decide

end Sys2Proof
end

section
/-! PROOFS. The words the decoder rejects (30_encoding.md R93). -/

namespace Sys2Proof

open Laws.TableRow (fixed_funct7 fixed_funct3 fixed_opcode fixed_imm)

/-! ## Which decoder an opcode leads to -/

section
variable {w : Word}

theorem decode_of_op (h : (splitFields w).opcode = 0b0110011#7) : decode w = decodeOp (splitFields w) := by
  simp only [decode, h]

theorem decode_of_opImm (h : (splitFields w).opcode = 0b0010011#7) :
    decode w = decodeOpImm (splitFields w) (immFieldI w) := by
  simp only [decode, h]

theorem decode_of_load (h : (splitFields w).opcode = 0b0000011#7) :
    decode w = decodeLoad (splitFields w) (immFieldI w) := by
  simp only [decode, h]

theorem decode_of_store (h : (splitFields w).opcode = 0b0100011#7) :
    decode w = decodeStore (splitFields w) (immFieldS w) := by
  simp only [decode, h]

theorem decode_of_branch (h : (splitFields w).opcode = 0b1100011#7) :
    decode w = decodeBranch (splitFields w) (immFieldSB w) := by
  simp only [decode, h]

theorem decode_of_jalr (h : (splitFields w).opcode = 0b1100111#7) :
    decode w = decodeJalr (splitFields w) (immFieldI w) := by
  simp only [decode, h]

theorem decode_of_system (h : (splitFields w).opcode = 0b1110011#7) :
    decode w = decodeSystem (splitFields w) (immFieldI w) := by
  simp only [decode, h]

/-- An opcode that is none of the ten of R90. -/
theorem decode_of_unlisted_opcode
    (h : (splitFields w).opcode ∉ [0b0110111#7, 0b0010111, 0b1101111, 0b1100111, 0b1100011, 0b0000011, 0b0100011, 0b0010011,
      0b0110011, 0b1110011]) : decode w = .error (.controlMain (splitFields w).opcode) := by
  unfold decode
  dsimp only
  split
  case h_11 => rfl
  all_goals exact absurd (by simp [*]) h

end

/-! ## What each opcode's decoder rejects -/

section
variable {f : Fields}

theorem decodeBranch_of_funct3 {offset : BitVec 13} (h : f.funct3 ∈ [0b010#3, 0b011]) :
    decodeBranch f offset = .error (.controlJump f.opcode f.funct3) := by
  unfold decodeBranch
  split
  case h_7 => rfl
  all_goals simp [*] at h

theorem decodeJalr_of_funct3 {imm : BitVec 12} (h : f.funct3 ≠ 0b000#3) :
    decodeJalr f imm = .error (.controlJump f.opcode f.funct3) := by
  unfold decodeJalr
  split
  · contradiction
  · rfl

theorem decodeLoad_of_funct3 {imm : BitVec 12} (h : f.funct3 ∈ [0b011#3, 0b110, 0b111]) :
    decodeLoad f imm = .error (.controlJump f.opcode f.funct3) := by
  unfold decodeLoad
  split
  case h_6 => rfl
  all_goals simp [*] at h

theorem decodeStore_of_funct3 {imm : BitVec 12} (h : f.funct3 ∈ [0b011#3, 0b100, 0b101, 0b110, 0b111]) :
    decodeStore f imm = .error (.controlJump f.opcode f.funct3) := by
  unfold decodeStore
  split
  case h_4 => rfl
  all_goals simp [*] at h

theorem decodeSystem_of_funct3 {imm : BitVec 12} (h : f.funct3 ≠ 0b000#3) :
    decodeSystem f imm = .error (.controlJump f.opcode f.funct3) := by
  unfold decodeSystem
  split
  · contradiction
  · rfl

theorem decodeSystem_of_imm {imm : BitVec 12} (h : f.funct3 = 0b000#3) (h0 : imm ≠ 0x000#12) (h1 : imm ≠ 0x001#12) :
    decodeSystem f imm = .error (.controlEcall f.opcode imm) := by
  simp only [decodeSystem, h]

theorem decodeOp_of_funct
    (h : ¬(f.funct7 = 0b0000000#7 ∨ (f.funct7 = 0b0100000#7 ∧ (f.funct3 = 0b000#3 ∨ f.funct3 = 0b101#3)))) :
    decodeOp f = .error (.aluControl 0b010 f.funct7 f.funct3) := by
  unfold decodeOp
  split
  case h_11 => rfl
  all_goals exact absurd (by simp [*]) h

theorem decodeOpImm_of_slli_funct7 {imm : BitVec 12} (h3 : f.funct3 = 0b001#3) (h : f.funct7 ≠ 0b0000000#7) :
    decodeOpImm f imm = .error (.aluControl 0b011 f.funct7 f.funct3) := by
  simp only [decodeOpImm, h3]

theorem decodeOpImm_of_srxi_funct7 {imm : BitVec 12} (h3 : f.funct3 = 0b101#3) (h : f.funct7 ≠ 0b0000000#7)
    (h' : f.funct7 ≠ 0b0100000#7) : decodeOpImm f imm = .error (.aluControl 0b011 f.funct7 f.funct3) := by
  simp [decodeOpImm, h3]

end

/-! ## A word of a row is accepted

First the fields a row fixes, under each of the table's four masks. -/

section
variable {w bits : Word}

theorem fields_of_mask_funct7 (h : w &&& 0xFE00707F#32 = bits) :
    (splitFields w).opcode = bits.extractLsb' 0 7 ∧ (splitFields w).funct3 = bits.extractLsb' 12 3 ∧
      (splitFields w).funct7 = bits.extractLsb' 25 7 := by
  have hbits := congrArg splitFields h
  rw [fixed_funct7, splitFields_encodeR] at hbits
  exact ⟨congrArg Fields.opcode hbits, congrArg Fields.funct3 hbits, congrArg Fields.funct7 hbits⟩

theorem fields_of_mask_funct3 (h : w &&& 0x0000707F#32 = bits) :
    (splitFields w).opcode = bits.extractLsb' 0 7 ∧ (splitFields w).funct3 = bits.extractLsb' 12 3 := by
  have hbits := congrArg splitFields h
  rw [fixed_funct3, splitFields_encodeR] at hbits
  exact ⟨congrArg Fields.opcode hbits, congrArg Fields.funct3 hbits⟩

theorem opcode_of_mask_opcode (h : w &&& 0x0000007F#32 = bits) : (splitFields w).opcode = bits.extractLsb' 0 7 := by
  have hbits := congrArg splitFields h
  rw [fixed_opcode, splitFields_encodeR] at hbits
  exact congrArg Fields.opcode hbits

theorem fields_of_mask_imm (h : w &&& 0xFFF0707F#32 = bits) :
    (splitFields w).opcode = bits.extractLsb' 0 7 ∧ (splitFields w).funct3 = bits.extractLsb' 12 3 ∧
      immFieldI w = bits.extractLsb' 20 12 := by
  have hbits := congrArg splitFields h
  have himm := congrArg immFieldI h
  rw [fixed_imm, splitFields_encodeR] at hbits
  rw [fixed_imm, immFieldI_encodeR, ← immFieldI_eq] at himm
  exact ⟨congrArg Fields.opcode hbits, congrArg Fields.funct3 hbits, himm⟩

end

/-- A word of a row has the fields that lead the decoder to the row's instruction, whatever its other bits. -/
theorem exists_decode_of_admits {w : Word} (i : Instr) (h : (opcodeRow i).admits w = true) : ∃ j, decode w = .ok j := by
  rw [OpcodeRow.admits_iff] at h
  cases i with
  | add _ _ _ | sub _ _ _ | sll _ _ _ | slt _ _ _ | sltu _ _ _ | xor _ _ _ | srl _ _ _ | sra _ _ _ | or _ _ _
  | and _ _ _ | slli _ _ _ | srli _ _ _ | srai _ _ _ =>
    simp only [opcodeRow] at h
    obtain ⟨hop, h3, h7⟩ := fields_of_mask_funct7 h
    exact ⟨_, by simp only [decode, decodeOp, decodeOpImm, hop, h3, h7, BitVec.reduceExtractLsb']; rfl⟩
  | addi _ _ _ | slti _ _ _ | sltiu _ _ _ | xori _ _ _ | ori _ _ _ | andi _ _ _ | lb _ _ _ | lh _ _ _ | lw _ _ _
  | lbu _ _ _ | lhu _ _ _ | sb _ _ _ | sh _ _ _ | sw _ _ _ | beq _ _ _ | bne _ _ _ | blt _ _ _ | bge _ _ _
  | bltu _ _ _ | bgeu _ _ _ | jalr _ _ _ =>
    simp only [opcodeRow] at h
    obtain ⟨hop, h3⟩ := fields_of_mask_funct3 h
    exact ⟨_, by simp only [decode, decodeOpImm, decodeLoad, decodeStore, decodeBranch, decodeJalr, hop, h3,
      BitVec.reduceExtractLsb']; rfl⟩
  | lui _ _ | auipc _ _ | jal _ _ =>
    simp only [opcodeRow] at h
    have hop := opcode_of_mask_opcode h
    exact ⟨_, by simp only [decode, hop, BitVec.reduceExtractLsb']; rfl⟩
  | ecall _ _ | ebreak _ _ =>
    simp only [opcodeRow] at h
    obtain ⟨hop, h3, himm⟩ := fields_of_mask_imm h
    exact ⟨_, by simp only [decode, decodeSystem, hop, h3, himm, BitVec.reduceExtractLsb']; rfl⟩

theorem exists_opcodeRow_eq_of_mem : ∀ row ∈ opcodeTable, ∃ i, row = opcodeRow i := by
  simp only [opcodeTable, List.forall_mem_cons, exists_apply_eq_apply', List.not_mem_nil, IsEmpty.forall_iff,
    implies_true, and_self]

/-- A word is rejected exactly where no row of the table admits it. -/
theorem exists_decode_error_iff (w : Word) : (∃ m, decode w = .error m) ↔ ∀ row ∈ opcodeTable, row.admits w = false := by
  constructor
  · rintro ⟨m, hm⟩ row hrow
    obtain ⟨i, rfl⟩ := exists_opcodeRow_eq_of_mem row hrow
    by_contra hadmits
    obtain ⟨j, hj⟩ := exists_decode_of_admits i (Bool.eq_true_of_not_eq_false hadmits)
    rw [hj] at hm
    cases hm
  · intro hnone
    cases hd : decode w with
    | error m => exact ⟨m, rfl⟩
    | ok i =>
      obtain ⟨hmem, hadmits⟩ := decodedWordBelongsToItsRow w i hd
      rw [hnone _ hmem] at hadmits
      cases hadmits

/-- Settles O7: a word of a row has the fields its decoder asks for, and each class lacks one of them. -/
theorem illegalWordsAreThoseOutsideTheTable : Obligations.IllegalWordsAreThoseOutsideTheTable := by
  intro w f imm
  refine ⟨exists_decode_error_iff w, decode_of_unlisted_opcode, ?_, ?_, ?_, ?_, ?_, ?_, ?_, ?_, ?_⟩
  · exact fun hop h => (decode_of_branch hop).trans (decodeBranch_of_funct3 h)
  · exact fun hop h => (decode_of_jalr hop).trans (decodeJalr_of_funct3 h)
  · exact fun hop h => (decode_of_load hop).trans (decodeLoad_of_funct3 h)
  · exact fun hop h => (decode_of_store hop).trans (decodeStore_of_funct3 h)
  · exact fun hop h => (decode_of_system hop).trans (decodeSystem_of_funct3 h)
  · exact fun hop h3 h0 h1 => (decode_of_system hop).trans (decodeSystem_of_imm h3 h0 h1)
  · exact fun hop h => (decode_of_op hop).trans (decodeOp_of_funct h)
  · exact fun hop h3 h => (decode_of_opImm hop).trans (decodeOpImm_of_slli_funct7 h3 h)
  · exact fun hop h3 h h' => (decode_of_opImm hop).trans (decodeOpImm_of_srxi_funct7 h3 h h')

end Sys2Proof
end

section
/-! PROOFS. What the splitter, the ImmGen and the decode tables give on an instruction's word (30_encoding.md R80 to R89, R92;
40_datapath.md R133 to R137, R148). -/

namespace Sys2Proof.Machine

open Sys2Proof.Claims

/-- Settles O9: the tables of the instruction's opcode, looked up with its funct3 and funct7. -/
theorem decodeTablesGiveTheInstructionsRow : Obligations.DecodeTablesGiveTheInstructionsRow :=
  decodeTables_encode

/-- Settles O10: the lookup that finds no row is the one the decoder's rejection names. -/
theorem decodeTablesRejectTheSameWords : Obligations.DecodeTablesRejectTheSameWords :=
  decodeTables_of_decode_error

theorem immUpper_eq_bits32 (imm : BitVec 20) : immUpper imm = bits32 (imm.toNat * 4096) := by
  apply BitVec.eq_of_toNat_eq
  have hlt : imm.toNat * 4096 < 2 ^ 32 := by omega
  have happend : (immUpper imm).toNat = imm.toNat <<< 12 ||| 0 := BitVec.toNat_append imm 0#12
  rw [happend, bits32, BitVec.toNat_ofNat, Nat.mod_eq_of_lt hlt, Nat.or_zero, Nat.shiftLeft_eq]

/-- The sign extension leaves the low five bits, which are the shift amount's (R194). -/
theorem low5_immShift (funct7 : BitVec 7) (shamt : BitVec 5) : low5 (immShift funct7 shamt) = shamt.toNat := by
  have hlow : (immShift funct7 shamt).setWidth 5 = shamt := by
    apply BitVec.eq_of_getLsbD_eq
    intro i hi
    have happend : (funct7 ++ shamt : BitVec (7 + 5)).getLsbD i = shamt.getLsbD i := by
      rw [BitVec.getLsbD_append, if_pos hi]
    rw [BitVec.getLsbD_setWidth, immShift, imm12, BitVec.getLsbD_signExtend, if_pos (by omega), happend,
      decide_eq_true hi, decide_eq_true (by omega), Bool.true_and, Bool.true_and]
  calc low5 (immShift funct7 shamt) = ((immShift funct7 shamt).setWidth 5).toNat := by simp [low5]
    _ = shamt.toNat := by rw [hlow]

theorem readsBack_of_wellFormed (i : Instr) (h : wellFormed i = true) : ReadsBack i := by
  have himm := extractImm_encode i h
  cases i with
  | add _ _ _ | sub _ _ _ | sll _ _ _ | slt _ _ _ | sltu _ _ _ | xor _ _ _ | srl _ _ _ | sra _ _ _ | or _ _ _
  | and _ _ _ =>
    simp only [ReadsBack, encode, splitFields_encodeR, true_and]
    exact himm
  | addi _ _ _ | slti _ _ _ | sltiu _ _ _ | xori _ _ _ | ori _ _ _ | andi _ _ _ | lb _ _ _ | lh _ _ _ | lw _ _ _
  | lbu _ _ _ | lhu _ _ _ | jalr _ _ _ | ecall _ _ | ebreak _ _ =>
    simp only [ReadsBack, encode, splitFields_encodeI, true_and]
    exact himm
  | slli _ _ shamt | srli _ _ shamt | srai _ _ shamt =>
    simp only [ReadsBack, encode, splitFields_encodeR, true_and]
    exact (congrArg low5 himm).trans (low5_immShift _ shamt)
  | sb _ _ _ | sh _ _ _ | sw _ _ _ =>
    simp only [ReadsBack, encode, splitFields_encodeS, true_and]
    exact himm
  | beq _ _ _ | bne _ _ _ | blt _ _ _ | bge _ _ _ | bltu _ _ _ | bgeu _ _ _ =>
    simp only [ReadsBack, encode, splitFields_encodeSB, true_and]
    exact himm
  | lui _ imm | auipc _ imm =>
    simp only [ReadsBack, encode, splitFields_encodeU, true_and]
    exact himm.trans (immUpper_eq_bits32 imm)
  | jal _ _ =>
    simp only [ReadsBack, encode, splitFields_encodeUJ, true_and]
    exact himm

/-- Settles O4: the ImmGen's answer is the immediate of the instruction's format, in the spec's arithmetic. -/
theorem splitterAndImmGenReadTheOperandsBack : Obligations.SplitterAndImmGenReadTheOperandsBack :=
  readsBack_of_wellFormed

end Sys2Proof.Machine
end

section
/-! PROOFS. The assembler's operand fields (30_encoding.md R101 to R103) and the canonical source line of every instruction (R100). -/

namespace Sys2Proof.Machine

open Sys2Proof.Claims

/-! ## The fields of R103 -/

theorem signedField_of_range {bits : Nat} {n : Int} (h : -2 ^ (bits - 1) ≤ n ∧ n < 2 ^ (bits - 1)) :
    signedField bits n = .ok (BitVec.ofInt bits n) :=
  if_pos (by push_cast; exact h)

theorem signedField_of_not_range {bits : Nat} {n : Int} (h : ¬(-2 ^ (bits - 1) ≤ n ∧ n < 2 ^ (bits - 1))) :
    signedField bits n = .error (.outOfRange bits) :=
  if_neg (by push_cast; exact h)

/-- A field's own signed value is encoded as the field. -/
@[simp] theorem signedField_toInt {bits : Nat} (v : BitVec bits) : signedField bits v.toInt = .ok v := by
  rw [signedField_of_range ⟨BitVec.le_toInt v, BitVec.toInt_lt⟩, BitVec.ofInt_toInt]

@[simp] theorem unsignedField_toNat {bits : Nat} (v : BitVec bits) : unsignedField bits v.toNat = .ok v := by
  have h : (0 : Int) ≤ v.toNat ∧ (v.toNat : Int) < (2 ^ bits : Nat) := ⟨by omega, by exact_mod_cast v.isLt⟩
  rw [unsignedField, if_pos h, BitVec.ofInt_natCast, BitVec.ofNat_toNat, BitVec.setWidth_eq]

theorem signedField_ok {bits : Nat} {n : Int} {v : BitVec bits} (hb : 0 < bits) (h : signedField bits n = .ok v) :
    v.toInt = n := by
  by_cases hr : -2 ^ (bits - 1) ≤ n ∧ n < 2 ^ (bits - 1)
  · rw [signedField_of_range hr] at h
    cases h
    exact BitVec.toInt_ofInt_eq_self hb hr.1 hr.2
  · rw [signedField_of_not_range hr] at h
    cases h

theorem displacementField_of_even {bits : Nat} {n : Int} {v : BitVec bits} (h : signedField bits n = .ok v) (he : n % 2 = 0) :
    displacementField bits n = .ok v := by
  simp only [displacementField, h, he, if_true]

theorem displacementField_ok {bits : Nat} {n : Int} {v : BitVec bits} (h : displacementField bits n = .ok v) :
    signedField bits n = .ok v ∧ n % 2 = 0 := by
  unfold displacementField at h
  split at h
  · cases h
  · split at h <;> cases h
    exact ⟨‹_›, ‹_›⟩

theorem displacementField_of_not_range {bits : Nat} {n : Int} (h : ¬(-2 ^ (bits - 1) ≤ n ∧ n < 2 ^ (bits - 1))) :
    displacementField bits n = .error (.outOfRange bits) := by
  simp only [displacementField, signedField_of_not_range h]

/-- The bit a displacement's field does not encode is its parity. -/
theorem toInt_emod_two_eq_zero_iff {bits : Nat} (hb : 0 < bits) (v : BitVec bits) :
    v.toInt % 2 = 0 ↔ v.getLsbD 0 = false := by
  obtain ⟨b, rfl⟩ := Nat.exists_eq_add_of_lt hb
  have hpow : 2 ^ (0 + b + 1) = 2 * 2 ^ b := by rw [Nat.zero_add, Nat.pow_succ, Nat.mul_comm]
  rw [← BitVec.testBit_toNat, Nat.testBit_zero, decide_eq_false_iff_not, BitVec.toInt_eq_toNat_cond, hpow]
  split <;> omega

theorem displacementField_even {bits : Nat} {n : Int} {v : BitVec bits} (hb : 0 < bits)
    (h : displacementField bits n = .ok v) : v.getLsbD 0 = false := by
  obtain ⟨hfield, heven⟩ := displacementField_ok h
  rw [← toInt_emod_two_eq_zero_iff hb, signedField_ok hb hfield]
  exact heven

/-- Settles O52: the distance is a multiple of 4, so the field's range alone decides. -/
theorem labelOperandsAreWordDistances : Obligations.LabelOperandsAreWordDistances := by
  intro bits labels index target l hbits hlabel d
  have htarget : targetField bits labels index (.name l) = displacementField bits d := by
    simp only [targetField, hlabel, d]
  rw [htarget]
  refine ⟨fun hrange => ⟨BitVec.ofInt bits d, ?_, ?_⟩, displacementField_of_not_range⟩
  · exact displacementField_of_even (signedField_of_range hrange) (by omega)
  · exact BitVec.toInt_ofInt_eq_self hbits hrange.1 hrange.2

/-! ## The canonical line -/

@[simp] theorem registerNumber_registerText (r : RegIdx) : registerNumber (registerText r) = .ok r := by
  revert r; decide

theorem displacementField_toInt {bits : Nat} (hb : 0 < bits) {v : BitVec bits} (h : v.getLsbD 0 = false) :
    displacementField bits v.toInt = .ok v :=
  displacementField_of_even (signedField_toInt v) ((toInt_emod_two_eq_zero_iff hb v).mpr h)

/-- The source line O53 speaks of. -/
def canonicalLine (i : Instr) (line : Nat) : AsmLine := ⟨line, (opcodeRow i).mnemonic.toList, canonicalOperands i⟩

theorem lowerPseudo_of_mnemonic {s : AsmLine} (h : String.ofList s.mnemonic ∉ ["j", "jal", "mv", "li"]) :
    lowerPseudo s = s := by
  unfold lowerPseudo
  split
  case h_5 => rfl
  all_goals exact absurd (by simp [*]) h

/-- `jal` is a pseudo-instruction with one operand only. -/
theorem lowerPseudo_jal_number (line : Nat) (rd : List Char) (n : Int) :
    lowerPseudo ⟨line, "jal".toList, [.name rd, .number n]⟩ = ⟨line, "jal".toList, [.name rd, .number n]⟩ := by
  simp [lowerPseudo]

theorem lowerPseudo_canonicalLine (i : Instr) (line : Nat) : lowerPseudo (canonicalLine i line) = canonicalLine i line := by
  cases i
  case jal => exact lowerPseudo_jal_number ..
  all_goals
    apply lowerPseudo_of_mnemonic
    rw [canonicalLine, String.ofList_toList]
    simp [opcodeRow]

section
variable (a b c : RegIdx) (labels : Labels) (index : Nat)

theorem shapeR_canonical (make : RegIdx → RegIdx → RegIdx → Instr) :
    shapeR make [.name (registerText a), .name (registerText b), .name (registerText c)] = .ok (make a b c) := by
  simp only [shapeR, registerNumber_registerText, ok_bind]
  rfl

theorem shapeI_canonical (make : RegIdx → RegIdx → BitVec 12 → Instr) (imm : BitVec 12) :
    shapeI make [.name (registerText a), .name (registerText b), .number imm.toInt] = .ok (make a b imm) := by
  simp only [shapeI, registerNumber_registerText, signedField_toInt, ok_bind]
  rfl

theorem shapeIS_canonical (make : RegIdx → RegIdx → BitVec 5 → Instr) (shamt : BitVec 5) :
    shapeIS make [.name (registerText a), .name (registerText b), .number shamt.toNat] = .ok (make a b shamt) := by
  simp only [shapeIS, registerNumber_registerText, unsignedField_toNat, ok_bind]
  rfl

theorem shapeDisplaced_canonical (make : RegIdx → RegIdx → BitVec 12 → Instr) (imm : BitVec 12) :
    shapeDisplaced make [.name (registerText a), .displaced imm.toInt (registerText b)] = .ok (make a b imm) := by
  simp only [shapeDisplaced, registerNumber_registerText, signedField_toInt, ok_bind]
  rfl

theorem shapeSB_canonical (make : RegIdx → RegIdx → BitVec 13 → Instr) {offset : BitVec 13}
    (h : evenBranchOffset offset = true) :
    shapeSB make labels index [.name (registerText a), .name (registerText b), .number offset.toInt]
      = .ok (make a b offset) := by
  have hfield := displacementField_toInt (v := offset) (by decide) (by simpa [evenBranchOffset] using h)
  simp only [shapeSB, targetField, registerNumber_registerText, hfield, ok_bind]
  rfl

theorem shapeU_canonical (make : RegIdx → BitVec 20 → Instr) (imm : BitVec 20) :
    shapeU make [.name (registerText a), .number imm.toNat] = .ok (make a imm) := by
  simp only [shapeU, registerNumber_registerText, unsignedField_toNat, ok_bind]
  rfl

theorem shapeUJ_canonical {offset : BitVec 21} (h : evenJumpOffset offset = true) :
    shapeUJ labels index [.name (registerText a), .number offset.toInt] = .ok (.jal a offset) := by
  have hfield := displacementField_toInt (v := offset) (by decide) (by simpa [evenJumpOffset] using h)
  simp only [shapeUJ, registerNumber_registerText, hfield, ok_bind]
  rfl

end

theorem statementInstr_canonicalLine (i : Instr) (line index : Nat) (labels : Labels) (h : hasSourceForm i = true) :
    statementInstr labels index (canonicalLine i line) = .ok i := by
  cases i with
  | add _ _ _ | sub _ _ _ | sll _ _ _ | slt _ _ _ | sltu _ _ _ | xor _ _ _ | srl _ _ _ | sra _ _ _ | or _ _ _
  | and _ _ _ =>
    simp only [statementInstr, canonicalLine, opcodeRow, String.ofList_toList]
    exact shapeR_canonical ..
  | addi _ _ _ | slti _ _ _ | sltiu _ _ _ | xori _ _ _ | ori _ _ _ | andi _ _ _ =>
    simp only [statementInstr, canonicalLine, opcodeRow, String.ofList_toList]
    exact shapeI_canonical ..
  | slli _ _ _ | srli _ _ _ | srai _ _ _ =>
    simp only [statementInstr, canonicalLine, opcodeRow, String.ofList_toList]
    exact shapeIS_canonical ..
  | lui _ _ | auipc _ _ =>
    simp only [statementInstr, canonicalLine, opcodeRow, String.ofList_toList]
    exact shapeU_canonical ..
  | lb _ _ _ | lh _ _ _ | lw _ _ _ | lbu _ _ _ | lhu _ _ _ | sb _ _ _ | sh _ _ _ | sw _ _ _ | jalr _ _ _ =>
    simp only [statementInstr, canonicalLine, opcodeRow, String.ofList_toList]
    exact shapeDisplaced_canonical ..
  | beq _ _ _ | bne _ _ _ | blt _ _ _ | bge _ _ _ | bltu _ _ _ | bgeu _ _ _ =>
    simp only [statementInstr, canonicalLine, opcodeRow, String.ofList_toList]
    exact shapeSB_canonical _ _ _ _ _ h
  | jal _ _ =>
    simp only [statementInstr, canonicalLine, opcodeRow, String.ofList_toList]
    exact shapeUJ_canonical _ _ _ h
  | ecall _ _ | ebreak _ _ =>
    obtain ⟨rfl, rfl⟩ := of_decide_eq_true h
    simp only [statementInstr, canonicalLine, opcodeRow, String.ofList_toList]
    rfl

/-- Settles O53: the shape of the mnemonic reads the registers and the field back. -/
theorem canonicalLineAssemblesToItsInstruction : Obligations.CanonicalLineAssemblesToItsInstruction :=
  fun i labels index line h => ⟨lowerPseudo_canonicalLine i line, statementInstr_canonicalLine i line index labels h⟩

end Sys2Proof.Machine
end

section
/-! PROOFS. What the assembler puts out (30_encoding.md R100 to R106): one word for each instruction line, in line order, each the
word of a well-formed instruction. -/

namespace Sys2Proof.Machine

/-! ## Every statement assembles to a well-formed instruction -/

/-- What a sequence that answers has answered before its last step. -/
theorem exists_of_bind_ok {ε α β : Type} {x : Except ε α} {f : α → Except ε β} {b : β} (h : x >>= f = .ok b) :
    ∃ a, x = .ok a ∧ f a = .ok b := by
  cases x with
  | error e => cases h
  | ok a => exact ⟨a, rfl, h⟩

theorem exists_of_make_two_ok {ε α β γ : Type} {make : α → β → γ} {x : Except ε α} {y : Except ε β} {i : γ}
    (h : (do return make (← x) (← y)) = Except.ok i) : ∃ a b, y = .ok b ∧ i = make a b := by
  obtain ⟨a, -, h⟩ := exists_of_bind_ok h
  obtain ⟨b, hb, h⟩ := exists_of_bind_ok h
  cases h
  exact ⟨a, b, hb, rfl⟩

theorem exists_of_make_three_ok {ε α β γ δ : Type} {make : α → β → γ → δ} {x : Except ε α} {y : Except ε β}
    {z : Except ε γ} {i : δ} (h : (do return make (← x) (← y) (← z)) = Except.ok i) :
    ∃ a b c, z = .ok c ∧ i = make a b c := by
  obtain ⟨a, -, h⟩ := exists_of_bind_ok h
  obtain ⟨b, c, hc, rfl⟩ := exists_of_make_two_ok h
  exact ⟨a, b, c, hc, rfl⟩

theorem targetField_even {bits : Nat} {labels : Labels} {index : Nat} {t : Operand} {v : BitVec bits} (hb : 0 < bits)
    (h : targetField bits labels index t = .ok v) : v.getLsbD 0 = false := by
  unfold targetField at h
  split at h
  · exact displacementField_even hb h
  · split at h
    · exact displacementField_even hb h
    · cases h
  · cases h

section
variable {labels : Labels} {index : Nat} {ops : List Operand} {i : Instr}

theorem wellFormed_of_shapeR {make : RegIdx → RegIdx → RegIdx → Instr} (hmake : ∀ a b c, wellFormed (make a b c) = true)
    (h : shapeR make ops = .ok i) : wellFormed i = true := by
  unfold shapeR at h
  split at h
  · obtain ⟨a, b, c, -, rfl⟩ := exists_of_make_three_ok h
    exact hmake a b c
  · cases h

theorem wellFormed_of_shapeI {make : RegIdx → RegIdx → BitVec 12 → Instr}
    (hmake : ∀ a b imm, wellFormed (make a b imm) = true) (h : shapeI make ops = .ok i) : wellFormed i = true := by
  unfold shapeI at h
  split at h
  · obtain ⟨a, b, imm, -, rfl⟩ := exists_of_make_three_ok h
    exact hmake a b imm
  · cases h

theorem wellFormed_of_shapeIS {make : RegIdx → RegIdx → BitVec 5 → Instr}
    (hmake : ∀ a b shamt, wellFormed (make a b shamt) = true) (h : shapeIS make ops = .ok i) : wellFormed i = true := by
  unfold shapeIS at h
  split at h
  · obtain ⟨a, b, shamt, -, rfl⟩ := exists_of_make_three_ok h
    exact hmake a b shamt
  · cases h

theorem wellFormed_of_shapeDisplaced {make : RegIdx → RegIdx → BitVec 12 → Instr}
    (hmake : ∀ a b imm, wellFormed (make a b imm) = true) (h : shapeDisplaced make ops = .ok i) : wellFormed i = true := by
  unfold shapeDisplaced at h
  split at h
  · obtain ⟨a, b, imm, -, rfl⟩ := exists_of_make_three_ok h
    exact hmake a b imm
  · cases h

theorem wellFormed_of_shapeSB {make : RegIdx → RegIdx → BitVec 13 → Instr}
    (hmake : ∀ a b offset, wellFormed (make a b offset) = evenBranchOffset offset)
    (h : shapeSB make labels index ops = .ok i) : wellFormed i = true := by
  unfold shapeSB at h
  split at h
  case h_3 => cases h
  all_goals
    obtain ⟨a, b, offset, hoffset, rfl⟩ := exists_of_make_three_ok h
    rw [hmake, evenBranchOffset, targetField_even (by decide) hoffset]
    rfl

theorem wellFormed_of_shapeU {make : RegIdx → BitVec 20 → Instr} (hmake : ∀ a imm, wellFormed (make a imm) = true)
    (h : shapeU make ops = .ok i) : wellFormed i = true := by
  unfold shapeU at h
  split at h
  · obtain ⟨a, imm, -, rfl⟩ := exists_of_make_two_ok h
    exact hmake a imm
  · cases h

theorem wellFormed_jal {rd : RegIdx} {offset : BitVec 21} (h : offset.getLsbD 0 = false) :
    wellFormed (.jal rd offset) = true := by
  rw [wellFormed, evenJumpOffset, h]
  rfl

theorem wellFormed_of_shapeUJ (h : shapeUJ labels index ops = .ok i) : wellFormed i = true := by
  unfold shapeUJ at h
  split at h
  · obtain ⟨a, offset, hoffset, rfl⟩ := exists_of_make_two_ok h
    exact wellFormed_jal (displacementField_even (by decide) hoffset)
  · obtain ⟨a, offset, hoffset, rfl⟩ := exists_of_make_two_ok h
    exact wellFormed_jal (targetField_even (by decide) hoffset)
  · cases h

theorem wellFormed_of_shapeJalr (h : shapeJalr ops = .ok i) : wellFormed i = true := by
  unfold shapeJalr at h
  split at h
  · exact wellFormed_of_shapeDisplaced (fun _ _ _ => rfl) h
  · exact wellFormed_of_shapeI (fun _ _ _ => rfl) h

theorem eq_of_shapeNone {j : Instr} (h : shapeNone j ops = .ok i) : i = j := by
  unfold shapeNone at h
  split at h <;> cases h
  rfl

/-- The cases are the mnemonics in the order of `statementInstr`, grouped by their shapes. -/
theorem wellFormed_of_statementInstr {s : AsmLine} (h : statementInstr labels index s = .ok i) : wellFormed i = true := by
  unfold statementInstr at h
  split at h
  case h_1 | h_2 | h_3 | h_4 | h_5 | h_6 | h_7 | h_8 | h_9 | h_10 => exact wellFormed_of_shapeR (fun _ _ _ => rfl) h
  case h_11 | h_12 | h_13 | h_14 | h_15 | h_16 => exact wellFormed_of_shapeI (fun _ _ _ => rfl) h
  case h_17 | h_18 | h_19 => exact wellFormed_of_shapeIS (fun _ _ _ => rfl) h
  case h_20 | h_21 => exact wellFormed_of_shapeU (fun _ _ => rfl) h
  case h_22 | h_23 | h_24 | h_25 | h_26 | h_27 | h_28 | h_29 => exact wellFormed_of_shapeDisplaced (fun _ _ _ => rfl) h
  case h_30 | h_31 | h_32 | h_33 | h_34 | h_35 => exact wellFormed_of_shapeSB (fun _ _ _ => rfl) h
  case h_36 => exact wellFormed_of_shapeUJ h
  case h_37 => exact wellFormed_of_shapeJalr h
  case h_38 | h_39 => rw [eq_of_shapeNone h]; rfl
  case h_40 => cases h

end

/-! ## Pass 1: the statements and their lines -/

theorem line_of_parseInstruction {line : Nat} {tokens : List Token} {s : AsmLine}
    (h : parseInstruction line tokens = .ok (some s)) : s.line = line := by
  unfold parseInstruction at h
  split at h
  · cases h
  · cases h; rfl
  · split at h <;> cases h
    rfl
  · cases h

theorem line_of_parseLine {line : Nat} {cs : List Char} {label : Option (List Char)} {s : AsmLine}
    (h : parseLine line cs = .ok (label, some s)) : s.line = line := by
  unfold parseLine at h
  split at h
  · cases h
  all_goals
    split at h
    · cases h
      exact line_of_parseInstruction ‹_›
    · cases h

@[simp] theorem lowerPseudo_line (s : AsmLine) : (lowerPseudo s).line = s.line := by
  unfold lowerPseudo
  split <;> rfl

/-- Line `n` of the lines, whose first has the number `first`, has an instruction. -/
def InstructionOnLine (lines : List (List Char)) (first n : Nat) : Prop :=
  first ≤ n ∧ ∃ cs label stmt, lines[n - first]? = some cs ∧ parseLine n cs = .ok (label, some stmt)

theorem not_instructionOnLine_nil (first n : Nat) : ¬ InstructionOnLine [] first n := by
  rintro ⟨-, cs, label, stmt, hline, -⟩
  cases hline

theorem instructionOnLine_cons (cs : List Char) (rest : List (List Char)) (first n : Nat) :
    InstructionOnLine (cs :: rest) first n ↔
      (n = first ∧ ∃ label stmt, parseLine first cs = .ok (label, some stmt)) ∨ InstructionOnLine rest (first + 1) n := by
  rcases Nat.lt_trichotomy n first with hlt | rfl | hgt
  · have h1 : ¬ first ≤ n := by omega
    have h2 : ¬ first + 1 ≤ n := by omega
    simp [InstructionOnLine, h1, h2, hlt.ne]
  · simp [InstructionOnLine]
  · have hindex : n - first = n - (first + 1) + 1 := by omega
    simp [InstructionOnLine, hindex, hgt.ne', hgt.le, Nat.succ_le_of_lt hgt]

/-- A line of pass 1 that passes: it parses, and its instruction, if it has one, is the next statement. -/
theorem passOne_cons_ok {cs : List Char} {rest : List (List Char)} {line count : Nat} {labels final : Labels}
    {stmts : List AsmLine} (h : passOne (cs :: rest) line count labels = .ok (stmts, final)) :
    ∃ label stmt count' labels' more, parseLine line cs = .ok (label, stmt) ∧
      passOne rest (line + 1) count' labels' = .ok (more, final) ∧ stmts = (stmt.map lowerPseudo).toList ++ more := by
  unfold passOne at h
  split at h
  · cases h
  next label stmt hparse =>
    dsimp only at h
    split at h
    · cases h
    next labels' _ =>
      split at h
      · exact ⟨label, none, count, labels', stmts, hparse, h, rfl⟩
      next s =>
        split at h
        · cases h
        next more final' hrest =>
          cases h
          exact ⟨label, some s, count + 1, labels', more, hparse, hrest, rfl⟩

theorem mem_lines_of_passOne {lines : List (List Char)} {first count : Nat} {labels final : Labels} {stmts : List AsmLine}
    (h : passOne lines first count labels = .ok (stmts, final)) (n : Nat) :
    n ∈ stmts.map AsmLine.line ↔ InstructionOnLine lines first n := by
  induction lines generalizing first count labels stmts with
  | nil =>
    cases h
    simp [not_instructionOnLine_nil]
  | cons cs rest ih =>
    obtain ⟨label, stmt, count', labels', more, hparse, hrest, rfl⟩ := passOne_cons_ok h
    rw [instructionOnLine_cons, hparse, List.map_append, List.mem_append, ih hrest]
    cases stmt with
    | none => simp
    | some s => simp [line_of_parseLine hparse]

theorem passOne_lines_rise {lines : List (List Char)} {first count : Nat} {labels final : Labels} {stmts : List AsmLine}
    (h : passOne lines first count labels = .ok (stmts, final)) : (stmts.map AsmLine.line).Pairwise (· < ·) := by
  induction lines generalizing first count labels stmts with
  | nil =>
    cases h
    exact .nil
  | cons cs rest ih =>
    obtain ⟨label, stmt, count', labels', more, hparse, hrest, rfl⟩ := passOne_cons_ok h
    cases stmt with
    | none => exact ih hrest
    | some s =>
      refine List.Pairwise.cons (fun n hn => ?_) (ih hrest)
      obtain ⟨hle, -⟩ := (mem_lines_of_passOne hrest n).mp hn
      rw [lowerPseudo_line, line_of_parseLine hparse]
      omega

/-! ## Pass 2 and the output -/

section
variable {labels : Labels} {stmts : List AsmLine} {index : Nat} {out : List (Nat × Instr)}

theorem passTwo_cons_ok {s : AsmLine} (h : passTwo labels (s :: stmts) index = .ok out) :
    ∃ i more, statementInstr labels index s = .ok i ∧ passTwo labels stmts (index + 1) = .ok more ∧
      out = (s.line, i) :: more := by
  unfold passTwo at h
  split at h
  · cases h
  next i hi =>
    split at h
    · cases h
    next more hmore =>
      cases h
      exact ⟨i, more, hi, hmore, rfl⟩

theorem passTwo_lines (h : passTwo labels stmts index = .ok out) : (out.map fun e => e.1) = stmts.map AsmLine.line := by
  induction stmts generalizing index out with
  | nil => cases h; rfl
  | cons s rest ih =>
    obtain ⟨i, more, -, hmore, rfl⟩ := passTwo_cons_ok h
    rw [List.map_cons, List.map_cons, ih hmore]

theorem passTwo_getElem? (h : passTwo labels stmts index = .ok out) (k : Nat) (hk : k < stmts.length) :
    ∃ i, statementInstr labels (index + k) stmts[k] = .ok i ∧ out[k]? = some (stmts[k].line, i) := by
  induction stmts generalizing index out k with
  | nil => cases hk
  | cons s rest ih =>
    obtain ⟨i, more, hi, hmore, rfl⟩ := passTwo_cons_ok h
    cases k with
    | zero => exact ⟨i, hi, rfl⟩
    | succ k =>
      obtain ⟨j, hj, hget⟩ := ih hmore k (Nat.lt_of_succ_lt_succ hk)
      exact ⟨j, by rw [← hj, Nat.add_right_comm]; rfl, hget⟩

theorem wellFormed_of_passTwo (h : passTwo labels stmts index = .ok out) : ∀ e ∈ out, wellFormed e.2 = true := by
  induction stmts generalizing index out with
  | nil => cases h; simp
  | cons s rest ih =>
    obtain ⟨i, more, hi, hmore, rfl⟩ := passTwo_cons_ok h
    exact List.forall_mem_cons.mpr ⟨wellFormed_of_statementInstr hi, ih hmore⟩

end

theorem assemble_ok {text : List Char} {out : List (Nat × Word)} (h : assemble text = .ok out) :
    ∃ stmts labels instrs, passOne (splitLines text []) 1 0 [] = .ok (stmts, labels) ∧
      passTwo labels stmts 0 = .ok instrs ∧ out = instrs.map fun p => (p.1, encode p.2) := by
  unfold assemble at h
  split at h
  · cases h
  next instrs hinstrs =>
    cases h
    unfold assembleInstrs at hinstrs
    split at hinstrs
    · cases hinstrs
    next stmts labels hpass => exact ⟨stmts, labels, instrs, hpass, hinstrs, rfl⟩

/-- Settles O51: pass 1 gives the statements and their lines, pass 2 one well-formed instruction for each of them. -/
theorem assembledWordsDecodeInLineOrder : Obligations.AssembledWordsDecodeInLineOrder := by
  intro text out h
  obtain ⟨stmts, labels, instrs, hone, htwo, rfl⟩ := assemble_ok h
  have hlines : ((instrs.map fun p => (p.1, encode p.2)).map fun e => e.1) = stmts.map AsmLine.line := by
    rw [List.map_map]
    exact passTwo_lines htwo
  refine ⟨⟨stmts, labels, hone, by simpa using congrArg List.length hlines, fun k hk => ?_⟩, fun n => ?_, ?_, fun e he => ?_⟩
  · obtain ⟨i, hi, hget⟩ := passTwo_getElem? htwo k hk
    exact ⟨i, by rwa [Nat.zero_add] at hi, by rw [List.getElem?_map, hget]; rfl⟩
  · rw [hlines]
    exact mem_lines_of_passOne hone n
  · rw [hlines]
    exact passOne_lines_rise hone
  · obtain ⟨p, hp, rfl⟩ := List.mem_map.mp he
    have hwf := wellFormed_of_passTwo htwo p hp
    exact ⟨p.2, decode_encode p.2 hwf, hwf, rfl⟩

end Sys2Proof.Machine
end

section
/-! PROOFS. The ten OP instructions (41_alu_register.md R170 to R180): what a completed instruction that writes one register
leaves behind, and the ALU's results in the spec's arithmetic (40_datapath.md R138 to R140). -/

namespace Sys2Proof.Machine

open Sys2Proof.Claims

/-! ## An instruction that writes one register -/

theorem pcPlus4_eq_bits32 (pc : Word) : pcPlus4 pc = bits32 (pc.toNat + 4) := by
  rw [pcPlus4, bits32, BitVec.ofNat_add, BitVec.ofNat_toNat, BitVec.setWidth_eq]

/-- The end of every tick (R130 step 11), where the write before it changes neither the instruction memory nor N. -/
theorem ticked_retire {s after : State} (himem : after.imem = s.imem) (hcodeLen : after.codeLen = s.codeLen)
    (nextPC : Word) (sig : Signals) : Ticked s (after.retire nextPC sig) nextPC := by
  refine ⟨State.retire_pc .., fun a => by rw [State.retire_imem, himem], (State.retire_codeLen ..).trans hcodeLen, ?_⟩
  simp [isDoneAt, hcodeLen]

theorem noSignal_retire {i : Instr} (hecall : (controlRow i).ecall = 0b00) (after before : State) (nextPC memData : Word) :
    NoSignal (after.retire nextPC (signalsOf i memData before)) := by
  simp [NoSignal, isSyscall, isBreak, signalsOf, hecall]

/-- An instruction that makes one register write, and whose control row has `ecall` 00, changes that register alone. -/
theorem registerResult_of_complete {i : Instr} {s : State} {rd : RegIdx} {memData v nextPC : Word}
    (hexec : exec i s = complete i memData s (s.setReg rd v) nextPC) (hecall : (controlRow i).ecall = 0b00) :
    RegisterResult i s rd v nextPC :=
  ⟨_, hexec, fun r => State.reg_setReg s rd r v, fun a => by rw [State.retire_dmem, State.setReg_dmem],
    ticked_retire (State.setReg_imem ..) (State.setReg_codeLen ..) _ _, noSignal_retire hecall ..⟩

/-- R170: an OP instruction writes the ALU's result of x[rs1] and x[rs2], as read before the write. -/
theorem registerResult_of_aluRegister {op : AluOp} {i : Instr} {s : State} {rd rs1 rs2 : RegIdx} {v : Word}
    (hexec : exec i s = aluRegister op i rd rs1 rs2 s) (hecall : (controlRow i).ecall = 0b00)
    (hvalue : aluResult op (s.reg rs1) (s.reg rs2) = v) : RegisterResult i s rd v (bits32 (s.pc.toNat + 4)) := by
  subst hvalue
  rw [← pcPlus4_eq_bits32]
  exact registerResult_of_complete hexec hecall

/-! ## The ALU's results -/

section
variable (x y : Word)

theorem aluResult_add : aluResult .add x y = bits32 (x.toNat + y.toNat) := by
  simp [aluResult, bits32, BitVec.ofNat_add]

theorem aluResult_sub : aluResult .sub x y = bits32i ((x.toNat : Int) - y.toNat) := by
  simp [aluResult, bits32i, Int.sub_eq_add_neg, BitVec.ofInt_add, BitVec.ofInt_neg, BitVec.sub_eq_add_neg]

theorem shiftAmount_eq_low5 : shiftAmount y = low5 y := by
  rw [shiftAmount, BitVec.extractLsb'_toNat, Nat.shiftRight_zero, low5]

theorem aluResult_sll : aluResult .sll x y = bits32 (x.toNat * 2 ^ low5 y) := by
  apply BitVec.eq_of_toNat_eq
  rw [aluResult, shiftAmount_eq_low5, BitVec.toNat_shiftLeft, Nat.shiftLeft_eq, bits32, BitVec.toNat_ofNat]

/-- The quotient is below 2^32, so `bits_32` keeps it whole. -/
theorem aluResult_srl : aluResult .srl x y = bits32 (x.toNat / 2 ^ low5 y) := by
  apply BitVec.eq_of_toNat_eq
  have hlt : x.toNat / 2 ^ low5 y < 2 ^ 32 := (Nat.div_le_self _ _).trans_lt x.isLt
  rw [aluResult, shiftAmount_eq_low5, BitVec.toNat_ushiftRight, Nat.shiftRight_eq_div_pow, bits32, BitVec.toNat_ofNat,
    Nat.mod_eq_of_lt hlt]

/-- Shifting copies of bit 31 in is floor division of the signed value: Int division by a positive power rounds down. -/
theorem aluResult_sra : aluResult .sra x y = bits32i (x.toInt / 2 ^ low5 y) := by
  rw [aluResult, shiftAmount_eq_low5, BitVec.sshiftRight_eq, Int.shiftRight_eq_div_pow, Nat.cast_pow]
  rfl

theorem boolWord_decide (p : Prop) [Decidable p] : boolWord (decide p) = if p then 1 else 0 := by
  by_cases h : p <;> simp [boolWord, h]

theorem aluResult_slt : aluResult .slt x y = if x.toInt < y.toInt then 1 else 0 :=
  boolWord_decide _

theorem aluResult_sltu : aluResult .sltu x y = if x.toNat < y.toNat then 1 else 0 :=
  boolWord_decide _

/-- A word is the vector of its bits. -/
theorem eq_ofFnLE {v : Word} {f : Fin 32 → Bool} (h : ∀ k : Fin 32, v.getLsbD k = f k) : v = BitVec.ofFnLE f := by
  apply BitVec.eq_of_getElem_eq
  intro k hk
  rw [BitVec.getElem_ofFnLE, ← BitVec.getLsbD_eq_getElem]
  exact h ⟨k, hk⟩

theorem aluResult_xor : aluResult .xor x y = BitVec.ofFnLE fun k : Fin 32 => x.getLsbD k != y.getLsbD k :=
  eq_ofFnLE fun _ => BitVec.getLsbD_xor

theorem aluResult_or : aluResult .or x y = BitVec.ofFnLE fun k : Fin 32 => x.getLsbD k || y.getLsbD k :=
  eq_ofFnLE fun _ => BitVec.getLsbD_or

theorem aluResult_and : aluResult .and x y = BitVec.ofFnLE fun k : Fin 32 => x.getLsbD k && y.getLsbD k :=
  eq_ofFnLE fun _ => BitVec.getLsbD_and

end

/-! ## The ten instructions -/

/-- Settles O13: each is an OP instruction whose ALU result wraps as the spec's sum and difference do. -/
theorem addAndSubWrapModulo32Bits : Obligations.AddAndSubWrapModulo32Bits := by
  intro s rd rs1 rs2
  exact ⟨registerResult_of_aluRegister rfl rfl (aluResult_add ..), registerResult_of_aluRegister rfl rfl (aluResult_sub ..)⟩

/-- Settles O14: each is an OP instruction whose ALU result is a product or a quotient by the power of the low five bits. -/
theorem registerShiftsUseTheLowFiveBits : Obligations.RegisterShiftsUseTheLowFiveBits := by
  intro s rd rs1 rs2
  exact ⟨registerResult_of_aluRegister rfl rfl (aluResult_sll ..), registerResult_of_aluRegister rfl rfl (aluResult_srl ..),
    registerResult_of_aluRegister rfl rfl (aluResult_sra ..)⟩

/-- Settles O15: each is an OP instruction whose ALU result is its comparison as a word. -/
theorem registerComparesGiveOneOrZero : Obligations.RegisterComparesGiveOneOrZero := by
  intro s rd rs1 rs2
  exact ⟨registerResult_of_aluRegister rfl rfl (aluResult_slt ..), registerResult_of_aluRegister rfl rfl (aluResult_sltu ..)⟩

/-- Settles O16: each is an OP instruction whose ALU result has the stated bits. -/
theorem registerLogicIsBitwise : Obligations.RegisterLogicIsBitwise := by
  intro s rd rs1 rs2
  exact ⟨registerResult_of_aluRegister rfl rfl (aluResult_xor ..), registerResult_of_aluRegister rfl rfl (aluResult_or ..),
    registerResult_of_aluRegister rfl rfl (aluResult_and ..)⟩

end Sys2Proof.Machine
end

section
/-! PROOFS. The nine OP-IMM instructions (42_alu_immediate.md R185 to R194): the I immediate and the shamt in the spec's
arithmetic (30_encoding.md R82, R84), and each instruction as the ALU's result of a register and its immediate. -/

namespace Sys2Proof.Machine

open Sys2Proof.Claims

/-! ## The immediate -/

theorem imm12_eq_sext32 (imm : BitVec 12) : imm12 imm = sext32 imm := rfl

theorem toInt_imm12 (imm : BitVec 12) : (imm12 imm).toInt = imm.toInt :=
  BitVec.toInt_signExtend_of_le (by decide)

/-- R186's sum is the sum of R205, so it has that sum's closed form. -/
theorem aluResult_add_imm12 (s : State) (rs1 : RegIdx) (imm : BitVec 12) :
    aluResult .add (s.reg rs1) (imm12 imm) = bits32i (((s.reg rs1).toNat : Int) + imm.toInt) :=
  effectiveAddress_eq_bits32i s rs1 imm

/-! ## The nine instructions -/

/-- R185: an OP-IMM instruction writes the ALU's result of x[rs1], as read before the write, and the immediate. -/
theorem registerResult_of_aluImmediate {op : AluOp} {i : Instr} {s : State} {rd rs1 : RegIdx} {imm v : Word}
    (hexec : exec i s = aluImmediate op i rd rs1 imm s) (hecall : (controlRow i).ecall = 0b00)
    (hvalue : aluResult op (s.reg rs1) imm = v) : RegisterResult i s rd v (bits32 (s.pc.toNat + 4)) := by
  subst hvalue
  rw [← pcPlus4_eq_bits32]
  exact registerResult_of_complete hexec hecall

/-- Settles O17: each is an OP-IMM instruction whose ALU result is its sum or its comparison with the extended immediate, which
has the field's signed value. -/
theorem immediateArithmeticAndCompares : Obligations.ImmediateArithmeticAndCompares := by
  intro s rd rs1 imm
  have hslt := aluResult_slt (s.reg rs1) (imm12 imm)
  rw [toInt_imm12] at hslt
  exact ⟨registerResult_of_aluImmediate rfl rfl (aluResult_add_imm12 ..), registerResult_of_aluImmediate rfl rfl hslt,
    registerResult_of_aluImmediate rfl rfl (aluResult_sltu ..)⟩

/-- Settles O18: each is an OP-IMM instruction whose ALU result has the stated bits, the immediate being `sext_32` of its field. -/
theorem immediateLogicIsBitwise : Obligations.ImmediateLogicIsBitwise := by
  intro s rd rs1 imm
  simp only [← imm12_eq_sext32]
  exact ⟨registerResult_of_aluImmediate rfl rfl (aluResult_xor ..), registerResult_of_aluImmediate rfl rfl (aluResult_or ..),
    registerResult_of_aluImmediate rfl rfl (aluResult_and ..)⟩

/-- Settles O19: each is an OP-IMM instruction whose ALU shifts by the low five bits of its immediate, which are the shamt. -/
theorem immediateShiftsUseTheShamt : Obligations.ImmediateShiftsUseTheShamt := by
  intro s rd rs1 shamt
  have hsll := aluResult_sll (s.reg rs1) (immShift 0b0000000 shamt)
  have hsrl := aluResult_srl (s.reg rs1) (immShift 0b0000000 shamt)
  have hsra := aluResult_sra (s.reg rs1) (immShift 0b0100000 shamt)
  rw [low5_immShift] at hsll hsrl hsra
  exact ⟨registerResult_of_aluImmediate rfl rfl hsll, registerResult_of_aluImmediate rfl rfl hsrl,
    registerResult_of_aluImmediate rfl rfl hsra⟩

end Sys2Proof.Machine
end

section
/-! PROOFS. The two upper-immediate instructions (43_upper_immediate.md R200 to R202): the AUIPC adder (40_datapath.md R145) in
the spec's arithmetic, and each instruction as one register write. -/

namespace Sys2Proof.Machine

open Sys2Proof.Claims

theorem auipcAdder_immUpper (pc : Word) (imm : BitVec 20) :
    auipcAdder pc (immUpper imm) = bits32 (pc.toNat + imm.toNat * 4096) := by
  rw [auipcAdder, immUpper_eq_bits32, bits32, bits32, BitVec.ofNat_add, BitVec.ofNat_toNat, BitVec.setWidth_eq]

/-- Settles O20: each makes one register write, LUI of the U immediate, AUIPC of its sum with the pc before the tick. -/
theorem upperImmediateResults : Obligations.UpperImmediateResults := by
  intro s rd imm
  simp only [← pcPlus4_eq_bits32, ← immUpper_eq_bits32, ← auipcAdder_immUpper]
  exact ⟨registerResult_of_complete rfl rfl, registerResult_of_complete rfl rfl⟩

end Sys2Proof.Machine
end

section
/-! PROOFS. The five loads and the three stores (44_loads_stores.md R205 to R215): the effective address, the value a load writes
back in the spec's arithmetic (20_memory.md R51, R55, R58), and the bytes a store leaves in data memory (R52). -/

namespace Sys2Proof.Machine

open Sys2Proof.Claims

/-- Settles O21: the model's sum is of the register and the sign-extended field, each taken modulo 2^32. -/
theorem effectiveAddressWraps : Obligations.EffectiveAddressWraps :=
  effectiveAddress_eq_bits32i

/-! ## The value loaded -/

theorem extendLoaded_true {w : Nat} (v : BitVec w) : extendLoaded true v = bits32i v.toInt := rfl

theorem extendLoaded_false {w : Nat} (v : BitVec w) : extendLoaded false v = bits32 v.toNat :=
  (BitVec.ofNat_toNat 32 v).symm

/-- The bits of the byte or halfword are all kept, so zero extension is `bits_32` of the number its bytes stand for. -/
theorem extendLoaded_false_ofNat {w k : Nat} (h : k < 2 ^ w) : extendLoaded false (BitVec.ofNat w k) = bits32 k := by
  rw [extendLoaded_false, BitVec.toNat_ofNat, Nat.mod_eq_of_lt h]

/-- A word is already 32 bits wide, so its sign extension is itself (R209). -/
theorem extendLoaded_true_word (k : Nat) : extendLoaded true (BitVec.ofNat 32 k) = bits32 k :=
  BitVec.signExtend_eq _

theorem dataBytes_lt (s : State) (addr n : Nat) : dataBytes s addr n < 2 ^ (8 * n) := by
  rw [dataBytes_eq_readNat]
  exact s.dmem.readNat_lt addr n

theorem ofNat_dataBytes_one (s : State) (addr : Nat) : BitVec.ofNat 8 (dataBytes s addr 1) = s.dmem.read addr := by
  rw [dataBytes_eq_readNat, Memory.readNat_one, BitVec.ofNat_toNat, BitVec.setWidth_eq]

/-! ## The loads -/

/-- R206: a load whose bytes lie below 2^32 writes the extended little-endian value to x[rd] and nothing else. -/
theorem registerResult_of_loadTo {i : Instr} {n : Nat} {signed : Bool} {s : State} {rd rs1 : RegIdx} {imm : BitVec 12} {v : Word}
    (hexec : exec i s = loadTo i n signed rd rs1 imm s) (hecall : (controlRow i).ecall = 0b00)
    (hrange : (effectiveAddress s rs1 imm).toNat + n ≤ 2 ^ 32)
    (hvalue : extendLoaded signed (BitVec.ofNat (8 * n) (dataBytes s (effectiveAddress s rs1 imm).toNat n)) = v) :
    RegisterResult i s rd v (bits32 (s.pc.toNat + 4)) := by
  rw [dataBytes_eq_readNat] at hvalue
  subst hvalue
  rw [← pcPlus4_eq_bits32]
  exact registerResult_of_complete (hexec.trans ((loadTo_eq ..).trans (if_pos hrange))) hecall

/-- Settles O22: one byte is always in range, and it is the value LB extends with its sign and LBU with zeros. -/
theorem byteLoadsReadOneByte : Obligations.ByteLoadsReadOneByte := by
  intro s rd rs1 imm
  have hrange : (effectiveAddress s rs1 imm).toNat + 1 ≤ 2 ^ 32 := (effectiveAddress s rs1 imm).isLt
  have hbyte := ofNat_dataBytes_one s (effectiveAddress s rs1 imm).toNat
  exact ⟨registerResult_of_loadTo rfl rfl hrange ((congrArg (extendLoaded true) hbyte).trans (extendLoaded_true _)),
    registerResult_of_loadTo rfl rfl hrange ((congrArg (extendLoaded false) hbyte).trans (extendLoaded_false _))⟩

/-- Settles O23: each is a load in range; LH extends the halfword with its sign, LHU with zeros, and LW keeps the word. -/
theorem wideLoadsReadLittleEndianBytes : Obligations.WideLoadsReadLittleEndianBytes := by
  intro s rd rs1 imm
  refine ⟨fun hhalf => ⟨?_, ?_⟩, fun hword => ?_⟩
  · exact registerResult_of_loadTo rfl rfl hhalf (extendLoaded_true _)
  · exact registerResult_of_loadTo rfl rfl hhalf (extendLoaded_false_ofNat (dataBytes_lt s _ 2))
  · exact registerResult_of_loadTo rfl rfl hword (extendLoaded_true_word _)

/-! ## The stores -/

/-- Byte k of the low n bytes of a value is byte k of the value. -/
theorem ofNat_byte_setWidth {w n k : Nat} (v : BitVec w) (hk : k < n) :
    BitVec.ofNat 8 ((v.setWidth (8 * n)).toNat / 256 ^ k) = BitVec.ofNat 8 (v.toNat / 256 ^ k) := by
  rw [← extractLsb'_byte_eq_ofNat, ← extractLsb'_byte_eq_ofNat, BitVec.extractLsb'_setWidth_of_le (by omega)]

/-- What data memory holds after the low n bytes of a value are stored (R52). -/
theorem Memory.read_writeNat_setWidth (m : Memory) (addr n : Nat) (v : Word) (a : Nat) :
    (m.writeNat addr n (v.setWidth (8 * n)).toNat).read a =
      if addr ≤ a ∧ a < addr + n then BitVec.ofNat 8 (v.toNat / 256 ^ (a - addr)) else m.read a := by
  rw [Memory.read_writeNat]
  by_cases h : addr ≤ a ∧ a < addr + n
  · rw [if_pos h, if_pos h, ofNat_byte_setWidth v (by omega)]
  · rw [if_neg h, if_neg h]

/-- R212: a store whose bytes lie below 2^32 writes the low n bytes of x[rs2], and no register. -/
theorem storeResult_of_storeFrom {i : Instr} {n : Nat} {size : BitVec 2} {s : State} {rs2 rs1 : RegIdx} {imm : BitVec 12}
    (hexec : exec i s = storeFrom i n size rs2 rs1 imm s) (hecall : (controlRow i).ecall = 0b00)
    (hrange : (effectiveAddress s rs1 imm).toNat + n ≤ 2 ^ 32) :
    StoreResult i s (effectiveAddress s rs1 imm) n (s.reg rs2) := by
  rw [storeFrom_eq, if_pos hrange] at hexec
  refine ⟨_, hexec, fun r => ?_, fun a => ?_, ?_, noSignal_retire hecall ..⟩
  · rw [State.reg_retire, State.reg_dmem_update]
  · rw [State.retire_dmem, Memory.read_writeNat_setWidth]
  · rw [← pcPlus4_eq_bits32]
    exact ticked_retire rfl rfl ..

/-- Settles O24: each is a store in range, SB at every address since one byte cannot cross the end of the address space. -/
theorem storesWriteTheLowBytesAndNothingElse : Obligations.StoresWriteTheLowBytesAndNothingElse := by
  intro s rs2 rs1 imm
  have hbyte : (effectiveAddress s rs1 imm).toNat + 1 ≤ 2 ^ 32 := (effectiveAddress s rs1 imm).isLt
  exact ⟨storeResult_of_storeFrom rfl rfl hbyte, storeResult_of_storeFrom rfl rfl, storeResult_of_storeFrom rfl rfl⟩

end Sys2Proof.Machine
end

section
/-! PROOFS. The six conditional branches (45_branches.md R220 to R226): the BranchAdder's target (40_datapath.md R143) and the
comparisons in the spec's arithmetic, and what a branch leaves behind whichever way it goes. -/

namespace Sys2Proof.Machine

open Sys2Proof.Claims

/-! ## The target -/

/-- Clearing bit 0 of a word is dropping it and shifting a 0 back in, so the word of `n` becomes the word of the even number at or
below `n`. -/
theorem bits32i_and_evenMask (n : Int) : bits32i n &&& 0xFFFFFFFE#32 = evenTarget n := by
  have hmask : 0xFFFFFFFE#32 = BitVec.allOnes 32 <<< 1 := rfl
  rw [hmask, ← BitVec.shiftLeft_ushiftRight]
  apply BitVec.eq_of_toNat_eq
  simp only [evenTarget, bits32i, BitVec.toNat_shiftLeft, BitVec.toNat_ushiftRight, BitVec.toNat_ofInt, Nat.shiftLeft_eq,
    Nat.shiftRight_eq_div_pow]
  omega

/-- R143: the BranchAdder's sum of an address and a sign-extended displacement, whatever the displacement's width. -/
theorem branchAdder_signExtend {w : Nat} (base : Word) (offset : BitVec w) :
    branchAdder base (offset.signExtend 32) = evenTarget ((base.toNat : Int) + offset.toInt) := by
  have hsum : base + offset.signExtend 32 = bits32i ((base.toNat : Int) + offset.toInt) := by
    rw [bits32i, BitVec.ofInt_add, BitVec.ofInt_natCast, BitVec.ofNat_toNat, BitVec.setWidth_eq, BitVec.signExtend]
  rw [branchAdder, hsum, bits32i_and_evenMask]

/-! ## The comparisons -/

section
variable (x y : Word)

theorem lessSigned_iff : lessSigned x y = true ↔ x.toInt < y.toInt := decide_eq_true_iff

theorem lessUnsigned_iff : lessUnsigned x y = true ↔ x.toNat < y.toNat := decide_eq_true_iff

theorem not_lessSigned_iff : (!lessSigned x y) = true ↔ x.toInt ≥ y.toInt := by
  rw [Bool.not_eq_true', ← Bool.not_eq_true, lessSigned_iff, Int.not_lt]

theorem not_lessUnsigned_iff : (!lessUnsigned x y) = true ↔ x.toNat ≥ y.toNat := by
  rw [Bool.not_eq_true', ← Bool.not_eq_true, lessUnsigned_iff, Nat.not_lt]

end

/-! ## The six instructions -/

/-- An instruction that makes no write, and whose control row has `ecall` 00, moves the PC alone. -/
theorem controlResult_of_complete {i : Instr} {s : State} {memData nextPC : Word}
    (hexec : exec i s = complete i memData s s nextPC) (hecall : (controlRow i).ecall = 0b00) : ControlResult i s nextPC :=
  ⟨_, hexec, State.reg_retire s _ _, fun _ => by rw [State.retire_dmem], ticked_retire rfl rfl ..,
    noSignal_retire hecall ..⟩

/-- R220: a branch goes to its target where its condition holds and to the next instruction elsewhere. -/
theorem controlResult_of_branchIf {i : Instr} {s : State} {offset : BitVec 13} {taken : Bool} {p : Prop} [Decidable p]
    (hexec : exec i s = branchIf taken i offset s) (hecall : (controlRow i).ecall = 0b00) (htaken : taken = true ↔ p) :
    ControlResult i s (if p then evenTarget ((s.pc.toNat : Int) + offset.toInt) else bits32 (s.pc.toNat + 4)) := by
  rw [← branchAdder_signExtend, ← pcPlus4_eq_bits32]
  simp only [← htaken]
  exact controlResult_of_complete hexec hecall

/-- Settles O26: each is a branch taken on its own comparison of the two registers. -/
theorem branchesTakeTheirCondition : Obligations.BranchesTakeTheirCondition := by
  intro s rs1 rs2 offset
  exact ⟨controlResult_of_branchIf rfl rfl decide_eq_true_iff, controlResult_of_branchIf rfl rfl decide_eq_true_iff,
    controlResult_of_branchIf rfl rfl (lessSigned_iff ..), controlResult_of_branchIf rfl rfl (not_lessSigned_iff ..),
    controlResult_of_branchIf rfl rfl (lessUnsigned_iff ..), controlResult_of_branchIf rfl rfl (not_lessUnsigned_iff ..)⟩

end Sys2Proof.Machine
end

section
/-! PROOFS. The two unconditional jumps (46_jumps.md R235 to R237): each is one register write, of the link, with the BranchAdder's
target (40_datapath.md R143) in the spec's arithmetic. -/

namespace Sys2Proof.Machine

open Sys2Proof.Claims

/-- R235: a jump writes pc + 4 to x[rd] and nothing else, and goes to the BranchAdder's sum of a base and a displacement, both as
they stand before the write. -/
theorem registerResult_of_jumpTo {i : Instr} {s : State} {rd : RegIdx} {base : Word} {w : Nat} {offset : BitVec w}
    (hexec : exec i s = jumpTo i rd (branchAdder base (offset.signExtend 32)) s) (hecall : (controlRow i).ecall = 0b00) :
    RegisterResult i s rd (bits32 (s.pc.toNat + 4)) (evenTarget ((base.toNat : Int) + offset.toInt)) := by
  rw [← branchAdder_signExtend, ← pcPlus4_eq_bits32]
  exact registerResult_of_complete hexec hecall

/-- Settles O27: JAL jumps from the pc, and JALR from x[rs1] as read before the link is written, so also where rd = rs1. -/
theorem jumpsLinkAndClearBitZero : Obligations.JumpsLinkAndClearBitZero := by
  intro s rd rs1 offset imm
  exact ⟨registerResult_of_jumpTo rfl rfl, registerResult_of_jumpTo rfl rfl⟩

end Sys2Proof.Machine
end

section
/-! PROOFS. The two system instructions (47_system.md R245 to R247): no write, pc + 4, and the `ecall` output of the control row as
what the host reads back (10_state.md R35). -/

namespace Sys2Proof.Machine

open Sys2Proof.Claims

section
variable (i : Instr) (after before : State) (nextPC memData : Word)

theorem isSyscall_retire : isSyscall (after.retire nextPC (signalsOf i memData before)) = decide ((controlRow i).ecall = 0b01) := rfl

theorem isBreak_retire : isBreak (after.retire nextPC (signalsOf i memData before)) = decide ((controlRow i).ecall = 0b10) := rfl

end

/-- R245: an instruction that only signals keeps registers and memories, goes to the next instruction, and shows the host the
`ecall` output of its control row. -/
theorem signalHost_effect {i : Instr} {s : State} (hexec : exec i s = signalHost i s) :
    ∃ t, exec i s = .next t ∧ KeepsRegisters s t ∧ KeepsData s t ∧ Ticked s t (bits32 (s.pc.toNat + 4)) ∧
      isSyscall t = decide ((controlRow i).ecall = 0b01) ∧ isBreak t = decide ((controlRow i).ecall = 0b10) := by
  rw [← pcPlus4_eq_bits32]
  exact ⟨_, hexec, State.reg_retire s _ _, fun _ => by rw [State.retire_dmem], ticked_retire rfl rfl ..,
    isSyscall_retire .., isBreak_retire ..⟩

/-- Settles O28: both only signal, ECALL with the `ecall` output 01 and EBREAK with 10, whatever their rd and rs1 fields hold. -/
theorem systemInstructionsOnlySignal : Obligations.SystemInstructionsOnlySignal := by
  intro s rd rs1
  exact ⟨signalHost_effect rfl, signalHost_effect rfl⟩

end Sys2Proof.Machine
end

section
/-! PROOFS. Which conditions a tick raises (60_exceptions.md R262): the fetch's range, a rejected word, the range of a data access,
and no other. -/

namespace Sys2Proof.Machine

open Sys2Proof.Claims

/-! ## What an instruction raises -/

/-- An instruction that makes no data access completes. -/
theorem exec_next_of_no_access {i : Instr} (s : State) (h : accessOf i s = none) : ∃ t, exec i s = .next t := by
  cases i with
  | lb _ _ _ | lh _ _ _ | lw _ _ _ | lbu _ _ _ | lhu _ _ _ | sb _ _ _ | sh _ _ _ | sw _ _ _ => cases h
  | _ => exact ⟨_, rfl⟩

theorem exec_fatal_iff (i : Instr) (s : State) (f : Fatal) :
    exec i s = .fault (.fatal f) ↔ ∃ addr n, accessOf i s = some (addr, n) ∧ 2 ^ 32 < addr.toNat + n ∧
      f = .memoryRange .data addr.toNat n s.pc := by
  constructor
  · intro h
    cases haccess : accessOf i s with
    | none =>
      obtain ⟨t, hnext⟩ := exec_next_of_no_access s haccess
      rw [hnext] at h
      cases h
    | some access => exact ⟨_, _, rfl, (exec_fatal_iff_of_accessOf haccess f).1 h⟩
  · rintro ⟨addr, n, haccess, hrange⟩
    exact (exec_fatal_iff_of_accessOf haccess f).2 hrange

theorem accessOf_width {i : Instr} {s : State} {addr : Word} {n : Nat} (h : accessOf i s = some (addr, n)) :
    n = 1 ∨ n = 2 ∨ n = 4 := by
  cases i with
  | lb _ _ _ | lbu _ _ _ | sb _ _ _ => cases h; exact .inl rfl
  | lh _ _ _ | lhu _ _ _ | sh _ _ _ => cases h; exact .inr (.inl rfl)
  | lw _ _ _ | sw _ _ _ => cases h; exact .inr (.inr rfl)
  | _ => cases h

/-- The addresses R262 lists: no byte, a halfword at the last address, a word at one of the last three. -/
theorem access_beyond_memory_iff {n : Nat} (addr : Word) (hn : n = 1 ∨ n = 2 ∨ n = 4) :
    2 ^ 32 < addr.toNat + n ↔
      (n = 2 ∧ addr = 0xFFFFFFFF) ∨ (n = 4 ∧ (addr = 0xFFFFFFFD ∨ addr = 0xFFFFFFFE ∨ addr = 0xFFFFFFFF)) := by
  obtain ⟨-, haddresses, -, -⟩ := dataAccessRangeRule
  obtain ⟨hhalf, hword⟩ := haddresses addr
  have hbyte : addr.toNat < 2 ^ 32 := addr.isLt
  obtain rfl | rfl | rfl := hn
  · simp; omega
  · rw [hhalf]; simp
  · rw [hword]; simp

/-! ## What a step raises -/

theorem State.fetch_error_iff (s : State) (f : Fatal) :
    s.fetch = .error f ↔ 2 ^ 32 < s.pc.toNat + 4 ∧ f = .memoryRange .instruction s.pc.toNat 4 s.pc :=
  loadBytes_error_iff ..

theorem step_of_fetch_error {s : State} {f : Fatal} (hs : NotFaulted s) (hfetch : s.fetch = .error f) :
    step s = .fault (.fatal f) := by
  rw [step_of_notFaulted s hs, datapathCycle_of_fetch_error s f hfetch, stepAnswer]

theorem step_of_decode_error {s : State} {w : Word} {m : NoMatch} (hs : NotFaulted s) (hfetch : s.fetch = .ok w)
    (hdecode : decode w = .error m) : step s = .fault (.fatal (.decodeNoMatch m s.pc w)) := by
  rw [step_of_notFaulted s hs, datapathCycle_of_decode_error s w m hfetch hdecode, stepAnswer]

/-- Everything that makes a step fatal: the fetch, the decoder, or the instruction. -/
theorem step_fatal_iff {s : State} (hs : NotFaulted s) (f : Fatal) :
    step s = .fault (.fatal f) ↔
      s.fetch = .error f ∨
      (∃ w m, s.fetch = .ok w ∧ decode w = .error m ∧ f = .decodeNoMatch m s.pc w) ∨
      ∃ w i, s.fetch = .ok w ∧ decode w = .ok i ∧ exec i s = .fault (.fatal f) := by
  constructor
  · intro h
    cases hfetch : s.fetch with
    | error e =>
      rw [step_of_fetch_error hs hfetch] at h
      cases h
      exact .inl rfl
    | ok w =>
      cases hdecode : decode w with
      | error m =>
        rw [step_of_decode_error hs hfetch hdecode] at h
        cases h
        exact .inr (.inl ⟨w, m, rfl, hdecode, rfl⟩)
      | ok i =>
        rw [step_of_decode hs hfetch hdecode] at h
        exact .inr (.inr ⟨w, i, rfl, hdecode, h⟩)
  · rintro (hfetch | ⟨w, m, hfetch, hdecode, rfl⟩ | ⟨w, i, hfetch, hdecode, hexec⟩)
    · exact step_of_fetch_error hs hfetch
    · exact step_of_decode_error hs hfetch hdecode
    · rw [step_of_decode hs hfetch hdecode, hexec]

/-- Settles O37: a step is fatal by its fetch, its decoder or its data access, and an access of 1, 2 or 4 bytes leaves the address
space at the listed addresses alone. -/
theorem stepRaisesExactlyTheListedConditions : Obligations.StepRaisesExactlyTheListedConditions := by
  intro s f hs
  rw [step_fatal_iff hs, State.fetch_error_iff]
  refine or_congr_right (or_congr_right (exists_congr fun w => exists_congr fun i => ?_))
  rw [exec_fatal_iff]
  constructor
  · rintro ⟨hfetch, hdecode, addr, n, haccess, hrange, hf⟩
    exact ⟨addr, n, hfetch, hdecode, haccess, (access_beyond_memory_iff addr (accessOf_width haccess)).1 hrange, hf⟩
  · rintro ⟨addr, n, hfetch, hdecode, haccess, hlisted, hf⟩
    exact ⟨hfetch, hdecode, addr, n, haccess, (access_beyond_memory_iff addr (accessOf_width haccess)).2 hlisted, hf⟩

/-- Settles O38: the step is the datapath's cycle, which answers a state or a condition, and the conditions are those of O37. -/
theorem everyTickEndsInANextStateOrCodeOneOrTwo : Obligations.EveryTickEndsInANextStateOrCodeOneOrTwo := by
  intro s hs
  have hstep := step_of_notFaulted s hs
  cases hcycle : datapathCycle s with
  | ok t => exact .inl ⟨t, by rw [hstep, hcycle, stepAnswer]⟩
  | error f =>
    rw [hcycle, stepAnswer] at hstep
    refine .inr ⟨f, hstep, ?_⟩
    obtain ⟨-, rfl⟩ | ⟨w, m, -, -, rfl⟩ | ⟨w, i, addr, n, -, -, -, -, rfl⟩ :=
      (stepRaisesExactlyTheListedConditions s f hs).1 hstep
    · exact .inr rfl
    · exact .inl rfl
    · exact .inr rfl

end Sys2Proof.Machine
end

section
/-! PROOFS. When a construction answers (70_reset_and_hazards.md R300 to R302), and what a tick reads beyond the loaded code
(R306). -/

namespace Sys2Proof.Machine

open Sys2Proof.Claims

/-! ## Construction succeeds -/

theorem exists_storeArray_ok {id : MemoryId} (pc : Word) (m : Memory) {addr w : Nat} {values : List Nat}
    (hrange : addr + w * values.length ≤ memorySize id) (hfit : ∀ v ∈ values, v < 2 ^ (8 * w)) :
    ∃ m', storeArray id pc m addr w values = .ok m' := by
  induction values generalizing m addr with
  | nil => exact ⟨m, rfl⟩
  | cons v vs ih =>
    rw [List.length_cons, Nat.mul_succ] at hrange
    obtain ⟨hv, hvs⟩ := List.forall_mem_cons.1 hfit
    have hstore : storeBytes id pc m addr w v = .ok (m.writeNat addr w v) :=
      (storeBytes_ok_iff ..).2 ⟨by omega, hv, rfl⟩
    rw [storeArray, hstore]
    exact ih _ (by omega) hvs

theorem exists_storeInitBytes_ok (m : Memory) {cells : List Host.Cell} (h : ∀ c ∈ cells, c.1 < 2 ^ 32) :
    ∃ m', storeInitBytes m cells = .ok m' := by
  induction cells generalizing m with
  | nil => exact ⟨m, rfl⟩
  | cons c rest ih =>
    obtain ⟨hc, hrest⟩ := List.forall_mem_cons.1 h
    have hstore : storeBytes .data Config.resetPc m c.1 1 c.2.toNat = .ok (m.writeNat c.1 1 c.2.toNat) :=
      (storeBytes_ok_iff ..).2 ⟨hc, c.2.isLt, rfl⟩
    rw [storeInitBytes, hstore]
    exact ih _ hrest

/-- Settles O34: the code words fit their stores and the instruction memory, and each initial byte lies in the data memory. -/
theorem constructionSucceeds : Obligations.ConstructionSucceeds := by
  intro l hwords hcode hdata
  obtain ⟨imem, himem⟩ := exists_storeArray_ok (id := .instruction) Config.resetPc [] (addr := Config.codeBase) (w := 4)
    (by rwa [Nat.zero_add, memorySize_eq]) hwords
  unfold construct loadCode
  rw [himem]
  dsimp only
  obtain ⟨dmem, hdmem⟩ := exists_storeInitBytes_ok (writeRegisters (State.blank l.spInit l.gpInit) l.regMap).dmem hdata
  rw [hdmem]
  exact ⟨_, rfl⟩

/-- Settles O33: the NOP's four stores list its one byte that is not 0, and the other fields are those of the blank state. -/
theorem resetIsTheDefaultConstruction : Obligations.ResetIsTheDefaultConstruction := by
  unfold Obligations.ResetIsTheDefaultConstruction
  rfl

/-! ## Reads at the end of the code -/

/-- A read of a + b bytes is a read of the low a and one of the high b. -/
theorem Memory.readNat_add (m : Memory) (addr a b : Nat) :
    m.readNat addr (a + b) = m.readNat addr a + 2 ^ (8 * a) * m.readNat (addr + a) b := by
  induction a generalizing addr with
  | zero => simp [Memory.readNat]
  | succ a ih =>
    have haddr : addr + 1 + a = addr + (a + 1) := by omega
    have hpow : 2 ^ (8 * (a + 1)) = 256 * 2 ^ (8 * a) := by rw [Nat.mul_succ, Nat.pow_add, Nat.mul_comm]
    rw [Nat.succ_add, Memory.readNat, Memory.readNat, ih, haddr, hpow, Nat.mul_add, Nat.mul_assoc, Nat.add_assoc]

theorem Memory.readNat_eq_zero {m : Memory} {addr w : Nat} (h : ∀ a, addr ≤ a → m.read a = 0) : m.readNat addr w = 0 := by
  induction w generalizing addr with
  | zero => rfl
  | succ w ih =>
    rw [Memory.readNat, h addr le_rfl, ih fun a ha => h a (by omega)]
    rfl

theorem lt_of_mem_storeArray {id : MemoryId} {pc : Word} {m m' : Memory} {addr w v : Nat} {values : List Nat}
    (h : storeArray id pc m addr w values = .ok m') (hv : v ∈ values) : v < 2 ^ (8 * w) := by
  induction values generalizing m addr with
  | nil => cases hv
  | cons x xs ih =>
    obtain ⟨-, hx, hrest⟩ := storeArray_cons_ok h
    obtain rfl | hv := List.mem_cons.1 hv
    · exact hx
    · exact ih hrest hv

section
variable {l : Launch} {s₀ : State} (hlaunch : construct l = .ok s₀)
include hlaunch

theorem read_construct_beyond_code {a : Nat} (ha : 4 * l.code.length ≤ a) : s₀.imem.read a = 0 := by
  obtain ⟨imem, dmem, hcode, -, rfl⟩ := construct_ok hlaunch
  exact read_storeArray_outside hcode (.inr (by rwa [Nat.zero_add]))

theorem readNat_construct_code {i : Nat} (hi : i < l.code.length) : s₀.imem.readNat (4 * i) 4 = l.code[i] := by
  obtain ⟨imem, dmem, hcode, -, rfl⟩ := construct_ok hlaunch
  have hfit : l.code[i] < 2 ^ (8 * 4) := lt_of_mem_storeArray hcode (List.getElem_mem hi)
  obtain ⟨-, hword⟩ := (loadBytes_ok_iff ..).1 (loadBytes_storeArray hcode 0 hi)
  have hbytes := congrArg BitVec.toNat hword
  rw [Nat.zero_add, BitVec.toNat_ofNat, BitVec.toNat_ofNat, Nat.mod_eq_of_lt hfit,
    Nat.mod_eq_of_lt (Memory.readNat_lt ..)] at hbytes
  exact hbytes.symm

/-- The four bytes that straddle the end of the code: the upper half of the last word under zeros. -/
theorem readNat_construct_straddling {addr w : Nat} (hw : l.code.getLast? = some w) (haddr : addr + 2 = 4 * l.code.length) :
    s₀.imem.readNat addr 4 = w / 2 ^ 16 := by
  obtain ⟨last, hlast⟩ : ∃ last, l.code.length = last + 1 := ⟨l.code.length - 1, by omega⟩
  obtain rfl : addr = 4 * last + 2 := by omega
  have hcode : s₀.imem.readNat (4 * last) 4 = w := by
    rw [List.getLast?_eq_getElem?, hlast, Nat.add_sub_cancel] at hw
    obtain ⟨hlt, rfl⟩ := List.getElem?_eq_some_iff.1 hw
    exact readNat_construct_code hlaunch hlt
  have hzero : s₀.imem.readNat (4 * last + 2 + 2) 2 = 0 :=
    Memory.readNat_eq_zero fun a ha => read_construct_beyond_code hlaunch (by omega)
  have hlow : s₀.imem.readNat (4 * last) 2 < 2 ^ 16 := Memory.readNat_lt ..
  rw [Memory.readNat_add _ _ 2 2] at hcode ⊢
  omega

end

theorem State.fetch_of_range {s : State} (h : s.pc.toNat + 4 ≤ 2 ^ 32) :
    s.fetch = .ok (bits32 (s.imem.readNat s.pc.toNat 4)) := by
  rw [s.fetch_eq, if_pos h, bits32]

/-- Settles O40: beyond the code every byte fetched is 0, a word no row of CONTROL_MAIN admits; two bytes before its end, the low
half is the upper half of the last word. -/
theorem tickBeyondTheCodeIsDecodeNoMatch : Obligations.TickBeyondTheCodeIsDecodeNoMatch := by
  intro l s₀ s hlaunch himem hs hrange
  have hfetch := State.fetch_of_range hrange
  rw [himem] at hfetch
  refine ⟨fun hbeyond => ?_, fun w hw hstraddles => ?_⟩
  · have hzero : s₀.imem.readNat s.pc.toNat 4 = 0 :=
      Memory.readNat_eq_zero fun a ha => read_construct_beyond_code hlaunch (hbeyond.trans ha)
    rw [hzero] at hfetch
    exact step_of_decode_error hs hfetch rfl
  · rw [hfetch, readNat_construct_straddling hlaunch hw hstraddles]

end Sys2Proof.Machine
end

section
/-! PROOFS. A run under fuel (70_reset_and_hazards.md R304, R307) is ticks, up to the first state that is done or faulted. -/

namespace Sys2Proof.Machine

open Sys2Proof.Claims

/-! ## The equations of a run -/

section
variable {s : State}

theorem run_of_faulted {f : Fatal} (h : s.status = .faulted f) (fuel : Nat) : run s fuel = .faulted s f := by
  cases fuel <;> simp only [run, h]

theorem run_of_isDone (hs : NotFaulted s) (h : isDone s = true) (fuel : Nat) : run s fuel = .done s := by
  cases fuel <;>
  · unfold run
    split
    · exact absurd ‹_› (hs _)
    · exact if_pos h

theorem run_zero_of_not_isDone (hs : NotFaulted s) (h : isDone s = false) : run s 0 = .outOfFuel s := by
  unfold run
  split
  · exact absurd ‹_› (hs _)
  · simp [h]

theorem run_succ_of_not_isDone (hs : NotFaulted s) (h : isDone s = false) (fuel : Nat) :
    run s (fuel + 1) = run (tick s) fuel := by
  rw [run]
  split
  · exact absurd ‹_› (hs _)
  · simp [h]

end

/-! ## How a run ends -/

/-- A run that stops at `t` with `left` of its fuel unused ends in `t`, and says why it stopped there. -/
def StoppedAt (t : State) (left : Nat) : RunResult → Prop
  | .done t' => t' = t ∧ isDone t = true
  | .faulted t' f => t' = t ∧ t.status = .faulted f
  | .outOfFuel t' => t' = t ∧ left = 0 ∧ isDone t = false ∧ NotFaulted t

theorem run_stoppedAt_start {s : State} {fuel : Nat} (h : fuel = 0 ∨ ¬(NotFaulted s ∧ isDone s = false)) :
    StoppedAt s fuel (run s fuel) := by
  by_cases hs : NotFaulted s
  · cases hdone : isDone s with
    | true => rw [run_of_isDone hs hdone]; exact ⟨rfl, hdone⟩
    | false =>
      obtain rfl : fuel = 0 := h.resolve_right (not_not_intro ⟨hs, hdone⟩)
      rw [run_zero_of_not_isDone hs hdone]
      exact ⟨rfl, rfl, hdone, hs⟩
  · obtain ⟨f, hf⟩ : ∃ f, s.status = .faulted f := by simpa [NotFaulted] using hs
    rw [run_of_faulted hf]
    exact ⟨rfl, hf⟩

/-- Every run stops after some of its ticks, with no state before the last one done. -/
theorem run_stoppedAt (s : State) (fuel : Nat) :
    ∃ k left, k + left = fuel ∧ StoppedAt (tick^[k] s) left (run s fuel) ∧ ∀ j < k, isDone (tick^[j] s) = false := by
  induction fuel generalizing s with
  | zero => exact ⟨0, 0, rfl, run_stoppedAt_start (.inl rfl), nofun⟩
  | succ fuel ih =>
    by_cases hgoes : NotFaulted s ∧ isDone s = false
    · obtain ⟨hs, hdone⟩ := hgoes
      obtain ⟨k, left, hfuel, hstop, hearlier⟩ := ih (tick s)
      rw [run_succ_of_not_isDone hs hdone]
      refine ⟨k + 1, left, by omega, hstop, fun j hj => ?_⟩
      cases j with
      | zero => exact hdone
      | succ j => exact hearlier j (Nat.lt_of_succ_lt_succ hj)
    · exact ⟨0, fuel + 1, Nat.zero_add _, run_stoppedAt_start (.inr hgoes), nofun⟩

/-- Settles O50: a run's result says at which of its ticks it stopped and why; out of fuel, that is the last one. -/
theorem runIsTicksUntilDoneOrFaulted : Obligations.RunIsTicksUntilDoneOrFaulted := by
  intro s fuel
  obtain ⟨k, left, hfuel, hstop, hearlier⟩ := run_stoppedAt s fuel
  refine ⟨fun t h => ?_, fun t f h => ?_, fun t h => ?_⟩ <;> rw [h] at hstop
  · obtain ⟨rfl, hdone⟩ := hstop
    exact ⟨k, by omega, rfl, hdone, hearlier⟩
  · obtain ⟨rfl, hf⟩ := hstop
    exact ⟨k, by omega, rfl, hf, hearlier⟩
  · obtain ⟨rfl, rfl, hdone, hs⟩ := hstop
    obtain rfl : k = fuel := hfuel
    exact ⟨rfl, hdone, hs, hearlier⟩

end Sys2Proof.Machine
end
